-- ==== Sys2Proof/Word.lean ====
section
/-! DEFINITION. The word types: a byte, a 32-bit block register, and a 20-bit DPCD or I2C address (R37, R90). -/

namespace Sys2Proof

/-- A byte is 8 bits (R9). -/
abbrev Byte := BitVec 8

/-- A 32-bit block register, or the `u32` of a DPCD operation (R37, R39, R190). -/
abbrev Word := BitVec 32

/-- A DPCD or I2C address: 20 bits (R90, R92). -/
abbrev Addr := BitVec 20

end Sys2Proof
end

