-- ==== Sys2Proof/Syntax.lean ====
section
/-! DEFINITION. The syntax: the operand types and one constructor of `Instr` per row of spec/opcode_table.json. -/

namespace Sys2Proof

/-- The AUX commands the engine sends (R126). -/
inductive AuxCmd where
  | nativeWrite
  | nativeRead
  | i2cWrite
  | i2cRead
  | i2cWriteMot
  | i2cReadMot
  deriving DecidableEq, Repr

/-- The lane counts of a link: 1, 2 or 4 (R8, R41). -/
inductive LaneCount where
  | one
  | two
  | four
  deriving DecidableEq, Repr

/-- The link rates: 1.62, 2.7 and 5.4 Gbps (R8, R41). -/
inductive LinkRate where
  | rbr
  | hbr
  | hbr2
  deriving DecidableEq, Repr

/-- A level: a pair (voltage swing, pre-emphasis) of 2-bit values (R15, R52). -/
structure Level where
  swing : BitVec 2
  pre : BitVec 2
  deriving DecidableEq, Repr

/-- The three encoded formats of the opcode table: an AUX request frame, an AUX reply frame, a host
operation record (30_encoding.md sections 1, 3 and 5). -/
inductive Format where
  | auxRequest
  | auxReply
  | hostOp
  deriving DecidableEq, Repr

/-- One constructor per row of spec/opcode_table.json.

The AUX commands carry the fields of the command word and the payload that follows it on the wire
(R121, R123).  The replies carry their data bytes (R124).  The host operations carry their operands
as the host gives them, unchecked, so that the check of R131 can refuse them. -/
inductive Instr where
  /-- NATIVE_WRITE (R170). -/
  | nativeWrite (addr : Addr) (lm1 : Byte) (payload : List Byte)
  /-- NATIVE_READ (R171). -/
  | nativeRead (addr : Addr) (lm1 : Byte)
  /-- I2C_WRITE (R172). -/
  | i2cWrite (addr : Addr) (lm1 : Byte) (payload : List Byte)
  /-- I2C_READ (R173). -/
  | i2cRead (addr : Addr) (lm1 : Byte)
  /-- I2C_WRITE_MOT (R174). -/
  | i2cWriteMot (addr : Addr) (lm1 : Byte) (payload : List Byte)
  /-- I2C_READ_MOT (R175). -/
  | i2cReadMot (addr : Addr) (lm1 : Byte)
  /-- REPLY_ACK (R176). -/
  | replyAck (data : List Byte)
  /-- REPLY_NACK (R177). -/
  | replyNack (data : List Byte)
  /-- REPLY_DEFER (R178). -/
  | replyDefer (data : List Byte)
  /-- AUX_EXECUTE cmd, addr, len, payload (R160). -/
  | auxExecute (cmd : BitVec 4) (addr len : Nat) (payload : List Byte)
  /-- DPCD_READ addr, n (R190). -/
  | dpcdRead (addr n : Nat)
  /-- DPCD_READ_PROBE addr, n (R194). -/
  | dpcdReadProbe (addr n : Nat)
  /-- DPCD_WRITE addr, n, value (R195). -/
  | dpcdWrite (addr n value : Nat)
  /-- EPC_APPLY swing, pre, lane_count (R210). -/
  | epcApply (swing pre laneCount : Nat)
  /-- LINK_TRAIN lane_count, link_rate, enhanced_framing (R240). -/
  | linkTrain (laneCount : Nat) (rate : LinkRate) (enhancedFraming : Bool)
  deriving DecidableEq, Repr

end Sys2Proof
end

