-- ==== Sys2Proof/Decode.lean ====
section
/-! DEFINITION. The decoder, total on any bytes and rejecting by name, and after it the encoder (30_encoding.md). -/

namespace Sys2Proof

/-! ## The tables of R126 and R130 -/

/-- The command nibble (R126). -/
def AuxCmd.nibble : AuxCmd → BitVec 4
  | .nativeWrite => 0x8
  | .nativeRead => 0x9
  | .i2cWrite => 0x0
  | .i2cRead => 0x1
  | .i2cWriteMot => 0x4
  | .i2cReadMot => 0x5

/-- The command of a nibble; the reserved nibbles of R127 have none. -/
def AuxCmd.ofNibble? (c : BitVec 4) : Option AuxCmd :=
  if c = 0x8 then some .nativeWrite
  else if c = 0x9 then some .nativeRead
  else if c = 0x0 then some .i2cWrite
  else if c = 0x1 then some .i2cRead
  else if c = 0x4 then some .i2cWriteMot
  else if c = 0x5 then some .i2cReadMot
  else none

/-- The class column of R126: read class or write class. -/
def AuxCmd.isRead : AuxCmd → Bool
  | .nativeRead | .i2cRead | .i2cReadMot => true
  | .nativeWrite | .i2cWrite | .i2cWriteMot => false

/-- The instruction of an AUX command row with these fields; a read-class command has no payload. -/
def AuxCmd.toInstr (c : AuxCmd) (addr : Addr) (lm1 : Byte) (payload : List Byte) : Instr :=
  match c with
  | .nativeWrite => .nativeWrite addr lm1 payload
  | .nativeRead => .nativeRead addr lm1
  | .i2cWrite => .i2cWrite addr lm1 payload
  | .i2cRead => .i2cRead addr lm1
  | .i2cWriteMot => .i2cWriteMot addr lm1 payload
  | .i2cReadMot => .i2cReadMot addr lm1

/-- The number of lanes. -/
def LaneCount.toNat : LaneCount → Nat
  | .one => 1
  | .two => 2
  | .four => 4

/-- The lane count of a number; only 1, 2 and 4 are lane counts (R131). -/
def LaneCount.ofNat? (n : Nat) : Option LaneCount :=
  if n = 1 then some .one
  else if n = 2 then some .two
  else if n = 4 then some .four
  else none

/-- The instruction of a named reply status (R125); 0x3 to 0xF have no name. -/
def replyInstr? (status : BitVec 4) (data : List Byte) : Option Instr :=
  if status = 0 then some (.replyAck data)
  else if status = 1 then some (.replyNack data)
  else if status = 2 then some (.replyDefer data)
  else none

/-- The format of an instruction's row. -/
def Instr.format : Instr → Format
  | .nativeWrite .. | .nativeRead .. | .i2cWrite .. | .i2cRead .. | .i2cWriteMot .. | .i2cReadMot .. => .auxRequest
  | .replyAck .. | .replyNack .. | .replyDefer .. => .auxReply
  | .auxExecute .. | .dpcdRead .. | .dpcdReadProbe .. | .dpcdWrite .. | .epcApply .. | .linkTrain .. => .hostOp

/-! ## Bit fields and bytes -/

/-- The command word `CMD[3:0] ++ ADDR[19:0] ++ LM1[7:0]` (R121). -/
def commandWord (cmd : BitVec 4) (addr : Addr) (lm1 : Byte) : Word := cmd ++ addr ++ lm1

/-- `CMD`, bits 31:28 of the command word (R121). -/
def Word.cmd (w : Word) : BitVec 4 := w.extractLsb' 28 4

/-- `ADDR`, bits 27:8 of the command word (R121). -/
def Word.addr (w : Word) : Addr := w.extractLsb' 8 20

/-- `LM1`, bits 7:0 of the command word (R121). -/
def Word.lm1 (w : Word) : Byte := w.extractLsb' 0 8

/-- The header bytes on the wire: the command word most significant byte first (R122). -/
def headerBytes (w : Word) : List Byte :=
  [w.extractLsb' 24 8, w.extractLsb' 16 8, w.extractLsb' 8 8, w.extractLsb' 0 8]

/-- The base-128 digits of a number, least significant first, bit 7 set in every byte but the last; at most `fuel` of them
stand before the last. -/
def natDigits : Nat → Nat → List Byte
  | 0, n => [BitVec.ofNat 8 n]
  | fuel + 1, n =>
    if n < 128 then [BitVec.ofNat 8 n] else BitVec.ofNat 8 (n % 128 + 128) :: natDigits fuel (n / 128)

/-- A number among the operands of a host record, of any size: R130's `len` and `n` are naturals (layout: log entry 3). -/
def natBytes (n : Nat) : List Byte := natDigits n n

/-! ## Decoding -/

/-- Why bytes are no instruction. -/
inductive DecodeError where
  /-- the bytes end inside the instruction -/
  | truncated
  /-- more bytes stand in the record than the instruction has -/
  | trailingBytes
  /-- op codes 0x0 and 0x7 to 0xF (R130) -/
  | reservedOpCode
  /-- the command nibbles of R127 -/
  | reservedCommand
  /-- the reply nibbles 0x3 to 0xF, which have no name (R125) -/
  | unnamedStatus
  /-- a reply of more than 16 data bytes (R124, R128) -/
  | replyTooLong
  /-- a bit that is 0 in the format is 1 -/
  | unusedBitSet
  /-- the highest digit of a number is 0, where fewer digits hold it (log entry 3) -/
  | zeroDigit
  /-- a link rate outside RBR, HBR, HBR2 (R131) -/
  | unknownLinkRate
  deriving DecidableEq, Repr

/-- The first byte and the rest. -/
def takeByte : List Byte → Except DecodeError (Byte × List Byte)
  | b :: rest => .ok (b, rest)
  | [] => .error .truncated

/-- The first number and the rest (log entry 3). -/
def takeNat : List Byte → Except DecodeError (Nat × List Byte)
  | [] => .error .truncated
  | b :: rest =>
    if b.toNat < 128 then .ok (b.toNat, rest)
    else
      match takeNat rest with
      | .error e => .error e
      | .ok (n, rest) => if n = 0 then .error .zeroDigit else .ok (b.toNat - 128 + 128 * n, rest)

/-- The first `n` bytes and the rest. -/
def takeBytes (n : Nat) (bytes : List Byte) : Except DecodeError (List Byte × List Byte) :=
  if bytes.length < n then .error .truncated else .ok (bytes.take n, bytes.drop n)

/-- An AUX request frame: four header bytes, then `LM1 + 1` payload bytes for a write-class command
(R120, R122, R123).  "A decoder of a request tells the length from the command nibble and `LM1` alone." -/
def decodeRequest : List Byte → Except DecodeError (Instr × List Byte)
  | h0 :: h1 :: h2 :: h3 :: rest =>
    let w : Word := h0 ++ h1 ++ h2 ++ h3
    match AuxCmd.ofNibble? (Word.cmd w) with
    | none => .error .reservedCommand
    | some c =>
      if c.isRead then .ok (c.toInstr (Word.addr w) (Word.lm1 w) [], rest)
      else do
        let (payload, rest) ← takeBytes ((Word.lm1 w).toNat + 1) rest
        .ok (c.toInstr (Word.addr w) (Word.lm1 w) payload, rest)
  | _ => .error .truncated

/-- An AUX reply frame: the status nibble in bits 7:4 of the first byte, whose bits 3:0 are 0, then up to
16 data bytes, to the end of the frame (R124). -/
def decodeReply : List Byte → Except DecodeError (Instr × List Byte)
  | [] => .error .truncated
  | b :: data =>
    if b.extractLsb' 0 4 ≠ 0 then .error .unusedBitSet
    else if 16 < data.length then .error .replyTooLong
    else
      match replyInstr? (b.extractLsb' 4 4) data with
      | none => .error .unnamedStatus
      | some i => .ok (i, [])

/-- A link rate's code in a host record (log entry 3). -/
def LinkRate.ofCode? (b : Byte) : Option LinkRate :=
  if b = 0 then some .rbr else if b = 1 then some .hbr else if b = 2 then some .hbr2 else none

/-- The operands of AUX_EXECUTE: the command nibble in a byte, the address, the length, the number of
payload bytes and the payload (R130; layout: log entry 3). -/
def decodeAuxExecute (bytes : List Byte) : Except DecodeError (Instr × List Byte) := do
  let (cmd, rest) ← takeByte bytes
  if cmd.extractLsb' 4 4 ≠ 0 then .error .unusedBitSet
  else do
    let (addr, rest) ← takeNat rest
    let (len, rest) ← takeNat rest
    let (count, rest) ← takeNat rest
    let (payload, rest) ← takeBytes count rest
    .ok (.auxExecute (cmd.extractLsb' 0 4) addr len payload, rest)

/-- The operands `addr, n` of DPCD_READ and DPCD_READ_PROBE (R130; layout: log entry 3). -/
def decodeAddrCount (make : Nat → Nat → Instr) (bytes : List Byte) : Except DecodeError (Instr × List Byte) := do
  let (addr, rest) ← takeNat bytes
  let (n, rest) ← takeNat rest
  .ok (make addr n, rest)

/-- The operands of DPCD_WRITE (R130; layout: log entry 3). -/
def decodeDpcdWrite (bytes : List Byte) : Except DecodeError (Instr × List Byte) := do
  let (addr, rest) ← takeNat bytes
  let (n, rest) ← takeNat rest
  let (value, rest) ← takeNat rest
  .ok (.dpcdWrite addr n value, rest)

/-- The operands of EPC_APPLY: swing, pre-emphasis, and the lane count less one (R130; layout: log entry 3). -/
def decodeEpcApply (bytes : List Byte) : Except DecodeError (Instr × List Byte) := do
  let (swing, rest) ← takeNat bytes
  let (pre, rest) ← takeNat rest
  let (lanes, rest) ← takeNat rest
  .ok (.epcApply swing pre (lanes + 1), rest)

/-- The operands of LINK_TRAIN: the lane count less one, then a byte with the rate's code and one with enhanced framing in
bit 0 (R130; layout: log entry 3). -/
def decodeLinkTrain (bytes : List Byte) : Except DecodeError (Instr × List Byte) := do
  let (lanes, rest) ← takeNat bytes
  let (rate, rest) ← takeByte rest
  let (ef, rest) ← takeByte rest
  if ef.extractLsb' 1 7 ≠ 0 then .error .unusedBitSet
  else
    match LinkRate.ofCode? rate with
    | none => .error .unknownLinkRate
    | some r => .ok (.linkTrain (lanes + 1) r (ef.getLsbD 0), rest)

/-- A host record: the op code in bits 3:0 of the first byte, then the operands (R130; layout: log entry 3). -/
def decodeHostOp : List Byte → Except DecodeError (Instr × List Byte)
  | [] => .error .truncated
  | b :: rest =>
    if b = 0x01 then decodeAuxExecute rest
    else if b = 0x02 then decodeAddrCount .dpcdRead rest
    else if b = 0x03 then decodeAddrCount .dpcdReadProbe rest
    else if b = 0x04 then decodeDpcdWrite rest
    else if b = 0x05 then decodeEpcApply rest
    else if b = 0x06 then decodeLinkTrain rest
    else .error .reservedOpCode

/-- The instruction at the head of the bytes, and the rest of them. -/
def decode (f : Format) (bytes : List Byte) : Except DecodeError (Instr × List Byte) :=
  match f with
  | .auxRequest => decodeRequest bytes
  | .auxReply => decodeReply bytes
  | .hostOp => decodeHostOp bytes

/-- The instruction that is the whole of the bytes: "each is one record" (R134). -/
def decodeWhole (f : Format) (bytes : List Byte) : Except DecodeError Instr :=
  match decode f bytes with
  | .error e => .error e
  | .ok (i, []) => .ok i
  | .ok (_, _ :: _) => .error .trailingBytes

/-! ## Encoding -/

/-- A link rate's code in a host record (log entry 3). -/
def LinkRate.code : LinkRate → Byte
  | .rbr => 0
  | .hbr => 1
  | .hbr2 => 2

/-- An AUX request frame (R120 to R122). -/
def encodeRequest (c : AuxCmd) (addr : Addr) (lm1 : Byte) (payload : List Byte) : List Byte :=
  headerBytes (commandWord c.nibble addr lm1) ++ payload

/-- An AUX reply frame (R124). -/
def encodeReply (status : BitVec 4) (data : List Byte) : List Byte := (status ++ (0 : BitVec 4)) :: data

/-- The bytes of an instruction in its row's format. -/
def encode : Instr → List Byte
  | .nativeWrite addr lm1 payload => encodeRequest .nativeWrite addr lm1 payload
  | .nativeRead addr lm1 => encodeRequest .nativeRead addr lm1 []
  | .i2cWrite addr lm1 payload => encodeRequest .i2cWrite addr lm1 payload
  | .i2cRead addr lm1 => encodeRequest .i2cRead addr lm1 []
  | .i2cWriteMot addr lm1 payload => encodeRequest .i2cWriteMot addr lm1 payload
  | .i2cReadMot addr lm1 => encodeRequest .i2cReadMot addr lm1 []
  | .replyAck data => encodeReply 0 data
  | .replyNack data => encodeReply 1 data
  | .replyDefer data => encodeReply 2 data
  | .auxExecute cmd addr len payload =>
    [0x01, (0 : BitVec 4) ++ cmd] ++ natBytes addr ++ natBytes len ++ natBytes payload.length ++ payload
  | .dpcdRead addr n => 0x02 :: natBytes addr ++ natBytes n
  | .dpcdReadProbe addr n => 0x03 :: natBytes addr ++ natBytes n
  | .dpcdWrite addr n value => 0x04 :: natBytes addr ++ natBytes n ++ natBytes value
  | .epcApply swing pre lanes => 0x05 :: natBytes swing ++ natBytes pre ++ natBytes (lanes - 1)
  | .linkTrain lanes rate ef => 0x06 :: natBytes (lanes - 1) ++ [rate.code, if ef then 1 else 0]

/-! ## The opcode table's words -/

/-- The bytes of an instruction of the opcode table whose first `nbits` bits are `w`, numbered as the table
numbers them, and whose other bits are 0: a command word goes most significant byte first (R122), a host op
code is the record's first byte. -/
def tableBytes (nbits w : Nat) : List Byte :=
  if 8 < nbits then headerBytes (BitVec.ofNat 32 w) ++ List.replicate 256 0
  else BitVec.ofNat 8 w :: List.replicate 16 0

/-- The bytes of a reply whose status nibble is the table's word: the nibble goes to bits 7:4 of the one
byte of the frame (R124). -/
def tableReplyBytes (w : Nat) : List Byte := [BitVec.ofNat 8 (16 * w)]

/-- The format and instruction of a table word.  The table gives REPLY_NACK and AUX_EXECUTE the same word, and
REPLY_DEFER and DPCD_READ: a short word is a host op code where there is one, else a reply status (log entry 5). -/
def decodeTable (nbits w : Nat) : Option (Format × Instr) :=
  if 8 < nbits then
    match decodeRequest (tableBytes nbits w) with
    | .ok (i, _) => some (.auxRequest, i)
    | .error _ => none
  else
    match decodeHostOp (tableBytes nbits w) with
    | .ok (i, _) => some (.hostOp, i)
    | .error _ =>
      match decodeReply (tableReplyBytes w) with
      | .ok (i, _) => some (.auxReply, i)
      | .error _ => none

/-- What the decoder reads from a word of the opcode table. -/
def decodeTableWord (nbits w : Nat) : Option Instr := (decodeTable nbits w).map Prod.snd

end Sys2Proof
end

