-- ==== Sys2Proof/Config.lean ====
section
/-! DEFINITION. What an implementation fixes (the parameters of R8) and the free values: the AUX channel's
oracle draws and the OPEN parameters of the reset state. -/

namespace Sys2Proof

/-- How bytes are packed in an `AUX_DATA` register (R39). -/
inductive Packing where
  | bigEndian
  | littleEndian
  deriving DecidableEq, Repr

/-- One (sideband address, data) write of `PHY_TUNING` (R212). -/
structure SbWrite where
  addr : Nat
  data : Nat
  deriving DecidableEq, Repr

/-- The parameters of R8 that are OPEN or selectable.  "The model takes the parameter as an argument":
the step takes them from a field of the state that no step changes (log entry 11). -/
structure Params where
  /-- `AUX_DATA_PACKING` -/
  packing : Packing
  /-- `CR_OVERALL_CAP` -/
  crOverallCap : Option Nat
  /-- `SETTLE_4LANE_US` -/
  settle4LaneUs : Nat
  /-- `SETTLE_EXIT_US` -/
  settleExitUs : Nat
  /-- `PHY_TUNING`: for each level a finite list of writes; a level not listed has none (R212). -/
  phyTuning : List (Level × List SbWrite)
  /-- `SB_WRITE_OPCODE` -/
  sbWriteOpcode : Nat
  /-- `SB_ADDR_WIDTH` -/
  sbAddrWidth : Nat
  /-- `SB_DATA_WIDTH` -/
  sbDataWidth : Nat
  deriving DecidableEq, Repr

namespace Config

/-- `AUX_MAX_ATTEMPTS` (R8, R169; 90_conflicts.md C1). -/
def auxMaxAttempts : Nat := 6

/-- `AUX_MIN_LEN` (R8, R161). -/
def auxMinLen : Nat := 1

/-- `AUX_MAX_LEN` (R8, R161). -/
def auxMaxLen : Nat := 16

/-- `DPCD_MAX_N` (R8, R191). -/
def dpcdMaxN : Nat := 4

/-- `CR_SAME_LEVEL_CAP` (R8, R256). -/
def crSameLevelCap : Nat := 5

/-- `EQ_ITER_CAP` (R8, R286). -/
def eqIterCap : Nat := 5

/-- `CR_FLOOR_US` (R8, R259). -/
def crFloorUs : Nat := 100

/-- `EQ_FLOOR_US` (R8, R259). -/
def eqFloorUs : Nat := 400

/-! The OPEN parameters the platform provides (R8, R344): no value is known. -/

opaque settle4LaneUs : Nat

opaque settleExitUs : Nat

opaque phyTuning : List (Level × List SbWrite)

opaque sbWriteOpcode : Nat

opaque sbAddrWidth : Nat

opaque sbDataWidth : Nat

/-- The parameters at reset: the decided defaults of R8 (`BigEndian`, no overall cap) and the OPEN ones
left free (log entry 11). -/
def params : Params where
  packing := .bigEndian
  crOverallCap := none
  settle4LaneUs := settle4LaneUs
  settleExitUs := settleExitUs
  phyTuning := phyTuning
  sbWriteOpcode := sbWriteOpcode
  sbAddrWidth := sbAddrWidth
  sbDataWidth := sbDataWidth

/-! The AUX channel's oracle (R44): the `n`-th draw's kind, status nibble, length and bytes.  "The oracle is
unconstrained: any outcome is possible at any attempt" (log entry 2). -/

opaque drawKind : Nat → Fin 3

opaque drawStatus : Nat → BitVec 4

opaque drawLen : Nat → Fin 17

opaque drawByte : Nat → Nat → Byte

/-- What the PHY's tuning register at a sideband address held when the block's run began: "any value (not block state)"
(U24, R343; log entry 12). -/
opaque phyHeld : Nat → Nat

end Config

end Sys2Proof
end

