-- ==== Sys2Proof/Machine/State.lean ====
section
/-! DEFINITION. The state as plain data, the reasons a step can stop, and the state right after reset
(10_state.md; reset values R36, R41, R42, R52, R340). -/

namespace Sys2Proof.Machine

/-! ## Results -/

/-- `Result<T, E>` (R13). -/
inductive Result (α ε : Type) where
  | ok (a : α)
  | err (e : ε)
  deriving DecidableEq, Repr

/-- `AuxError` (R300 to R302). -/
inductive AuxError where
  | invalidLength
  | noResponse
  deriving DecidableEq, Repr

/-- The errors of EPC_APPLY: `ParamError::InvalidCombination` (R303) or an `AuxError` (R218). -/
inductive EpcError where
  | invalidCombination
  | aux (e : AuxError)
  deriving DecidableEq, Repr

/-- The causes of `ClockRecoveryFailed` (R304). -/
inductive CrCause where
  | sameLevelCap
  | overallCap
  | aux (e : AuxError)
  deriving DecidableEq, Repr

/-- The causes of `EqualizationFailed` (R305). -/
inductive EqCause where
  | iterationCap
  | clockRecoveryLost
  | aux (e : AuxError)
  deriving DecidableEq, Repr

/-- `TrainingError` (R304, R305). -/
inductive TrainingError where
  | clockRecoveryFailed (cause : CrCause)
  | equalizationFailed (cause : EqCause)
  deriving DecidableEq, Repr

/-- `LinkConfig` (R52, R54). -/
structure LinkConfig where
  laneCount : LaneCount
  linkRate : LinkRate
  enhancedFraming : Bool
  maxVswingReached : Bool
  maxPreemphasisReached : Bool
  deriving DecidableEq, Repr

/-- What a host operation returns to the host (R130). -/
inductive OpResult where
  /-- of AUX_EXECUTE and of the AUX commands -/
  | auxBytes (r : Result (List Byte) AuxError)
  /-- of DPCD_READ and DPCD_READ_PROBE -/
  | value (r : Result Word AuxError)
  /-- of DPCD_WRITE -/
  | written (r : Result Unit AuxError)
  /-- of EPC_APPLY -/
  | applied (r : Result Unit EpcError)
  /-- of LINK_TRAIN -/
  | trained (r : Result Unit TrainingError) (lc : LinkConfig)
  deriving DecidableEq, Repr

/-! ## The AUX controller (R36 to R40) -/

/-- `AUX_CTL` (R36). -/
structure AuxCtl where
  busy : Bool
  done : Bool
  errTimeout : Bool
  errReceive : Bool
  replyStatus : BitVec 4
  replyLen : BitVec 5
  deriving DecidableEq, Repr

/-- What the write to `AUX_CMD` hands to the AUX channel agent: the command word and, for a write-class command,
the payload bytes (R38). -/
structure AuxRequest where
  word : Word
  payload : List Byte
  deriving DecidableEq, Repr

/-- An outcome of an attempt, as the AUX channel's oracle draws it (R44). -/
inductive AuxOutcome where
  | timeout
  | receiveError
  | reply (status : BitVec 4) (bytes : List Byte)
  deriving DecidableEq, Repr

/-- The registers of the AUX controller.  A byte of `buf` is `none` until it is written (R40). -/
structure AuxUnit where
  ctl : AuxCtl
  cmd : Word
  buf : Vector (Option Byte) 16
  inFlight : Option AuxRequest
  deriving DecidableEq, Repr

/-! ## The port control register (R41) -/

/-- `PORT_CTL.TP_SEL` (R41). -/
inductive TpSel where
  | none
  | pat1
  | pat2
  | idle
  deriving DecidableEq, Repr

/-- `PORT_CTL` (R41). -/
structure PortCtl where
  enable : Bool
  laneCount : LaneCount
  enhancedFraming : Bool
  linkRate : LinkRate
  tpSel : TpSel
  inTraining : Bool
  deriving DecidableEq, Repr

/-- One register-write event on `PORT_CTL`: the fields it changes (R11). -/
structure PortWrite where
  enable : Option Bool := none
  laneCount : Option LaneCount := none
  enhancedFraming : Option Bool := none
  linkRate : Option LinkRate := none
  tpSel : Option TpSel := none
  inTraining : Option Bool := none
  deriving DecidableEq, Repr

/-! ## The PHY sideband interface (R42) -/

/-- `SB_ADDR`, `SB_DATA` and `SB_CTL` (R42). -/
structure Sideband where
  addr : Nat
  data : Nat
  opcode : Nat
  busy : Bool
  deriving DecidableEq, Repr

/-! ## The context registers (R52) -/

/-- The LTSM state (R52, R242). -/
inductive LtsmState where
  | idle
  | clockRecovery
  | equalization
  | done
  | failed
  deriving DecidableEq, Repr

/-- The context registers of R52, but for `op_state`. -/
structure Context where
  ltsmState : LtsmState
  lc : LinkConfig
  lane : Vector Level 4
  applied : Level
  crRepeat : Nat
  crPolls : Nat
  eqIter : Nat
  rdInterval : Byte
  auxAttempt : Nat
  lastResult : Option (Option TrainingError × LinkConfig)
  deriving DecidableEq, Repr

/-! ## The engine's position

`op_state` is Idle or Busy (R52).  Busy carries where in the pseudocode of the running operation the engine
stands, with the operands it still needs (log entry 1). -/

/-- A transaction: the operands of `AuxExecute` (R162). -/
structure Txn where
  cmd : AuxCmd
  addr : Addr
  len : Nat
  payload : List Byte
  deriving DecidableEq, Repr

/-- Which call of EPC `Apply` is running (R210): the host's, or one of the LTSM's with the level it is for. -/
inductive ApplySite where
  | host
  /-- R248 -/
  | setup
  /-- R255 -/
  | crAdjust (new : Level)
  /-- R282 -/
  | eqStart
  /-- R287 -/
  | eqAdjust (new : Level)
  deriving DecidableEq, Repr

/-- Which call of `AuxExecute` is running, hence where its result goes. -/
inductive AuxSite where
  /-- AUX_EXECUTE or an AUX command (R160) -/
  | auxExecute
  /-- R190 -/
  | dpcdRead
  /-- R194 -/
  | dpcdReadProbe
  /-- R195 -/
  | dpcdWrite
  /-- the TRAINING_LANE_SET write of an `Apply` (R217) -/
  | laneSet (site : ApplySite)
  /-- the probe of TRAINING_AUX_RD_INTERVAL (R243) -/
  | rdInterval
  /-- LANE_COUNT_SET (R246) -/
  | laneCountSet
  /-- LINK_BW_SET (R246) -/
  | linkBwSet
  /-- TRAINING_PATTERN_SET, pattern 1 (R247) -/
  | pattern1
  /-- R251 -/
  | crStatus
  /-- R253 -/
  | crAdjust
  /-- TRAINING_PATTERN_SET, pattern 2 (R281) -/
  | pattern2
  /-- R283 -/
  | eqStatus
  /-- R287 -/
  | eqAdjust
  /-- the sink write of the exit actions, with the error of the exit (R268) -/
  | exitPattern (err : Option TrainingError)
  deriving DecidableEq, Repr

/-- Which `Wait` is running. -/
inductive WaitSite where
  /-- R244 -/
  | idlePulse
  /-- R250 -/
  | crPoll
  /-- R283 -/
  | eqPoll
  /-- R267, with the error of the exit -/
  | exit (err : Option TrainingError)
  deriving DecidableEq, Repr

/-- Where the engine stands. -/
inductive Position where
  /-- `await AUX_CTL.BUSY = 0` (R166) -/
  | awaitAux (txn : Txn) (site : AuxSite)
  /-- the head of the loop over `PHY_TUNING`, with the writes still to make (R210) -/
  | sideband (todo : List SbWrite) (level : Level) (lanes : LaneCount) (site : ApplySite)
  /-- `await SB_CTL.BUSY = 0`, with the writes after this one (R213) -/
  | awaitSb (todo : List SbWrite) (level : Level) (lanes : LaneCount) (site : ApplySite)
  /-- `Wait(us)` (R46) -/
  | waiting (us : Nat) (site : WaitSite)
  deriving DecidableEq, Repr

/-- `op_state` (R52). -/
inductive OpState where
  | idle
  | busy (pos : Position)
  deriving DecidableEq, Repr

/-! ## Events, inputs and outputs -/

/-- An event of the run: a register access of the engine, a wait, a step of another agent, the start or end of a
host operation (R11, R34, R44, R46, R47, R50; log entry 13). -/
inductive Event where
  /-- the host starts an operation (R47) -/
  | opStart (i : Instr)
  /-- the engine returns a result to the host (R47) -/
  | opEnd (r : OpResult)
  /-- the write of 1 to `DONE`, `ERR_TIMEOUT` and `ERR_RECEIVE` (R163) -/
  | auxCtlClear
  /-- a write of `AUX_DATA[i]` (R164) -/
  | auxDataWrite (i : Nat) (v : Word)
  /-- the write of `AUX_CMD` (R165) -/
  | auxCmdWrite (w : Word)
  /-- the AUX channel completes the attempt, which ends the await (R44, R166) -/
  | auxDone (o : AuxOutcome)
  /-- the read of `AUX_CTL` (R167) -/
  | auxCtlRead (c : AuxCtl)
  /-- a read of `AUX_DATA[i]` (R168) -/
  | auxDataRead (i : Nat)
  /-- a write of `PORT_CTL` (R11) -/
  | portWrite (w : PortWrite)
  /-- R213 -/
  | sbAddrWrite (a : Nat)
  /-- R213 -/
  | sbDataWrite (d : Nat)
  /-- R213 -/
  | sbOpcodeWrite (op : Nat)
  /-- the PHY completes the sideband write, which ends the await (R50, R213) -/
  | sbDone
  /-- a `Wait` begins (R46) -/
  | waitStart (us : Nat)
  /-- the timer ends the `Wait` (R46) -/
  | waitEnd
  deriving DecidableEq, Repr

/-- A record of the host's program: a host operation, or an AUX request frame given by its bytes (log entry 4). -/
structure HostRecord where
  format : Format
  bytes : List Byte
  deriving DecidableEq, Repr

/-- The host interface: the program still to run, the last result returned, the reset input (R31, R47, R340). -/
structure HostPort where
  program : List HostRecord
  result : Option OpResult
  reset : Bool
  deriving DecidableEq, Repr

/-- The AUX channel's side: its next outcomes, and the number of oracle draws made when none is listed
(R31, R44; log entry 2). -/
structure Channel where
  outcomes : List AuxOutcome
  draws : Nat
  deriving DecidableEq, Repr

/-- The PHY's register space, the one memory the block writes: (sideband address, data) pairs (R43, R90).  An address
not listed holds what it held when the run began (log entry 12). -/
abbrev Memory := List (Nat × Nat)

/-! ## The state -/

/-- The state of the block, with its inputs and outputs. -/
structure State where
  /-- the AUX controller's registers (R36 to R40) -/
  aux : AuxUnit
  /-- `PORT_CTL` (R41) -/
  port : PortCtl
  /-- the PHY sideband interface's registers (R42) -/
  sb : Sideband
  /-- the PHY's tuning registers, where they differ from what they held when the run began (R43) -/
  phy : Memory
  /-- the context registers (R52) -/
  ctx : Context
  /-- `op_state`, with the engine's position (R52) -/
  op : OpState
  /-- the host interface -/
  host : HostPort
  /-- the AUX channel's inputs -/
  chan : Channel
  /-- the events so far, newest first -/
  events : List Event
  /-- the parameters; no step changes them -/
  par : Params
  deriving DecidableEq, Repr

/-! ## Stopping -/

/-- The model faults (R314): states where the model has no meaning.  Each is safe: the model stops. -/
inductive Fault where
  /-- a write to `AUX_CMD` while `BUSY = 1` (R38); raised by the issue of an attempt -/
  | auxIssueWhileBusy
  /-- a rule reads a byte of `aux_buf` that nothing has written (R40); raised by the issue of a write and by the
  reading of a reply -/
  | unwrittenAuxData
  /-- LINK_TRAIN meets an illegal level (R303); raised by `Apply` when the LTSM calls it -/
  | internalIllegalLevel
  /-- a write to `SB_CTL.OPCODE` while `SB_CTL.BUSY = 1`, which R346 says is never made; raised by the sideband
  write (log entry 16) -/
  | sidebandIssueWhileBusy
  deriving DecidableEq, Repr

/-- The refusals.  Each is safe: the model stops. -/
inductive Refusal where
  /-- not modelled; raised by no meaning -/
  | notModelled (mnemonic : String)
  /-- operands or an encoding that is not well-formed (R49, R127, R130, R131); raised by the host interface -/
  | hostOperandRefused
  /-- a host operation while `op_state = Busy`, when "the host has no move" (R47); raised by the host
  operations and AUX commands (log entry 16) -/
  | hostWhileBusy
  /-- a reply while `AUX_CTL.BUSY = 0`, when the AUX channel has no step (R44); raised by the replies
  (log entry 16) -/
  | noAttemptInFlight
  /-- a reply of more than 16 bytes, which cannot be produced (R44, R128); raised by the replies (log entry 16) -/
  | replyTooLong
  deriving DecidableEq, Repr

/-! ## Reset -/

/-- Right after reset (R340, R341).  Registers whose reset value R36, R37, R41, R42 and R52 leave unspecified or
unknown hold the values of log entries 6 to 9. -/
def State.reset : State where
  aux :=
    { ctl :=
        { busy := false, done := false, errTimeout := false, errReceive := false, replyStatus := 0, replyLen := 0 }
      cmd := 0
      buf := Vector.replicate 16 none
      inFlight := none }
  port :=
    { enable := false, laneCount := .one, enhancedFraming := false, linkRate := .rbr, tpSel := .none,
      inTraining := false }
  sb := { addr := 0, data := 0, opcode := 0, busy := false }
  phy := []
  ctx :=
    { ltsmState := .idle
      lc :=
        { laneCount := .one, linkRate := .rbr, enhancedFraming := false, maxVswingReached := false,
          maxPreemphasisReached := false }
      lane := Vector.replicate 4 ⟨0, 0⟩
      applied := ⟨0, 0⟩
      crRepeat := 0
      crPolls := 0
      eqIter := 0
      rdInterval := 0
      auxAttempt := 0
      lastResult := none }
  op := .idle
  host := { program := [], result := none, reset := false }
  chan := { outcomes := [], draws := 0 }
  events := []
  par := Config.params

end Sys2Proof.Machine
end

