-- ==== Sys2Proof/Machine/Operands.lean ====
section
/-! DEFINITION. The operand forms: byte order, `AUX_DATA` packing, the DPCD field formats, levels, adjustment requests and
poll intervals (20_memory.md section 3, 30_encoding.md section 4, 43_electrical.md section 2, R259). -/

namespace Sys2Proof

/-- A level is legal when swing + pre-emphasis ≤ 3 (R15, R211). -/
def Level.legal (l : Level) : Bool := decide (l.swing.toNat + l.pre.toNat ≤ 3)

end Sys2Proof

namespace Sys2Proof.Machine

/-! ## Bytes and values -/

/-- Bytes to a number, least significant byte first (R96). -/
def leNat : List Byte → Nat
  | [] => 0
  | b :: rest => b.toNat + 256 * leNat rest

/-- The 32-bit value of a DPCD read: byte `k` becomes bits `8k+7 : 8k` (R96, R192). -/
def leValue (bytes : List Byte) : Word := BitVec.ofNat 32 (leNat bytes)

/-- The `n` bytes of a DPCD write: byte `k` is bits `8k+7 : 8k` of the value (R96, R195). -/
def leBytes (n : Nat) (v : Word) : List Byte := (List.range n).map fun k => v.extractLsb' (8 * k) 8

/-- All the values, if every one is there. -/
def allSome {α : Type} : List (Option α) → Option (List α)
  | [] => some []
  | none :: _ => none
  | some a :: rest => (allSome rest).map (a :: ·)

/-! ## `AUX_DATA` packing (R39) -/

/-- The register holding four bytes of the buffer, in buffer order. -/
def packWord (p : Packing) (b0 b1 b2 b3 : Byte) : Word :=
  match p with
  | .bigEndian => b0 ++ b1 ++ b2 ++ b3
  | .littleEndian => b3 ++ b2 ++ b1 ++ b0

/-- The four bytes of the buffer, in buffer order, of a register value. -/
def unpackWord (p : Packing) (v : Word) : List Byte :=
  match p with
  | .bigEndian => [v.extractLsb' 24 8, v.extractLsb' 16 8, v.extractLsb' 8 8, v.extractLsb' 0 8]
  | .littleEndian => [v.extractLsb' 0 8, v.extractLsb' 8 8, v.extractLsb' 16 8, v.extractLsb' 24 8]

/-- What `AUX_DATA[i]` holds, byte by byte from bits 31:24 down to bits 7:0; a byte not written since reset holds
no value (R39, R40). -/
def auxDataLanes (p : Packing) (buf : Vector (Option Byte) 16) (i : Nat) : List (Option Byte) :=
  let bytes := (buf.toList.drop (4 * i)).take 4
  match p with
  | .bigEndian => bytes
  | .littleEndian => bytes.reverse

/-- `AUX_DATA[i]` as a 32-bit value, where all four of its bytes hold a value (R39). -/
def auxData (p : Packing) (buf : Vector (Option Byte) 16) (i : Nat) : Option Word :=
  match auxDataLanes p buf i with
  | [some b3, some b2, some b1, some b0] => some (b3 ++ b2 ++ b1 ++ b0)
  | _ => none

/-- The bytes of a register read, in buffer order (R168). -/
def unpackLanes (p : Packing) (lanes : List (Option Byte)) : List (Option Byte) :=
  match p with
  | .bigEndian => lanes
  | .littleEndian => lanes.reverse

/-- The number of `AUX_DATA` registers that hold `len` bytes: `ceil(len/4)` (R164, R168). -/
def auxDataCount (len : Nat) : Nat := (len + 3) / 4

/-- The buffer with bytes stored from index `k` on; an index above 15 is no byte of the buffer. -/
def storeBytes (k : Nat) : List Byte → Vector (Option Byte) 16 → Vector (Option Byte) 16
  | [], buf => buf
  | b :: rest, buf => storeBytes (k + 1) rest (buf.setIfInBounds k (some b))

/-! ## DPCD fields -/

/-- LINK_BW_SET (R143, R246). -/
def bwCode : LinkRate → Byte
  | .rbr => 0x06
  | .hbr => 0x0A
  | .hbr2 => 0x14

/-- LANE_COUNT_SET: `lane_count | (enhanced_framing << 7)` (R142, R246). -/
def laneCountSetByte (m : LaneCount) (ef : Bool) : Byte :=
  BitVec.ofNat 8 m.toNat ||| (BitVec.ofBool ef).setWidth 8 <<< 7

/-- TRAINING_PATTERN_SET: pattern 1, scrambling disabled (R141, R247). -/
def patternSet1 : Byte := 0x21

/-- TRAINING_PATTERN_SET: pattern 2, scrambling disabled (R141, R281). -/
def patternSet2 : Byte := 0x22

/-- TRAINING_PATTERN_SET: not in training, scrambling enabled (R141, R268). -/
def patternSetNone : Byte := 0x00

/-- TRAINING_LANEx_SET: `swing | max_swing<<2 | preemphasis<<3 | max_preemphasis<<5` (R140, R217). -/
def laneSetByte (l : Level) (maxSwing maxPre : Bool) : Byte :=
  l.swing.setWidth 8 ||| (BitVec.ofBool maxSwing).setWidth 8 <<< 2 ||| l.pre.setWidth 8 <<< 3
    ||| (BitVec.ofBool maxPre).setWidth 8 <<< 5

/-- `Replicate(b, m)`: the value with byte `b` in each of its `m` bytes (R210). -/
def replicateByte (b : Byte) (m : Nat) : Word := leValue (List.replicate m b)

/-- Where lane `l`'s nibble begins in a value whose bytes are LANE0_1 and LANE2_3, in status and adjust registers
alike (R144, R146). -/
def laneNibbleAt (l : Nat) : Nat := 8 * (l / 2) + 4 * (l % 2)

/-! ## Levels -/

/-- Lane `l`'s request in an adjust read (R219): swing in bits 1:0 of its nibble, pre-emphasis in bits 3:2. -/
def requestOf (v : Word) (l : Nat) : Level :=
  ⟨v.extractLsb' (laneNibbleAt l) 2, v.extractLsb' (laneNibbleAt l + 2) 2⟩

/-- The largest of `f l` over the lanes `l < m`. -/
def maxOver (m : Nat) (f : Nat → Nat) : Nat :=
  match m with
  | 0 => 0
  | k + 1 => max (maxOver k f) (f k)

/-- `Coalesce`: the lane-wise maximum, separately for swing and pre-emphasis, over the active lanes (R221). -/
def coalesce (v : Word) (m : LaneCount) : Level :=
  ⟨BitVec.ofNat 2 (maxOver m.toNat fun l => (requestOf v l).swing.toNat),
   BitVec.ofNat 2 (maxOver m.toNat fun l => (requestOf v l).pre.toNat)⟩

/-- `Clamp(s, p) = (s, min(p, 3 - s))` (R220). -/
def clamp (l : Level) : Level := ⟨l.swing, BitVec.ofNat 2 (min l.pre.toNat (3 - l.swing.toNat))⟩

/-- The level the LTSM applies for an adjust read (R221, R254, R287). -/
def requestedLevel (v : Word) (m : LaneCount) : Level := clamp (coalesce v m)

/-- The lanes with the first `m` of them at a level (R215). -/
def setLanes (m : Nat) (l : Level) (lane : Vector Level 4) : Vector Level 4 :=
  match m with
  | 0 => lane
  | k + 1 => (setLanes k l lane).setIfInBounds k l

/-! ## Parameters and intervals -/

/-- `PHY_TUNING(swing, pre)` (R212). -/
def tuningOf (par : Params) (l : Level) : List SbWrite :=
  match par.phyTuning.find? fun e => e.1 = l with
  | some e => e.2
  | none => []

/-- The two training phases of R259. -/
inductive Phase where
  | clockRecovery
  | equalization
  deriving DecidableEq, Repr

/-- `IntervalUs(phase, v)` (R259, R147). -/
def intervalUs (phase : Phase) (v : Byte) : Nat :=
  if v.toNat = 0 then
    match phase with
    | .clockRecovery => Config.crFloorUs
    | .equalization => Config.eqFloorUs
  else if v.toNat ≤ 4 then 4000 * v.toNat
  else 16000

/-- The command word of a transaction, with `LM1 = len - 1` (R121, R129, R162). -/
def Txn.word (t : Txn) : Word := commandWord t.cmd.nibble t.addr (BitVec.ofNat 8 (t.len - 1))

/-- The frame on the wire: the header bytes, then the payload (R95, R122, R123). -/
def AuxRequest.frame (r : AuxRequest) : List Byte := headerBytes r.word ++ r.payload

/-- The error code of a result (R300); 0 is success. -/
def OpResult.code : OpResult → Nat
  | .auxBytes (.ok _) | .value (.ok _) | .written (.ok _) | .applied (.ok _) | .trained (.ok _) _ => 0
  | .auxBytes (.err .invalidLength) | .value (.err .invalidLength) | .written (.err .invalidLength)
  | .applied (.err (.aux .invalidLength)) => 1
  | .auxBytes (.err .noResponse) | .value (.err .noResponse) | .written (.err .noResponse)
  | .applied (.err (.aux .noResponse)) => 2
  | .applied (.err .invalidCombination) => 3
  | .trained (.err (.clockRecoveryFailed _)) _ => 4
  | .trained (.err (.equalizationFailed _)) _ => 5

end Sys2Proof.Machine
end

