-- ==== Sys2Proof/Machine/Flags.lean ====
section
/-! DEFINITION. The flags: write 1 to clear on `AUX_CTL`, the outcome of an attempt, the max flags, and the status tests of
the training loops (R36, R56, R163, R167, R216, R252, R285). -/

namespace Sys2Proof.Machine

/-- A write to `AUX_CTL`: `DONE` and the sticky errors clear where 1 is written, and nothing else of the written
value has an effect (R36). -/
def AuxCtl.write (w c : AuxCtl) : AuxCtl :=
  { c with
    done := c.done && !w.done
    errTimeout := c.errTimeout && !w.errTimeout
    errReceive := c.errReceive && !w.errReceive }

/-- The value the engine writes to clear before an issue: 1 to `DONE`, `ERR_TIMEOUT` and `ERR_RECEIVE` (R163). -/
def AuxCtl.clearAll : AuxCtl :=
  { busy := false, done := true, errTimeout := true, errReceive := true, replyStatus := 0, replyLen := 0 }

/-- `AUX_CTL` after the AUX channel completes an attempt (R44). -/
def AuxCtl.complete (o : AuxOutcome) (c : AuxCtl) : AuxCtl :=
  match o with
  | .timeout => { c with busy := false, done := true, errTimeout := true }
  | .receiveError => { c with busy := false, done := true, errReceive := true }
  | .reply status bytes =>
    { c with busy := false, done := true, replyStatus := status, replyLen := BitVec.ofNat 5 bytes.length }

/-- `AttemptOk(s, cmd, len)` (R167). -/
def attemptOk (c : AuxCtl) (cmd : AuxCmd) (len : Nat) : Bool :=
  c.done && !c.errTimeout && !c.errReceive && c.replyStatus == 0
    && (!cmd.isRead || decide (len ≤ c.replyLen.toNat))

/-- `max_swing_reached = swing >= 3` (R216). -/
def maxSwing (l : Level) : Bool := decide (3 ≤ l.swing.toNat)

/-- `max_preemphasis_reached = preemphasis >= 3` (R216). -/
def maxPre (l : Level) : Bool := decide (3 ≤ l.pre.toNat)

/-- `clock_recovery_done` of a lane: bit 0 of its nibble (R144). -/
def crDone (st : Word) (l : Nat) : Bool := st.getLsbD (laneNibbleAt l)

/-- `equalization_done` of a lane: bit 1 of its nibble (R144). -/
def eqDone (st : Word) (l : Nat) : Bool := st.getLsbD (laneNibbleAt l + 1)

/-- `symbol_locked` of a lane: bit 2 of its nibble (R144). -/
def symbolLocked (st : Word) (l : Nat) : Bool := st.getLsbD (laneNibbleAt l + 2)

/-- A test of every lane below `m`. -/
def allLanes (m : Nat) (f : Nat → Bool) : Bool :=
  match m with
  | 0 => true
  | k + 1 => allLanes k f && f k

/-- `AllCrDone(st, m)` (R252). -/
def allCrDone (st : Word) (m : LaneCount) : Bool := allLanes m.toNat (crDone st)

/-- `AllEqDone(st, m)` (R285). -/
def allEqDone (st : Word) (m : LaneCount) : Bool := allLanes m.toNat fun l => eqDone st l && symbolLocked st l

/-- `interlane_align_done`: bit 0 of LANE_ALIGN_STATUS_UPDATED, `st[16]` (R145, R285). -/
def alignDone (st : Word) : Bool := st.getLsbD 16

end Sys2Proof.Machine
end

