-- ==== Sys2Proof/WellFormed.lean ====
section
/-! DEFINITION. Well-formedness of operands, checked at the host interface (R131), and of the AUX frames (R123, R124). -/

namespace Sys2Proof

/-- R131 for the host operations: `len` and `n` are not checked here, nor the sum of a level; R123 for a
request frame; R124 for a reply frame. -/
def Instr.wellFormed : Instr → Bool
  | .nativeWrite _ lm1 payload => payload.length == lm1.toNat + 1
  | .nativeRead _ _ => true
  | .i2cWrite _ lm1 payload => payload.length == lm1.toNat + 1
  | .i2cRead _ _ => true
  | .i2cWriteMot _ lm1 payload => payload.length == lm1.toNat + 1
  | .i2cReadMot _ _ => true
  | .replyAck data => decide (data.length ≤ 16)
  | .replyNack data => decide (data.length ≤ 16)
  | .replyDefer data => decide (data.length ≤ 16)
  | .auxExecute cmd addr len payload =>
    match AuxCmd.ofNibble? cmd with
    | none => false
    | some c => decide (addr < 2 ^ 20) && (if c.isRead then payload.isEmpty else payload.length == len)
  | .dpcdRead addr _ => decide (addr < 2 ^ 20)
  | .dpcdReadProbe addr _ => decide (addr < 2 ^ 20)
  | .dpcdWrite addr _ value => decide (addr < 2 ^ 20) && decide (value < 2 ^ 32)
  | .epcApply swing pre lanes => decide (swing < 4) && decide (pre < 4) && (LaneCount.ofNat? lanes).isSome
  | .linkTrain lanes _ _ => (LaneCount.ofNat? lanes).isSome

end Sys2Proof
end

