-- ==== Sys2Proof/Machine/Ops.lean ====
section
/-! DEFINITION. The named operations: the event record, the registers' accesses, the start and end of a host operation, the
issue and completion of an attempt, the sideband write and its completion, waits, the reset input. -/

namespace Sys2Proof.Machine

/-- What a step or a part of one answers. -/
abbrev Out := Host.Outcome State Fault Refusal

/-! ## Events, and the start and end of a host operation -/

/-- Records an event. -/
def State.log (e : Event) (s : State) : State := { s with events := e :: s.events }

/-- Puts the engine at a position (R12; log entry 1). -/
def State.at (pos : Position) (s : State) : State := { s with op := .busy pos }

/-- "When the engine ends the operation it returns the result to the host and sets `op_state <- Idle`" (R47).  Every
operation ends here, with success or with an error: "on an error the block saves nothing and jumps nowhere" (R311). -/
def State.endOp (r : OpResult) (s : State) : State :=
  { s with op := .idle, host := { s.host with result := some r }, events := .opEnd r :: s.events }

/-- The host's step (R47): ill-formed operands are refused (R49, R131), and "while `op_state = Busy` the host has no
move"; otherwise the engine begins the operation. -/
def hostOp (i : Instr) (s : State) (body : State → Out) : Out :=
  if i.wellFormed = false then .refused .hostOperandRefused
  else
    match s.op with
    | .busy _ => .refused .hostWhileBusy
    | .idle => body (s.log (.opStart i))

/-! ## Waits -/

/-- `Wait(us)` begins: the engine holds until the timer ends it (R46). -/
def State.startWait (us : Nat) (site : WaitSite) (s : State) : State :=
  (s.log (.waitStart us)).at (.waiting us site)

/-! ## `PORT_CTL` -/

/-- `PORT_CTL` with the fields of one write changed (R11, R41). -/
def PortCtl.write (w : PortWrite) (p : PortCtl) : PortCtl where
  enable := w.enable.getD p.enable
  laneCount := w.laneCount.getD p.laneCount
  enhancedFraming := w.enhancedFraming.getD p.enhancedFraming
  linkRate := w.linkRate.getD p.linkRate
  tpSel := w.tpSel.getD p.tpSel
  inTraining := w.inTraining.getD p.inTraining

/-- One register-write event on `PORT_CTL` (R11). -/
def State.portWrite (w : PortWrite) (s : State) : State :=
  { s with port := s.port.write w, events := .portWrite w :: s.events }

/-! ## The AUX controller -/

/-- The clear before an issue (R163). -/
def State.clearAuxCtl (s : State) : State :=
  { s with
    aux := { s.aux with ctl := AuxCtl.clearAll.write s.aux.ctl }
    events := .auxCtlClear :: s.events }

/-- A write of `AUX_DATA[i]` (R39). -/
def State.writeAuxData (i : Nat) (v : Word) (s : State) : State :=
  { s with
    aux := { s.aux with buf := storeBytes (4 * i) (unpackWord s.par.packing v) s.aux.buf }
    events := .auxDataWrite i v :: s.events }

/-- `LoadPayload` from register `i` on: four bytes a register, in increasing `i`, the positions past the payload's
end written as 0x00 (R164). -/
def State.loadPayload (i : Nat) (payload : List Byte) (s : State) : State :=
  match payload with
  | [] => s
  | [b0] => s.writeAuxData i (packWord s.par.packing b0 0 0 0)
  | [b0, b1] => s.writeAuxData i (packWord s.par.packing b0 b1 0 0)
  | [b0, b1, b2] => s.writeAuxData i (packWord s.par.packing b0 b1 b2 0)
  | b0 :: b1 :: b2 :: b3 :: rest =>
    (s.writeAuxData i (packWord s.par.packing b0 b1 b2 b3)).loadPayload (i + 1) rest

/-- What a write of `w` to `AUX_CMD` hands to the AUX channel: for a write-class command the first `len` bytes of
the buffer, if each holds a value (R38, R40). -/
def requestFor (w : Word) (buf : Vector (Option Byte) 16) : Option AuxRequest :=
  match AuxCmd.ofNibble? (Word.cmd w) with
  | none => some ⟨w, []⟩
  | some c =>
    if c.isRead then some ⟨w, []⟩
    else (allSome (buf.toList.take ((Word.lm1 w).toNat + 1))).map fun bytes => ⟨w, bytes⟩

/-- The write to `AUX_CMD` (R38, R165): with `BUSY = 0` it sets `BUSY` and hands the request over; with `BUSY = 1`
it is the fault `AuxIssueWhileBusy`. -/
def issue (w : Word) (s : State) : Out :=
  if s.aux.ctl.busy then .fault .auxIssueWhileBusy
  else
    match requestFor w s.aux.buf with
    | none => .fault .unwrittenAuxData
    | some r =>
      .next
        { s with
          aux := { s.aux with ctl := { s.aux.ctl with busy := true }, cmd := w, inFlight := some r }
          events := .auxCmdWrite w :: s.events }

/-- The AUX channel's completion step: one atomic update (R44). -/
def State.complete (o : AuxOutcome) (s : State) : State :=
  { s with
    aux :=
      { s.aux with
        ctl := s.aux.ctl.complete o
        inFlight := none
        buf :=
          match o with
          | .reply _ bytes => storeBytes 0 bytes s.aux.buf
          | _ => s.aux.buf }
    events := .auxDone o :: s.events }

/-- `ReadReply(len)`: the first `len` bytes of the buffer, read through `AUX_DATA` (R168); none if one of them
holds no value (R40). -/
def State.replyBytes (len : Nat) (s : State) : Option (List Byte) :=
  allSome
    (((List.range (auxDataCount len)).flatMap fun i =>
        unpackLanes s.par.packing (auxDataLanes s.par.packing s.aux.buf i)).take len)

/-- The `AUX_DATA` reads of `ReadReply(len)`, in increasing register number (R168). -/
def State.logReplyReads (len : Nat) (s : State) : State :=
  { s with events := ((List.range (auxDataCount len)).map Event.auxDataRead).reverse ++ s.events }

/-! ## The PHY sideband and the PHY's registers -/

/-- What the PHY's register at an address the list leaves out holds: the free value of R343 and U24, in the register's
`SB_DATA_WIDTH` bits (log entry 12). -/
def phyHeldAt (width a : Nat) : Nat := Config.phyHeld a % 2 ^ width

/-- What the PHY's register at a sideband address holds: `phy[a]` (R43), with registers of `width` bits. -/
def Memory.read (width : Nat) (m : Memory) (a : Nat) : Nat :=
  match m with
  | [] => phyHeldAt width a
  | (b, d) :: rest => if a = b then d else Memory.read width rest a

/-- The list with the entry of one address put in its place, or replaced. -/
def Memory.insert (a d : Nat) : Memory → Memory
  | [] => [(a, d)]
  | (b, e) :: rest =>
    if a < b then (a, d) :: (b, e) :: rest
    else if a = b then (a, d) :: rest
    else (b, e) :: Memory.insert a d rest

/-- The PHY's registers after a write (R50): the value an unlisted address holds is not listed. -/
def Memory.write (width a d : Nat) (m : Memory) : Memory :=
  if d = phyHeldAt width a then m.filter fun p => p.1 != a else Memory.insert a d m

/-- The canonical form: strictly rising addresses, and no entry equal to what an unlisted address holds. -/
abbrev Memory.wf (width : Nat) (m : Memory) : Prop :=
  (m.Pairwise fun p q => p.1 < q.1) ∧ ∀ p ∈ m, p.2 ≠ phyHeldAt width p.1

/-- `SidebandWrite(a, d)` up to its await (R213): `SB_ADDR`, `SB_DATA`, then the write opcode, which sets `BUSY`
(R42).  The registers hold their widths' low bits (log entry 17). -/
def sidebandWrite (w : SbWrite) (s : State) : Out :=
  if s.sb.busy then .fault .sidebandIssueWhileBusy
  else
    let a := w.addr % 2 ^ s.par.sbAddrWidth
    let d := w.data % 2 ^ s.par.sbDataWidth
    .next
      { s with
        sb := { addr := a, data := d, opcode := s.par.sbWriteOpcode, busy := true }
        events := .sbOpcodeWrite s.par.sbWriteOpcode :: .sbDataWrite d :: .sbAddrWrite a :: s.events }

/-- The PHY's completion step: `phy[SB_ADDR] <- SB_DATA; SB_CTL.BUSY <- 0` (R50). -/
def State.phyComplete (s : State) : State :=
  { s with
    phy := Memory.write s.par.sbDataWidth s.sb.addr s.sb.data s.phy
    sb := { s.sb with busy := false }
    events := .sbDone :: s.events }

/-! ## The AUX channel's oracle -/

/-- The `n`-th oracle draw (R44; log entry 2). -/
def drawOutcome (n : Nat) : AuxOutcome :=
  match Config.drawKind n with
  | 0 => .timeout
  | 1 => .receiveError
  | 2 => .reply (Config.drawStatus n) ((List.range (Config.drawLen n).val).map (Config.drawByte n))

/-- The next outcome: the first listed one, else a draw. -/
def State.nextOutcome (s : State) : AuxOutcome × State :=
  match s.chan.outcomes with
  | o :: rest => (o, { s with chan := { s.chan with outcomes := rest } })
  | [] => (drawOutcome s.chan.draws, { s with chan := { s.chan with draws := s.chan.draws + 1 } })

/-! ## The reset input -/

/-- The reset input (R340 to R343): every piece of the block's state takes its reset value, an operation in progress
ends with no result, no register access or request is made, and the PHY keeps what it holds.  What belongs to the outside
stays: the host's program, the AUX channel's inputs, the parameters and the record of past events (log entry 14). -/
def State.afterReset (s : State) : State :=
  { State.reset with
    phy := s.phy
    host := { State.reset.host with program := s.host.program }
    chan := s.chan
    events := s.events
    par := s.par }

end Sys2Proof.Machine
end

