-- ==== Sys2Proof/Machine/AuxEngine.lean ====
section
/-! DEFINITION. The AUX Transaction Engine up to its await, and the meanings of AUX_EXECUTE and of the six AUX commands
(41_aux_engine.md). -/

namespace Sys2Proof.Machine

/-- The steps of an attempt before the write to `AUX_CMD` (R162): count it, clear the stale status (R163), load the
payload of a write-class command (R164). -/
def State.prepareAttempt (t : Txn) (s : State) : State :=
  let s := { s with ctx := { s.ctx with auxAttempt := s.ctx.auxAttempt + 1 } }.clearAuxCtl
  if t.cmd.isRead then s else s.loadPayload 0 t.payload

/-- One pass of the retry loop up to its await: "the whole request is retried" (R162 to R166). -/
def attempt (t : Txn) (site : AuxSite) (s : State) : Out :=
  issue t.word ((s.prepareAttempt t).at (.awaitAux t site))

/-- The transaction begins, its length already checked: `aux_attempt <- 0` and the first attempt (R162). -/
def beginTxn (t : Txn) (site : AuxSite) (s : State) : Out :=
  attempt t site { s with ctx := { s.ctx with auxAttempt := 0 } }

/-- AUX_EXECUTE (R160 to R162): the length check, then the transaction. -/
def auxTransaction (cmd : AuxCmd) (addr : Addr) (len : Nat) (payload : List Byte) (s : State) : Out :=
  if len < Config.auxMinLen ∨ Config.auxMaxLen < len then .next (s.endOp (.auxBytes (.err .invalidLength)))
  else beginTxn ⟨cmd, addr, len, payload⟩ .auxExecute s

/-- NATIVE_WRITE (R170). -/
def execNativeWrite (addr : Addr) (lm1 : Byte) (payload : List Byte) (s : State) : Out :=
  hostOp (.nativeWrite addr lm1 payload) s (auxTransaction .nativeWrite addr (lm1.toNat + 1) payload)

/-- NATIVE_READ (R171). -/
def execNativeRead (addr : Addr) (lm1 : Byte) (s : State) : Out :=
  hostOp (.nativeRead addr lm1) s (auxTransaction .nativeRead addr (lm1.toNat + 1) [])

/-- I2C_WRITE (R172). -/
def execI2cWrite (addr : Addr) (lm1 : Byte) (payload : List Byte) (s : State) : Out :=
  hostOp (.i2cWrite addr lm1 payload) s (auxTransaction .i2cWrite addr (lm1.toNat + 1) payload)

/-- I2C_READ (R173). -/
def execI2cRead (addr : Addr) (lm1 : Byte) (s : State) : Out :=
  hostOp (.i2cRead addr lm1) s (auxTransaction .i2cRead addr (lm1.toNat + 1) [])

/-- I2C_WRITE_MOT (R174). -/
def execI2cWriteMot (addr : Addr) (lm1 : Byte) (payload : List Byte) (s : State) : Out :=
  hostOp (.i2cWriteMot addr lm1 payload) s (auxTransaction .i2cWriteMot addr (lm1.toNat + 1) payload)

/-- I2C_READ_MOT (R175). -/
def execI2cReadMot (addr : Addr) (lm1 : Byte) (s : State) : Out :=
  hostOp (.i2cReadMot addr lm1) s (auxTransaction .i2cReadMot addr (lm1.toNat + 1) [])

/-- AUX_EXECUTE (R160); a reserved nibble is refused with the other operands (R127, R131). -/
def execAuxExecute (cmd : BitVec 4) (addr len : Nat) (payload : List Byte) (s : State) : Out :=
  hostOp (.auxExecute cmd addr len payload) s fun s =>
    match AuxCmd.ofNibble? cmd with
    | none => .refused .hostOperandRefused
    | some c => auxTransaction c (BitVec.ofNat 20 addr) len payload s

end Sys2Proof.Machine
end

