-- ==== Sys2Proof/Machine/DpcdAccessor.lean ====
section
/-! DEFINITION. The DPCD Accessor: `MemRead` and `MemWrite`, and the meanings of DPCD_READ, DPCD_READ_PROBE and DPCD_WRITE
(42_dpcd_accessor.md). -/

namespace Sys2Proof.Machine

/-- `MemRead(addr, n)` with `n` in 1..4, up to its await (R190, R197). -/
def memRead (addr : Addr) (n : Nat) (site : AuxSite) (s : State) : Out :=
  beginTxn ⟨.nativeRead, addr, n, []⟩ site s

/-- `MemWrite(addr, n, value)` with `n` in 1..4, up to its await (R195, R197). -/
def memWrite (addr : Addr) (n : Nat) (value : Word) (site : AuxSite) (s : State) : Out :=
  beginTxn ⟨.nativeWrite, addr, n, leBytes n value⟩ site s

/-- The byte-count check of R191. -/
def badCount (n : Nat) : Bool := decide (n < 1) || decide (Config.dpcdMaxN < n)

/-- The value of a read: the error unchanged (R193), or the bytes least significant first (R192). -/
def readValue (r : Result (List Byte) AuxError) : Result Word AuxError :=
  match r with
  | .ok bytes => .ok (leValue bytes)
  | .err e => .err e

/-- The value of a probing read: 0 for every error (R194). -/
def probeValue (r : Result (List Byte) AuxError) : Word :=
  match r with
  | .ok bytes => leValue bytes
  | .err _ => 0

/-- The result of a write: the error unchanged (R193). -/
def writeDone (r : Result (List Byte) AuxError) : Result Unit AuxError :=
  match r with
  | .ok _ => .ok ()
  | .err e => .err e

/-- DPCD_READ (R190 to R193). -/
def execDpcdRead (addr n : Nat) (s : State) : Out :=
  hostOp (.dpcdRead addr n) s fun s =>
    if badCount n then .next (s.endOp (.value (.err .invalidLength)))
    else memRead (BitVec.ofNat 20 addr) n .dpcdRead s

/-- DPCD_READ_PROBE (R194): "any `AuxError` (including `InvalidLength`) is replaced by `Ok(0)`". -/
def execDpcdReadProbe (addr n : Nat) (s : State) : Out :=
  hostOp (.dpcdReadProbe addr n) s fun s =>
    if badCount n then .next (s.endOp (.value (.ok 0)))
    else memRead (BitVec.ofNat 20 addr) n .dpcdReadProbe s

/-- DPCD_WRITE (R195): bits of `value` at `8n` and above are ignored. -/
def execDpcdWrite (addr n value : Nat) (s : State) : Out :=
  hostOp (.dpcdWrite addr n value) s fun s =>
    if badCount n then .next (s.endOp (.written (.err .invalidLength)))
    else memWrite (BitVec.ofNat 20 addr) n (BitVec.ofNat 32 value) .dpcdWrite s

end Sys2Proof.Machine
end

