-- ==== Sys2Proof/Machine/Electrical.lean ====
section
/-! DEFINITION. The Electrical Parameter Controller: `Apply` in its parts, and the meaning of EPC_APPLY (43_electrical.md). -/

namespace Sys2Proof.Machine

/-- The start of `Apply(swing, pre, lane_count)` (R210): the legality check before any write (R211), then the engine
stands at the head of the loop over `PHY_TUNING` (R212).  An illegal level ends the host's operation with
`InvalidCombination` and is a model fault inside LINK_TRAIN (R303). -/
def applyLevel (l : Level) (lanes : LaneCount) (site : ApplySite) (s : State) : Out :=
  if l.legal then .next (s.at (.sideband (tuningOf s.par l) l lanes site))
  else
    match site with
    | .host => .next (s.endOp (.applied (.err .invalidCombination)))
    | _ => .fault .internalIllegalLevel

/-- The max flags of the level applied (R216). -/
def State.setMaxFlags (l : Level) (s : State) : State :=
  { s with
    ctx :=
      { s.ctx with
        lc := { s.ctx.lc with maxVswingReached := maxSwing l, maxPreemphasisReached := maxPre l } } }

/-- "Every active lane `i < lane_count` takes the applied level" (R215). -/
def State.setLaneLevels (l : Level) (lanes : LaneCount) (s : State) : State :=
  { s with ctx := { s.ctx with lane := setLanes lanes.toNat l s.ctx.lane } }

/-- The rest of `Apply`, after every sideband write: max flags, lane levels, then the TRAINING_LANE_SET write of
`lane_count` bytes at 0x103 (R210, R214 to R217). -/
def laneSetWrite (l : Level) (lanes : LaneCount) (site : ApplySite) (s : State) : Out :=
  memWrite 0x103 lanes.toNat (replicateByte (laneSetByte l (maxSwing l) (maxPre l)) lanes.toNat) (.laneSet site)
    ((s.setMaxFlags l).setLaneLevels l lanes)

/-- The head of the loop over `PHY_TUNING`: the next sideband write, or the rest of `Apply` when none is left (R210). -/
def sidebandHead (todo : List SbWrite) (l : Level) (lanes : LaneCount) (site : ApplySite) (s : State) : Out :=
  match todo with
  | [] => laneSetWrite l lanes site s
  | w :: rest => sidebandWrite w (s.at (.awaitSb rest l lanes site))

/-- The await of a sideband write: the PHY completes it while `BUSY = 1` (R50), and the engine goes back to the head
of its loop (R213). -/
def sidebandAwait (todo : List SbWrite) (l : Level) (lanes : LaneCount) (site : ApplySite) (s : State) : State :=
  (if s.sb.busy then s.phyComplete else s).at (.sideband todo l lanes site)

/-- EPC_APPLY (R210). -/
def execEpcApply (swing pre laneCount : Nat) (s : State) : Out :=
  hostOp (.epcApply swing pre laneCount) s fun s =>
    match LaneCount.ofNat? laneCount with
    | none => .refused .hostOperandRefused
    | some m => applyLevel ⟨BitVec.ofNat 2 swing, BitVec.ofNat 2 pre⟩ m .host s

/-- The end of the host's EPC_APPLY: the error of the TRAINING_LANE_SET write unchanged (R218). -/
def epcDone (r : Result (List Byte) AuxError) : Result Unit EpcError :=
  match r with
  | .ok _ => .ok ()
  | .err e => .err (.aux e)

end Sys2Proof.Machine
end

