-- ==== Sys2Proof/Machine/LinkTraining.lean ====
section
/-! DEFINITION. The Link Training State Machine's context initialisation, setup and exit actions, and the meaning of
LINK_TRAIN (44_link_training.md sections 1, 2 and 4). -/

namespace Sys2Proof.Machine

/-! ## Exit actions -/

/-- The exit actions begin, with the error of the exit (none for `Done`): step one clears the pattern bits, then the
settle delay (R265 to R267).  Every path of LINK_TRAIN ends here (R242, R311). -/
def exitTraining (err : Option TrainingError) (s : State) : State :=
  (s.portWrite { tpSel := some .none }).startWait s.par.settleExitUs (.exit err)

/-- After the settle delay: step two, `IN_TRAINING <- 0`, then the sink's TRAINING_PATTERN_SET write (R268). -/
def exitStepTwo (err : Option TrainingError) (s : State) : Out :=
  memWrite 0x102 1 (patternSetNone.setWidth 32) (.exitPattern err) (s.portWrite { inTraining := some false })

/-- The error of the exit after its sink write: "ignored" on a `Failed` exit, `EqualizationFailed(Aux(e))` on a `Done`
exit (R269, R310). -/
def exitError (err : Option TrainingError) (r : Result (List Byte) AuxError) : Option TrainingError :=
  match err, r with
  | none, .err e => some (.equalizationFailed (.aux e))
  | err, _ => err

/-- The result value of an exit (R270). -/
def trainingResult (err : Option TrainingError) : Result Unit TrainingError :=
  match err with
  | none => .ok ()
  | some e => .err e

/-- The end of the exit actions: the terminal state, `last_result`, and the result with `lc` (R265, R270, R271). -/
def exitDone (err : Option TrainingError) (r : Result (List Byte) AuxError) (s : State) : State :=
  let err := exitError err r
  let final := if err.isNone then LtsmState.done else LtsmState.failed
  ({ s with
      ctx := { s.ctx with ltsmState := final, lastResult := some (err, s.ctx.lc) } }).endOp
    (.trained (trainingResult err) s.ctx.lc)

/-- A failed AUX access in setup or in the Clock Recovery loop (R249, R258). -/
def crAuxFail (e : AuxError) (s : State) : State := exitTraining (some (.clockRecoveryFailed (.aux e))) s

/-! ## Context and setup -/

/-- `InitContext` (R241). -/
def State.initContext (lanes : LaneCount) (rate : LinkRate) (ef : Bool) (s : State) : State :=
  { s with
    ctx :=
      { s.ctx with
        ltsmState := .idle
        lc :=
          { laneCount := lanes, linkRate := rate, enhancedFraming := ef, maxVswingReached := false,
            maxPreemphasisReached := false }
        lane := Vector.replicate 4 ⟨0, 0⟩
        applied := ⟨0, 0⟩
        crRepeat := 0
        crPolls := 0
        eqIter := 0 } }

/-- The start of `Setup`: `ltsm_state <- ClockRecovery`, then the probe of TRAINING_AUX_RD_INTERVAL (R243). -/
def setupBegin (s : State) : Out :=
  memRead 0x00E 1 .rdInterval { s with ctx := { s.ctx with ltsmState := .clockRecovery } }

/-- The port's reconfiguration in three writes (R245), then LANE_COUNT_SET (R246). -/
def setupPort (s : State) : Out :=
  let lc := s.ctx.lc
  memWrite 0x101 1 ((laneCountSetByte lc.laneCount lc.enhancedFraming).setWidth 32) .laneCountSet
    (((s.portWrite { enable := some false }).portWrite
        { laneCount := some lc.laneCount, enhancedFraming := some lc.enhancedFraming, linkRate := some lc.linkRate }).portWrite
      { tpSel := some .none, enable := some true })

/-- After the probe: `rd_interval`, 0 on failure; with four lanes the idle pulse and its settle delay, before the port
is disabled (R243, R244). -/
def setupInterval (r : Result (List Byte) AuxError) (s : State) : Out :=
  let s := { s with ctx := { s.ctx with rdInterval := (probeValue r).setWidth 8 } }
  match s.ctx.lc.laneCount with
  | .four => .next ((s.portWrite { tpSel := some .idle }).startWait s.par.settle4LaneUs .idlePulse)
  | _ => setupPort s

/-- After LANE_COUNT_SET: LINK_BW_SET (R246). -/
def setupBandwidth (r : Result (List Byte) AuxError) (s : State) : Out :=
  match r with
  | .err e => .next (crAuxFail e s)
  | .ok _ => memWrite 0x100 1 ((bwCode s.ctx.lc.linkRate).setWidth 32) .linkBwSet s

/-- After LINK_BW_SET: the source's pattern 1 and training mark, then TRAINING_PATTERN_SET (R247). -/
def setupPattern (r : Result (List Byte) AuxError) (s : State) : Out :=
  match r with
  | .err e => .next (crAuxFail e s)
  | .ok _ =>
    memWrite 0x102 1 (patternSet1.setWidth 32) .pattern1
      (s.portWrite { tpSel := some .pat1, inTraining := some true })

/-- After TRAINING_PATTERN_SET: the initial level (R248). -/
def setupLevel (r : Result (List Byte) AuxError) (s : State) : Out :=
  match r with
  | .err e => .next (crAuxFail e s)
  | .ok _ => applyLevel ⟨0, 0⟩ s.ctx.lc.laneCount .setup s

/-- LINK_TRAIN (R240 to R243). -/
def execLinkTrain (laneCount : Nat) (rate : LinkRate) (ef : Bool) (s : State) : Out :=
  hostOp (.linkTrain laneCount rate ef) s fun s =>
    match LaneCount.ofNat? laneCount with
    | none => .refused .hostOperandRefused
    | some m => setupBegin (s.initContext m rate ef)

end Sys2Proof.Machine
end

