-- ==== Sys2Proof/Machine/Equalization.lean ====
section
/-! DEFINITION. The Equalization Sub-loop in its parts (45_equalization.md). -/

namespace Sys2Proof.Machine

/-- The sub-loop ends with an error (R290). -/
def eqFail (cause : EqCause) (s : State) : State := exitTraining (some (.equalizationFailed cause)) s

/-- Entry: `ltsm_state <- Equalization`, pattern 2 on the source, then on the sink (R281). -/
def eqBegin (s : State) : Out :=
  memWrite 0x102 1 (patternSet2.setWidth 32) .pattern2
    ({ s with ctx := { s.ctx with ltsmState := .equalization } }.portWrite { tpSel := some .pat2 })

/-- After the pattern 2 write: the level reached at the end of Clock Recovery again (R282). -/
def eqReapply (r : Result (List Byte) AuxError) (s : State) : Out :=
  match r with
  | .err e => .next (eqFail (.aux e) s)
  | .ok _ => applyLevel s.ctx.applied s.ctx.lc.laneCount .eqStart s

/-- The `Wait` at the start of a poll (R283). -/
def eqWait (s : State) : State := s.startWait (intervalUs .equalization s.ctx.rdInterval) .eqPoll

/-- After the poll's `Wait`: count the poll and read the status (R283). -/
def eqPoll (s : State) : Out :=
  memRead 0x202 3 .eqStatus { s with ctx := { s.ctx with eqIter := s.ctx.eqIter + 1 } }

/-- After the status read: Clock Recovery lost, then success, then the cap, else the adjust read (R284 to R287, R309). -/
def eqCheck (r : Result (List Byte) AuxError) (s : State) : Out :=
  match r with
  | .err e => .next (eqFail (.aux e) s)
  | .ok bytes =>
    let st := leValue bytes
    if allCrDone st s.ctx.lc.laneCount = false then .next (eqFail .clockRecoveryLost s)
    else if allEqDone st s.ctx.lc.laneCount && alignDone st then .next (exitTraining none s)
    else if s.ctx.eqIter = Config.eqIterCap then .next (eqFail .iterationCap s)
    else memRead 0x206 2 .eqAdjust s

/-- After the adjust read: apply the clamped coalesced request (R287). -/
def eqAdjust (r : Result (List Byte) AuxError) (s : State) : Out :=
  match r with
  | .err e => .next (eqFail (.aux e) s)
  | .ok bytes =>
    let new := requestedLevel (leValue bytes) s.ctx.lc.laneCount
    applyLevel new s.ctx.lc.laneCount (.eqAdjust new) s

/-- After the starting re-apply: the loop begins (R290). -/
def eqStarted (r : Result (List Byte) AuxError) (s : State) : State :=
  match r with
  | .err e => eqFail (.aux e) s
  | .ok _ => eqWait { s with ctx := { s.ctx with eqIter := 0 } }

/-- After a re-apply in the loop: `applied <- new` and the next poll (R287). -/
def eqAdjusted (new : Level) (r : Result (List Byte) AuxError) (s : State) : State :=
  match r with
  | .err e => eqFail (.aux e) s
  | .ok _ => eqWait { s with ctx := { s.ctx with applied := new } }

end Sys2Proof.Machine
end

