-- ==== Sys2Proof/Machine/ClockRecovery.lean ====
section
/-! DEFINITION. The Clock Recovery loop in its parts (44_link_training.md section 3). -/

namespace Sys2Proof.Machine

/-- The `Wait` at the start of a poll (R250). -/
def crWait (s : State) : State := s.startWait (intervalUs .clockRecovery s.ctx.rdInterval) .crPoll

/-- After the initial level is applied: `applied <- (0, 0)` and the loop begins (R243, R249, R250). -/
def setupDone (r : Result (List Byte) AuxError) (s : State) : State :=
  match r with
  | .err e => crAuxFail e s
  | .ok _ => crWait { s with ctx := { s.ctx with applied := ⟨0, 0⟩ } }

/-- After the poll's `Wait`: count the poll and read the status (R250, R251). -/
def crPoll (s : State) : Out :=
  memRead 0x202 2 .crStatus { s with ctx := { s.ctx with crPolls := s.ctx.crPolls + 1 } }

/-- After the status read: the gate to Equalization, else the adjust read (R252, R253). -/
def crCheck (r : Result (List Byte) AuxError) (s : State) : Out :=
  match r with
  | .err e => .next (crAuxFail e s)
  | .ok bytes => if allCrDone (leValue bytes) s.ctx.lc.laneCount then eqBegin s else memRead 0x206 2 .crAdjust s

/-- After the adjust read: apply the clamped coalesced request, even when it is the level already applied (R254, R255). -/
def crAdjust (r : Result (List Byte) AuxError) (s : State) : Out :=
  match r with
  | .err e => .next (crAuxFail e s)
  | .ok bytes =>
    let new := requestedLevel (leValue bytes) s.ctx.lc.laneCount
    applyLevel new s.ctx.lc.laneCount (.crAdjust new) s

/-- The same-level counter after a re-apply: one more if the level is the one applied before, else 0 (R256). -/
def nextRepeat (new prev : Level) (count : Nat) : Nat := if new = prev then count + 1 else 0

/-- Whether the overall cap ends the loop after this many polls (R257), tested where R250 tests it, after a poll's re-apply.
DESIGN CHOICE for a cap of 0: R353 says at most 0 polls, and by R250 one is made (log entry 26). -/
def overallCapReached (cap : Option Nat) (polls : Nat) : Bool :=
  match cap with
  | none => false
  | some n => decide (n ≤ polls)

/-- After a re-apply: `applied <- new`, the same-level counter and its cap, then the overall cap, else the next poll
(R255 to R258, R309; a cap of 0: log entry 26, DESIGN CHOICE). -/
def crAdjusted (new : Level) (r : Result (List Byte) AuxError) (s : State) : State :=
  match r with
  | .err e => crAuxFail e s
  | .ok _ =>
    let count := nextRepeat new s.ctx.applied s.ctx.crRepeat
    let s := { s with ctx := { s.ctx with applied := new, crRepeat := count } }
    if count = Config.crSameLevelCap then exitTraining (some (.clockRecoveryFailed .sameLevelCap)) s
    else if overallCapReached s.par.crOverallCap s.ctx.crPolls then
      exitTraining (some (.clockRecoveryFailed .overallCap)) s
    else crWait s

end Sys2Proof.Machine
end

