-- ==== Sys2Proof/Machine/Engine.lean ====
section
/-! DEFINITION. What the engine does when an await or a `Wait` ends: the outcome of an attempt, where a transaction's result
goes, and the AUX channel's answer (R44, R166 to R169). -/

namespace Sys2Proof.Machine

/-- The TRAINING_LANE_SET write of an `Apply` ends, hence the `Apply` (R210). -/
def applyDone (site : ApplySite) (r : Result (List Byte) AuxError) (s : State) : State :=
  match site with
  | .host => s.endOp (.applied (epcDone r))
  | .setup => setupDone r s
  | .crAdjust new => crAdjusted new r s
  | .eqStart => eqStarted r s
  | .eqAdjust new => eqAdjusted new r s

/-- A transaction's result goes to the call that began it. -/
def deliver (site : AuxSite) (r : Result (List Byte) AuxError) (s : State) : Out :=
  match site with
  | .auxExecute => .next (s.endOp (.auxBytes r))
  | .dpcdRead => .next (s.endOp (.value (readValue r)))
  | .dpcdReadProbe => .next (s.endOp (.value (.ok (probeValue r))))
  | .dpcdWrite => .next (s.endOp (.written (writeDone r)))
  | .laneSet site => .next (applyDone site r s)
  | .rdInterval => setupInterval r s
  | .laneCountSet => setupBandwidth r s
  | .linkBwSet => setupPattern r s
  | .pattern1 => setupLevel r s
  | .crStatus => crCheck r s
  | .crAdjust => crAdjust r s
  | .pattern2 => eqReapply r s
  | .eqStatus => eqCheck r s
  | .eqAdjust => eqAdjust r s
  | .exitPattern err => .next (exitDone err r s)

/-- After `BUSY = 0`: read `AUX_CTL` once; a success ends the transaction, with the reply's bytes for a read (R167,
R168); a failed attempt is retried up to 6 attempts in all, then `NoResponse` (R169). -/
def verdict (t : Txn) (site : AuxSite) (s : State) : Out :=
  let c := s.aux.ctl
  let s := s.log (.auxCtlRead c)
  if attemptOk c t.cmd t.len then
    if t.cmd.isRead then
      match s.replyBytes t.len with
      | none => .fault .unwrittenAuxData
      | some bytes => deliver site (.ok bytes) (s.logReplyReads t.len)
    else deliver site (.ok []) s
  else if s.ctx.auxAttempt < Config.auxMaxAttempts then attempt t site s
  else deliver site (.err .noResponse) s

/-- The engine goes on, if it awaits `BUSY = 0`. -/
def resume (s : State) : Out :=
  match s.op with
  | .busy (.awaitAux t site) => verdict t site s
  | _ => .next s

/-- Whether the AUX channel can produce an outcome: a reply has at most 16 bytes (R44, R128). -/
def AuxOutcome.possible : AuxOutcome → Bool
  | .timeout | .receiveError => true
  | .reply _ bytes => decide (bytes.length ≤ 16)

/-- The AUX channel's step with an outcome (R44), enabled while `BUSY = 1`, and the engine's reaction to it. -/
def answer (o : AuxOutcome) (s : State) : Out :=
  if o.possible = false then .refused .replyTooLong
  else if s.aux.ctl.busy then resume (s.complete o)
  else .refused .noAttemptInFlight

/-- REPLY_ACK (R176). -/
def execReplyAck (data : List Byte) (s : State) : Out := answer (.reply 0 data) s

/-- REPLY_NACK (R177). -/
def execReplyNack (data : List Byte) (s : State) : Out := answer (.reply 1 data) s

/-- REPLY_DEFER (R178). -/
def execReplyDefer (data : List Byte) (s : State) : Out := answer (.reply 2 data) s

/-- The timer ends a `Wait` and the engine goes on (R46). -/
def timerStep (site : WaitSite) (s : State) : Out :=
  let s := s.log .waitEnd
  match site with
  | .idlePulse => setupPort s
  | .crPoll => crPoll s
  | .eqPoll => eqPoll s
  | .exit err => exitStepTwo err s

end Sys2Proof.Machine
end

