-- ==== Sys2Proof/Machine/Dispatch.lean ====
section
/-! DEFINITION. One arm per instruction of the opcode table, in the table's order. -/

namespace Sys2Proof.Machine

def exec (i : Instr) (s : State) : Host.Outcome State Fault Refusal :=
  match i with
  | .nativeWrite addr lm1 payload => Sys2Proof.Machine.execNativeWrite addr lm1 payload s
  | .nativeRead addr lm1 => Sys2Proof.Machine.execNativeRead addr lm1 s
  | .i2cWrite addr lm1 payload => Sys2Proof.Machine.execI2cWrite addr lm1 payload s
  | .i2cRead addr lm1 => Sys2Proof.Machine.execI2cRead addr lm1 s
  | .i2cWriteMot addr lm1 payload => Sys2Proof.Machine.execI2cWriteMot addr lm1 payload s
  | .i2cReadMot addr lm1 => Sys2Proof.Machine.execI2cReadMot addr lm1 s
  | .replyAck data => Sys2Proof.Machine.execReplyAck data s
  | .replyNack data => Sys2Proof.Machine.execReplyNack data s
  | .replyDefer data => Sys2Proof.Machine.execReplyDefer data s
  | .auxExecute cmd addr len payload => Sys2Proof.Machine.execAuxExecute cmd addr len payload s
  | .dpcdRead addr n => Sys2Proof.Machine.execDpcdRead addr n s
  | .dpcdReadProbe addr n => Sys2Proof.Machine.execDpcdReadProbe addr n s
  | .dpcdWrite addr n value => Sys2Proof.Machine.execDpcdWrite addr n value s
  | .epcApply swing pre laneCount => Sys2Proof.Machine.execEpcApply swing pre laneCount s
  | .linkTrain laneCount rate ef => Sys2Proof.Machine.execLinkTrain laneCount rate ef s

end Sys2Proof.Machine
end

