-- ==== Sys2Proof/Machine/Agents.lean ====
section
/-! DEFINITION. The agents' steps: the host's, the AUX channel's, and the engine's with the PHY and the timer (10_state.md
R30, R44 to R51), and the placing of a word of the opcode table where the next step takes it. -/

namespace Sys2Proof.Machine

/-- The host's step (R47): it starts the next operation of its program; with none left the block waits (R341).  A record
that is no operation is refused (R49, R130). -/
def hostStep (s : State) : Out :=
  match s.host.program with
  | [] => .next s
  | r :: rest =>
    match decodeWhole r.format r.bytes with
    | .error _ => .refused .hostOperandRefused
    | .ok i => exec i { s with host := { s.host with program := rest } }

/-- The AUX channel's step (R44): the next outcome; a reply with a named status is that row of the opcode table (R125),
any other outcome is a failed attempt (R167, R179). -/
def channelStep (s : State) : Out :=
  match s.nextOutcome with
  | (.reply status data, s) =>
    match replyInstr? status data with
    | some i => exec i s
    | none => answer (.reply status data) s
  | (o, s) => answer o s

/-- The step of the agent that can move while an operation runs: at an await the AUX channel or the PHY while the busy
bit is 1, at a `Wait` the timer, else the engine (R51). -/
def busyStep (pos : Position) (s : State) : Out :=
  match pos with
  | .awaitAux t site => if s.aux.ctl.busy then channelStep s else verdict t site s
  | .sideband todo l lanes site => sidebandHead todo l lanes site s
  | .awaitSb todo l lanes site => .next (sidebandAwait todo l lanes site s)
  | .waiting _ site => timerStep site s

/-- The state with a record placed as the host's next operation. -/
def placeRecord (f : Format) (bytes : List Byte) (s : State) : State :=
  { s with op := .idle, host := { s.host with program := ⟨f, bytes⟩ :: s.host.program, reset := false } }

/-- A write of one byte to DPCD address 0 in flight, for a reply to answer (log entry 5). -/
def placedTxn : Txn := ⟨.nativeWrite, 0, 1, [0]⟩

/-- The state with a reply placed as the AUX channel's next outcome, to an attempt in flight: the one `s` awaits, else
`placedTxn`'s (log entry 5). -/
def placeReply (status : BitVec 4) (data : List Byte) (s : State) : State :=
  { s with
    op :=
      match s.op with
      | .busy (.awaitAux t site) => .busy (.awaitAux t site)
      | _ => .busy (.awaitAux placedTxn .auxExecute)
    aux := { s.aux with ctl := { s.aux.ctl with busy := true } }
    host := { s.host with reset := false }
    chan := { s.chan with outcomes := .reply status data :: s.chan.outcomes } }

/-- The record of a table word: the table's bytes, cut to the instruction's own. -/
def recordOf (f : Format) (bytes : List Byte) : List Byte :=
  match decode f bytes with
  | .ok (_, rest) => bytes.take (bytes.length - rest.length)
  | .error _ => bytes

/-- `s` with a word of the opcode table placed where the next step takes its instruction: a command word or a host
operation at the head of the host's program, a reply at the head of the AUX channel's outcomes. -/
def placeTableWord (nbits w : Nat) (s : State) : State :=
  match decodeTable nbits w with
  | some (.auxReply, .replyAck data) => placeReply 0 data s
  | some (.auxReply, .replyNack data) => placeReply 1 data s
  | some (.auxReply, .replyDefer data) => placeReply 2 data s
  | some (f, _) => placeRecord f (recordOf f (tableBytes nbits w)) s
  | none => placeRecord (if 8 < nbits then .auxRequest else .hostOp) (tableBytes nbits w) s

end Sys2Proof.Machine
end

