-- ==== Sys2Proof/Machine/Step.lean ====
section
/-! DEFINITION. One step of the machine: the reset input, else the one agent that can move (10_state.md sections 1 and 3). -/

namespace Sys2Proof.Machine

/-- One step.  While `op_state = Idle` the host can move, while Busy one of the other agents (R47, R51). -/
def step (s : State) : Host.Outcome State Fault Refusal :=
  if s.host.reset then .next s.afterReset
  else
    match s.op with
    | .idle => hostStep s
    | .busy pos => busyStep pos s

/-- `s` with the instruction of an opcode-table word placed so that the next step runs it (log entry 5). -/
def State.withFetchWord (s : State) (nbits w : Nat) : State := placeTableWord nbits w s

end Sys2Proof.Machine
end

