-- ==== Sys2Proof/Safety.lean ====
section
/-! DEFINITION. The terms the claims use: runs, an attempt in flight, what an operation leaves unchanged, the invariant of the
machine, and the store sink of 95_test_vectors.md section 2. -/

namespace Sys2Proof.Machine

/-! ## Runs -/

/-- `n` steps, stopping at the first fault or refusal. -/
def run : Nat → State → Out
  | 0, s => .next s
  | n + 1, s =>
    match step s with
    | .next t => run n t
    | .fault f => .fault f
    | .refused r => .refused r

/-! ## Attempts -/

/-- The transaction's operands are those the engine may send: 1 to 16 bytes, a payload exactly for a write-class
command (R120, R129, R131). -/
def Txn.Ok (t : Txn) : Prop :=
  1 ≤ t.len ∧ t.len ≤ 16 ∧ (if t.cmd.isRead then t.payload = [] else t.payload.length = t.len)

/-- The attempt of a transaction is in flight: the engine awaits it, `BUSY = 1`, the sticky bits are clear, `AUX_CMD` holds
the command word, and the AUX channel has been handed the word and the payload (R38, R162 to R166). -/
def InFlight (txn : Txn) (site : AuxSite) (s : State) : Prop :=
  s.op = .busy (.awaitAux txn site) ∧ s.aux.ctl.busy = true ∧ s.aux.ctl.done = false
    ∧ s.aux.ctl.errTimeout = false ∧ s.aux.ctl.errReceive = false
    ∧ s.aux.cmd = commandWord txn.cmd.nibble txn.addr (BitVec.ofNat 8 (txn.len - 1))
    ∧ s.aux.inFlight = some ⟨s.aux.cmd, txn.payload⟩

/-- Whether an outcome makes the attempt fail: anything but an ACK that carries the bytes a read asks for (R167). -/
def AuxOutcome.fails (o : AuxOutcome) (cmd : AuxCmd) (len : Nat) : Bool :=
  match o with
  | .timeout | .receiveError => true
  | .reply status bytes => status != 0 || (cmd.isRead && decide (bytes.length < len))

/-- What a successful transaction returns: the first `len` bytes of the reply for a read, nothing for a write (R160, R168). -/
def txnResult (t : Txn) (bytes : List Byte) : List Byte := if t.cmd.isRead then bytes.take t.len else []

/-- The transaction awaits its attempt's outcome, the sticky bits clear. -/
def Awaiting (txn : Txn) (site : AuxSite) (s : State) : Prop :=
  s.op = .busy (.awaitAux txn site) ∧ s.aux.ctl.busy = true ∧ s.aux.ctl.errTimeout = false ∧ s.aux.ctl.errReceive = false

/-- The AUX channel's answer gives the next state `u`, and so does `exec` of the answer's row where its status has a name
(R44, R125). -/
def AnswerGives (o : AuxOutcome) (s u : State) : Prop :=
  answer o s = .next u
    ∧ ∀ data, (o = .reply 0 data → exec (.replyAck data) s = .next u)
      ∧ (o = .reply 1 data → exec (.replyNack data) s = .next u)
      ∧ (o = .reply 2 data → exec (.replyDefer data) s = .next u)

/-- The transaction of a DPCD read (R190). -/
def readTxn (a : Addr) (n : Nat) : Txn := ⟨.nativeRead, a, n, []⟩

/-- The transaction of a one-byte DPCD write (R195). -/
def byteWriteTxn (a : Addr) (b : Byte) : Txn := ⟨.nativeWrite, a, 1, [b]⟩

/-- The number of writes to `AUX_CMD` in a record of events, hence of attempts (95_test_vectors.md section 4). -/
def cmdWrites : List Event → Nat
  | [] => 0
  | .auxCmdWrite _ :: rest => cmdWrites rest + 1
  | _ :: rest => cmdWrites rest

/-- Whether an event is a write of `PORT_CTL`. -/
def Event.isPortWrite : Event → Bool
  | .portWrite _ => true
  | _ => false

/-! ## Frames -/

/-- Nothing outside the AUX controller, `aux_attempt`, `op_state`, the host interface and the event record differs (R180). -/
def SameButAux (s t : State) : Prop :=
  t.port = s.port ∧ t.sb = s.sb ∧ t.phy = s.phy ∧ t.par = s.par
    ∧ t.ctx = { s.ctx with auxAttempt := t.ctx.auxAttempt }

/-- The host interface and the AUX channel's inputs are the same. -/
def SameInputs (s t : State) : Prop := t.host = s.host ∧ t.chan = s.chan

/-- Nothing but the AUX controller and the event record differs, and `AUX_CTL` and the buffer are those the AUX channel's
reply left: `BUSY` clear, `DONE` set, the reply's status, length and bytes (R44). -/
def ReplyTaken (status : BitVec 4) (data : List Byte) (s t : State) : Prop :=
  t.aux.ctl = ⟨false, true, s.aux.ctl.errTimeout, s.aux.ctl.errReceive, status, BitVec.ofNat 5 data.length⟩
    ∧ t.aux.buf.toList = data.map some ++ s.aux.buf.toList.drop data.length
    ∧ t.aux.cmd = s.aux.cmd ∧ t.aux.inFlight = none

/-- The exit actions have begun with this error: the pattern bits are clear and the settle delay runs (R266, R267); the
rest of the port, the context, the sideband and the PHY are as before. -/
def ExitBegun (err : Option TrainingError) (s t : State) : Prop :=
  t.op = .busy (.waiting s.par.settleExitUs (.exit err)) ∧ t.port = { s.port with tpSel := .none }
    ∧ t.sb = s.sb ∧ t.phy = s.phy
    ∧ ∃ past, t.events = .waitStart s.par.settleExitUs :: .portWrite { tpSel := some .none } :: past

/-- The state `s` after an operation that did nothing but start and return a result. -/
def onlyReturned (i : Instr) (r : OpResult) (s : State) : State :=
  { s with
    op := .idle
    host := { s.host with result := some r }
    events := .opEnd r :: .opStart i :: s.events }

/-! ## The invariant (R53, R312, R346) -/

/-- The LTSM is in no phase of a training: `Idle`, `Done` or `Failed` (R242, R271). -/
def LtsmState.settled (l : LtsmState) : Bool :=
  match l with
  | .idle | .done | .failed => true
  | .clockRecovery | .equalization => false

/-- All active lanes hold the same level (R53). -/
def LanesEqual (c : Context) : Prop := ∀ i j : Fin 4, i.val < c.lc.laneCount.toNat → j.val < c.lc.laneCount.toNat →
  c.lane[i] = c.lane[j]

/-- The port as LINK_TRAIN leaves it: enabled, no pattern, not in training (R312). -/
def PortQuiet (p : PortCtl) : Prop := p.enable = true ∧ p.tpSel = .none ∧ p.inTraining = false

/-- No LINK_TRAIN runs: the LTSM is settled, and after a training the port is quiet (R271, R312). -/
def HostPhase (s : State) : Prop :=
  s.ctx.ltsmState.settled = true ∧ (s.ctx.ltsmState ≠ .idle → PortQuiet s.port)

/-- A part of Clock Recovery after the port's reconfiguration: the same-level cap is not reached (R256). -/
def CrPhase (s : State) : Prop :=
  s.ctx.ltsmState = .clockRecovery ∧ LanesEqual s.ctx ∧ s.port.enable = true ∧ s.ctx.crRepeat < Config.crSameLevelCap

/-- A part of Equalization (R281). -/
def EqPhase (s : State) : Prop :=
  s.ctx.ltsmState = .equalization ∧ LanesEqual s.ctx ∧ s.port.enable = true

/-- The phase in which an exit with this error begins: success and `EqualizationFailed` end Equalization, while
`ClockRecoveryFailed` ends setup or Clock Recovery (R242, R304 to R306). -/
def exitFrom (err : Option TrainingError) : LtsmState :=
  match err with
  | none | some (.equalizationFailed _) => .equalization
  | some (.clockRecoveryFailed _) => .clockRecovery

/-- The exit actions after step one: the pattern bits are clear, and the LTSM is still in the phase that ended (R265, R266). -/
def ExitPhase (err : Option TrainingError) (s : State) : Prop :=
  s.ctx.ltsmState = exitFrom err ∧ LanesEqual s.ctx ∧ s.port.enable = true ∧ s.port.tpSel = .none

/-- What holds while an `Apply` of this call runs, with this level. -/
def ApplyOk (s : State) (l : Level) (lanes : LaneCount) : ApplySite → Prop
  | .host => HostPhase s
  | .setup => CrPhase s ∧ lanes = s.ctx.lc.laneCount
  | .crAdjust new => CrPhase s ∧ lanes = s.ctx.lc.laneCount ∧ new = l
  | .eqStart => EqPhase s ∧ lanes = s.ctx.lc.laneCount
  | .eqAdjust new => EqPhase s ∧ lanes = s.ctx.lc.laneCount ∧ new = l ∧ s.ctx.eqIter < Config.eqIterCap

/-- What holds while the TRAINING_LANE_SET write of this call is in flight. -/
def LaneSetOk (s : State) : ApplySite → Prop
  | .host => HostPhase s
  | .setup => CrPhase s
  | .crAdjust new => CrPhase s ∧ new.legal = true
  | .eqStart => EqPhase s
  | .eqAdjust new => EqPhase s ∧ new.legal = true ∧ s.ctx.eqIter < Config.eqIterCap

/-- What holds while the transaction of this call is in flight. -/
def AuxSiteOk (s : State) : AuxSite → Prop
  | .auxExecute | .dpcdRead | .dpcdReadProbe | .dpcdWrite => HostPhase s
  | .laneSet site => LaneSetOk s site
  | .rdInterval => s.ctx.ltsmState = .clockRecovery ∧ LanesEqual s.ctx ∧ s.ctx.crRepeat < Config.crSameLevelCap
  | .laneCountSet | .linkBwSet | .pattern1 | .crStatus | .crAdjust => CrPhase s
  | .pattern2 => EqPhase s
  | .eqStatus => EqPhase s
  | .eqAdjust => EqPhase s ∧ s.ctx.eqIter < Config.eqIterCap
  | .exitPattern err => ExitPhase err s ∧ s.port.inTraining = false

/-- The transaction each call of the DPCD Accessor makes: its command, its address and its length (R194, R217, R243,
R246, R247, R251, R253, R268, R281, R283, R287). -/
def siteTxnOk (t : Txn) (lc : LinkConfig) : AuxSite → Prop
  | .auxExecute => True
  | .dpcdRead | .dpcdReadProbe => t.cmd = .nativeRead ∧ t.len ≤ 4
  | .dpcdWrite => t.cmd = .nativeWrite ∧ t.len ≤ 4
  | .laneSet .host => t.cmd = .nativeWrite ∧ t.addr = 0x103 ∧ t.len ≤ 4
  | .laneSet _ => t.cmd = .nativeWrite ∧ t.addr = 0x103 ∧ t.len = lc.laneCount.toNat
  | .rdInterval => t = readTxn 0x00E 1
  | .laneCountSet => t = byteWriteTxn 0x101 (laneCountSetByte lc.laneCount lc.enhancedFraming)
  | .linkBwSet => t = byteWriteTxn 0x100 (bwCode lc.linkRate)
  | .pattern1 => t = byteWriteTxn 0x102 0x21
  | .crStatus => t = readTxn 0x202 2
  | .pattern2 => t = byteWriteTxn 0x102 0x22
  | .eqStatus => t = readTxn 0x202 3
  | .crAdjust | .eqAdjust => t = readTxn 0x206 2
  | .exitPattern _ => t = byteWriteTxn 0x102 0x00

/-- What holds during this `Wait`. -/
def WaitOk (s : State) : WaitSite → Prop
  | .idlePulse => s.ctx.ltsmState = .clockRecovery ∧ LanesEqual s.ctx ∧ s.ctx.crRepeat < Config.crSameLevelCap
  | .crPoll => CrPhase s
  | .eqPoll => EqPhase s ∧ s.ctx.eqIter < Config.eqIterCap
  | .exit err => ExitPhase err s

/-- No attempt is in flight. -/
def AuxQuiet (s : State) : Prop := s.aux.ctl.busy = false ∧ s.aux.inFlight = none

/-- What holds at this place of the engine: which busy bit is set, and the phase. -/
def PositionOk (s : State) : OpState → Prop
  | .idle => AuxQuiet s ∧ s.sb.busy = false ∧ HostPhase s
  | .busy (.awaitAux t site) =>
    t.Ok ∧ InFlight t site s ∧ s.sb.busy = false ∧ 1 ≤ s.ctx.auxAttempt ∧ AuxSiteOk s site ∧ siteTxnOk t s.ctx.lc site
  | .busy (.sideband _ l lanes site) => AuxQuiet s ∧ s.sb.busy = false ∧ l.legal = true ∧ ApplyOk s l lanes site
  | .busy (.awaitSb _ l lanes site) => AuxQuiet s ∧ s.sb.busy = true ∧ l.legal = true ∧ ApplyOk s l lanes site
  | .busy (.waiting _ site) => AuxQuiet s ∧ s.sb.busy = false ∧ WaitOk s site

/-- The levels are legal (R53). -/
def LevelsLegal (c : Context) : Prop := (∀ i : Fin 4, c.lane[i].legal = true) ∧ c.applied.legal = true

/-- The counters keep their ranges (R52, R53, R353). -/
def CountersBounded (c : Context) : Prop :=
  c.crRepeat ≤ Config.crSameLevelCap ∧ c.eqIter ≤ Config.eqIterCap ∧ c.auxAttempt ≤ Config.auxMaxAttempts

/-- At most one of the max flags is set (R216). -/
def FlagsExclusive (c : LinkConfig) : Prop := ¬(c.maxVswingReached = true ∧ c.maxPreemphasisReached = true)

/-- The invariant: the PHY's registers in canonical form, legal levels, bounded counters, exclusive max flags, and
what holds where the engine stands. -/
structure Inv (s : State) : Prop where
  memory : Memory.wf s.par.sbDataWidth s.phy
  levels : LevelsLegal s.ctx
  counters : CountersBounded s.ctx
  flags : FlagsExclusive s.ctx.lc
  position : PositionOk s s.op

/-! ## The store sink (95_test_vectors.md section 2) -/

/-- The sink's DPCD bytes, the last stored first; a byte never stored is 0x00.  They are the sink's, not the block's (R31). -/
abbrev SinkMem := List Host.Cell

/-- A byte of the sink. -/
def sinkByte (m : SinkMem) (a : Nat) : Byte :=
  match m with
  | [] => 0
  | (b, v) :: rest => if a = b then v else sinkByte rest a

/-- The sink after storing bytes from an address on: byte `k` at `addr + k`.  What a request past 0xFFFFF does is the sink's
to choose (R91, U8), and its vectors never cross there; that this sink then goes on at 0x100000, without wrapping, is the
model's choice (log entry 25). -/
def sinkStore (m : SinkMem) (a : Nat) : List Byte → SinkMem
  | [] => m
  | b :: rest => (a, b) :: sinkStore m (a + 1) rest

/-- The sink after a request: a NATIVE_WRITE stores its payload.  That another request stores nothing is the model's choice
(log entry 27, DESIGN CHOICE). -/
def storeSinkAfter (m : SinkMem) (r : AuxRequest) : SinkMem :=
  if Word.cmd r.word = AuxCmd.nativeWrite.nibble then sinkStore m (Word.addr r.word).toNat r.payload else m

/-- The sink's answer: it ACKs every native request, a read with the bytes it holds (R198).  A read past 0xFFFFF goes on at
0x100000 as a store does, the model's choice (log entry 25).  That it NACKs a request that is not native, for which
95_test_vectors.md gives its store sink no answer, is the model's choice (log entry 27, DESIGN CHOICE); no DPCD operation sends
one. -/
def storeSinkAnswer (m : SinkMem) (r : AuxRequest) : AuxOutcome :=
  if Word.cmd r.word = AuxCmd.nativeWrite.nibble then .reply 0 []
  else if Word.cmd r.word = AuxCmd.nativeRead.nibble then
    .reply 0 ((List.range ((Word.lm1 r.word).toNat + 1)).map fun k => sinkByte m ((Word.addr r.word).toNat + k))
  else .reply 1 []

/-- One step with the store sink behind the AUX channel: a request in flight gets the sink's answer. -/
def stepWithSink (m : SinkMem) (s : State) : SinkMem × Out :=
  match s.aux.inFlight with
  | none => (m, step s)
  | some r => (storeSinkAfter m r, step { s with chan := { s.chan with outcomes := storeSinkAnswer m r :: s.chan.outcomes } })

/-- `n` steps with the store sink. -/
def runWithSink : Nat → SinkMem → State → SinkMem × Out
  | 0, m, s => (m, .next s)
  | n + 1, m, s =>
    match stepWithSink m s with
    | (m', .next t) => runWithSink n m' t
    | stop => stop

end Sys2Proof.Machine
end

