-- ==== Sys2Proof/Certificates/Slice0/Obligations.lean ====
section
/-! DEFINITION. The statements for the provers. -/

open Sys2Proof Sys2Proof.Machine

/-! ## Encodings -/

/-- Words written out from R121, R122, R124, R126 and R130 decode to the instructions they stand for.  The layout of a host
record's operands is the model's choice (log entry 3). -/
def Obligations.ManualWordsDecode : Prop :=
  decodeTableWord 32 0x80010100 = some (.nativeWrite 0x00101 0x00 [0x00])
    ∧ decodeTableWord 32 0x90020201 = some (.nativeRead 0x00202 0x01)
    ∧ decodeTableWord 32 0x00005000 = some (.i2cWrite 0x00050 0x00 [0x00])
    ∧ decodeTableWord 32 0x1000500F = some (.i2cRead 0x00050 0x0F)
    ∧ decodeTableWord 32 0x40005000 = some (.i2cWriteMot 0x00050 0x00 [0x00])
    ∧ decodeTableWord 32 0x50005000 = some (.i2cReadMot 0x00050 0x00)
    ∧ decodeWhole .auxRequest [0x80, 0x01, 0x00, 0x00, 0x0A] = .ok (.nativeWrite 0x00100 0x00 [0x0A])
    ∧ decodeWhole .auxReply [0x00, 0x11, 0x01] = .ok (.replyAck [0x11, 0x01])
    ∧ decodeWhole .auxReply [0x10] = .ok (.replyNack [])
    ∧ decodeWhole .auxReply [0x20] = .ok (.replyDefer [])
    ∧ decodeWhole .hostOp [0x02, 0x82, 0x04, 0x02] = .ok (.dpcdRead 0x202 2)
    ∧ decodeWhole .hostOp [0x05, 0x01, 0x00, 0x03] = .ok (.epcApply 1 0 4)
    ∧ decodeWhole .hostOp [0x06, 0x03, 0x01, 0x01] = .ok (.linkTrain 4 .hbr true)

/-- Decoding the encoding of a well-formed instruction gives it back, every operand at every value its field admits
(R121, R122, R124, R126, R130; the host record's layout is log entry 3). -/
def Obligations.DecodeOfEncodeIsIdentity : Prop :=
  ∀ i : Instr, i.wellFormed = true → decodeWhole i.format (encode i) = .ok i

/-- Bytes that decode are the encoding of what they decode to: no bit is ignored and no instruction has two encodings.
For a request frame this is R121 and R122.  For a host record it is the model's own layout (log entry 3, DESIGN CHOICE): R130
gives the op codes and no more.  That a reply whose first byte has a low nibble other than 0 is refused is log entry 21
(DEDUCED from R124). -/
def Obligations.DecodedBytesAreCanonical : Prop :=
  ∀ (f : Format) (bytes : List Byte) (i : Instr), decodeWhole f bytes = .ok i → encode i = bytes ∧ i.format = f

/-- Reserved command nibbles, reserved op codes and unnamed reply statuses are no instruction (R127, R130, R125). -/
def Obligations.ReservedEncodingsRejected : Prop :=
  (∀ (c : BitVec 4) (addr : Addr) (lm1 : Byte) (rest : List Byte),
      c ∈ [0x2, 0x3, 0x6, 0x7, 0xA, 0xB, 0xC, 0xD, 0xE, 0xF] →
      decodeRequest (headerBytes (commandWord c addr lm1) ++ rest) = .error .reservedCommand)
    ∧ (∀ (b : Byte) (rest : List Byte), b.toNat < 16 → (b.toNat = 0 ∨ 7 ≤ b.toNat) →
      decodeHostOp (b :: rest) = .error .reservedOpCode)
    ∧ (∀ (status : BitVec 4) (data : List Byte), 3 ≤ status.toNat → data.length ≤ 16 →
      decodeReply (encodeReply status data) = .error .unnamedStatus)

/-! ## The host interface -/

/-- R131: which operands are well-formed.  `len` and `n` are not checked, nor the sum of a level. -/
def Obligations.OperandChecksOfHostInterface : Prop :=
  (∀ (cmd : BitVec 4) (addr len : Nat) (payload : List Byte),
      (Instr.auxExecute cmd addr len payload).wellFormed = true ↔
        addr < 2 ^ 20 ∧ ((cmd ∈ [0x8, 0x0, 0x4] ∧ payload.length = len) ∨ (cmd ∈ [0x9, 0x1, 0x5] ∧ payload = [])))
    ∧ (∀ addr n : Nat, (Instr.dpcdRead addr n).wellFormed = true ↔ addr < 2 ^ 20)
    ∧ (∀ addr n : Nat, (Instr.dpcdReadProbe addr n).wellFormed = true ↔ addr < 2 ^ 20)
    ∧ (∀ addr n value : Nat, (Instr.dpcdWrite addr n value).wellFormed = true ↔ addr < 2 ^ 20 ∧ value < 2 ^ 32)
    ∧ (∀ swing pre m : Nat, (Instr.epcApply swing pre m).wellFormed = true ↔ swing ≤ 3 ∧ pre ≤ 3 ∧ m ∈ [1, 2, 4])
    ∧ (∀ (m : Nat) (rate : LinkRate) (ef : Bool), (Instr.linkTrain m rate ef).wellFormed = true ↔ m ∈ [1, 2, 4])

/-- R49, R130, R44, R128: an operation with malformed operands, a record that is no operation, and a reply of more than 16
bytes or with no attempt in flight are refused. The reply's two refusals, and that bytes which are no record (cut short,
trailing, an unused bit set, a zero highest digit) stop the run as a reserved op code does, are the model's (log entry 16,
DESIGN CHOICE); which bytes are a record is log entry 3 (DESIGN CHOICE). -/
def Obligations.MalformedInputsRefused : Prop :=
  (∀ (i : Instr) (s : State), i.format ≠ .auxReply → i.wellFormed = false → exec i s = .refused .hostOperandRefused)
    ∧ (∀ (s : State) (r : HostRecord) (rest : List HostRecord) (e : DecodeError), s.host.reset = false → s.op = .idle →
      s.host.program = r :: rest → decodeWhole r.format r.bytes = .error e → step s = .refused .hostOperandRefused)
    ∧ (∀ (s : State) (data : List Byte), ∀ i ∈ [Instr.replyAck data, Instr.replyNack data, Instr.replyDefer data],
      (16 < data.length → exec i s = .refused .replyTooLong)
      ∧ (data.length ≤ 16 → s.aux.ctl.busy = false → exec i s = .refused .noAttemptInFlight))

/-- R47, R341: while `op_state = Busy` the host has no move (that the model refuses an operation then is log entry 16, DESIGN
CHOICE); with no operation to start an idle block steps to itself (log entry 24, DEDUCED: the spec says only that it waits). -/
def Obligations.HostMovesOnlyWhileIdle : Prop :=
  (∀ (i : Instr) (s : State) (pos : Position), i.format ≠ .auxReply → i.wellFormed = true → s.op = .busy pos →
      exec i s = .refused .hostWhileBusy)
    ∧ (∀ s : State, s.host.reset = false → s.op = .idle → s.host.program = [] → step s = .next s)

/-- A step runs the decoded instruction: the host's next record while Idle, the AUX channel's next named reply while an
attempt is in flight (R44, R47, R125); around `exec` the step only takes the record or the reply from its list.  An outcome with
no name is answered without `exec`, and with none listed the outcome is a draw.  That records and outcomes stand in lists in
State, and the form of a draw, are the model's (log entry 2, DESIGN CHOICE), and so are AUX frames as records (log entry 4,
DESIGN CHOICE). -/
def Obligations.StepRunsDecodedInstruction : Prop :=
  (∀ (s : State) (r : HostRecord) (rest : List HostRecord) (i : Instr), s.host.reset = false → s.op = .idle →
      s.host.program = r :: rest → decodeWhole r.format r.bytes = .ok i →
      step s = exec i { s with host := { s.host with program := rest } })
    ∧ (∀ (s : State) (t : Txn) (site : AuxSite) (status : BitVec 4) (data : List Byte) (rest : List AuxOutcome) (i : Instr),
      s.host.reset = false → s.op = .busy (.awaitAux t site) → s.aux.ctl.busy = true →
      s.chan.outcomes = .reply status data :: rest → replyInstr? status data = some i →
      step s = exec i { s with chan := { s.chan with outcomes := rest } })
    ∧ (∀ (s : State) (t : Txn) (site : AuxSite), s.host.reset = false → s.op = .busy (.awaitAux t site) →
      s.aux.ctl.busy = true →
      (∀ o rest, s.chan.outcomes = o :: rest → (∀ status data, o = .reply status data → 3 ≤ status.toNat) →
        step s = answer o { s with chan := { s.chan with outcomes := rest } })
      ∧ (s.chan.outcomes = [] → ∃ o, o.possible = true ∧ step s = step { s with chan := ⟨[o], s.chan.draws + 1⟩ }))

/-- R340, R342, R343: the reset input gives every register of the block its reset value, ends an operation in progress
with no result, keeps the PHY's registers, and makes no register access.  The reset values R340 leaves unspecified are the
model's (log entries 6 to 9), and that the past events, the program and the parameters stay is too (log entry 14). -/
def Obligations.ResetInputRestoresResetValues : Prop :=
  ∀ s : State, s.host.reset = true →
    ∃ t, step s = .next t ∧ t.aux = State.reset.aux ∧ t.port = State.reset.port ∧ t.sb = State.reset.sb
      ∧ t.ctx = State.reset.ctx ∧ t.op = .idle ∧ t.host.result = none ∧ t.host.reset = false ∧ t.phy = s.phy
      ∧ t.events = s.events ∧ t.host.program = s.host.program ∧ t.chan = s.chan ∧ t.par = s.par

/-- R340's stated values: the busy, done and sticky bits 0, Idle, the context's initial values, no byte of the buffer. -/
def Obligations.ResetLeavesStatedValues : Prop :=
  State.reset.aux.ctl.busy = false ∧ State.reset.aux.ctl.done = false ∧ State.reset.aux.ctl.errTimeout = false
    ∧ State.reset.aux.ctl.errReceive = false ∧ (∀ k : Fin 16, State.reset.aux.buf[k] = none)
    ∧ State.reset.sb.busy = false ∧ State.reset.op = .idle ∧ State.reset.ctx.ltsmState = .idle
    ∧ State.reset.ctx.lc.maxVswingReached = false ∧ State.reset.ctx.lc.maxPreemphasisReached = false
    ∧ (∀ l : Fin 4, State.reset.ctx.lane[l] = ⟨0, 0⟩) ∧ State.reset.ctx.applied = ⟨0, 0⟩
    ∧ State.reset.ctx.crRepeat = 0 ∧ State.reset.ctx.crPolls = 0 ∧ State.reset.ctx.eqIter = 0
    ∧ State.reset.ctx.auxAttempt = 0 ∧ State.reset.ctx.rdInterval = 0 ∧ State.reset.ctx.lastResult = none

/-! ## The AUX Transaction Engine -/

/-- NATIVE_READ, I2C_READ, I2C_READ_MOT (R171, R173, R175): from Idle the request is issued as R162 says; the frame handed
to the AUX channel is the row's encoding; nothing outside R180's registers changes, the data buffer included.  With `LM1` of
16 or more the command ends with `InvalidLength` and changes nothing (log entry 18). -/
def Obligations.ReadCommandsIssueRequest : Prop :=
  ∀ (s : State) (addr : Addr) (lm1 : Byte), s.op = .idle → s.aux.ctl.busy = false →
    ∀ ci ∈ [(AuxCmd.nativeRead, Instr.nativeRead addr lm1), (AuxCmd.i2cRead, Instr.i2cRead addr lm1),
        (AuxCmd.i2cReadMot, Instr.i2cReadMot addr lm1)],
      (lm1.toNat < 16 →
        ∃ t, exec ci.2 s = .next t ∧ InFlight ⟨ci.1, addr, lm1.toNat + 1, []⟩ .auxExecute t
          ∧ (∃ r, t.aux.inFlight = some r ∧ r.frame = encode ci.2) ∧ t.ctx.auxAttempt = 1 ∧ t.aux.buf = s.aux.buf
          ∧ t.aux.ctl.replyStatus = s.aux.ctl.replyStatus ∧ t.aux.ctl.replyLen = s.aux.ctl.replyLen
          ∧ SameButAux s t ∧ SameInputs s t)
      ∧ (16 ≤ lm1.toNat → exec ci.2 s = .next (onlyReturned ci.2 (.auxBytes (.err .invalidLength)) s))

/-- NATIVE_WRITE, I2C_WRITE, I2C_WRITE_MOT (R170, R172, R174): from Idle the payload is loaded (R164): the buffer's registers
hold it, padded with 0x00, and the registers after it are unchanged; then the request is issued as R162 says, the frame handed to
the AUX channel is the row's encoding (R122, R123), and nothing outside R180's registers and the buffer changes.  With `LM1` of 16
or more the command ends with `InvalidLength` (R161) and changes nothing (log entry 18, DEDUCED). -/
def Obligations.WriteCommandsIssueRequest : Prop :=
  ∀ (s : State) (addr : Addr) (lm1 : Byte) (payload : List Byte), s.op = .idle → s.aux.ctl.busy = false →
    payload.length = lm1.toNat + 1 →
    ∀ ci ∈ [(AuxCmd.nativeWrite, Instr.nativeWrite addr lm1 payload), (AuxCmd.i2cWrite, Instr.i2cWrite addr lm1 payload),
        (AuxCmd.i2cWriteMot, Instr.i2cWriteMot addr lm1 payload)],
      (lm1.toNat < 16 →
        ∃ t, exec ci.2 s = .next t ∧ InFlight ⟨ci.1, addr, lm1.toNat + 1, payload⟩ .auxExecute t
          ∧ (∃ r, t.aux.inFlight = some r ∧ r.frame = encode ci.2) ∧ t.ctx.auxAttempt = 1
          ∧ t.aux.buf.toList = payload.map some
              ++ List.replicate (4 * auxDataCount payload.length - payload.length) (some 0)
              ++ s.aux.buf.toList.drop (4 * auxDataCount payload.length)
          ∧ t.aux.ctl.replyStatus = s.aux.ctl.replyStatus ∧ t.aux.ctl.replyLen = s.aux.ctl.replyLen
          ∧ SameButAux s t ∧ SameInputs s t)
      ∧ (16 ≤ lm1.toNat → exec ci.2 s = .next (onlyReturned ci.2 (.auxBytes (.err .invalidLength)) s))

/-- AUX_EXECUTE (R160, R162): any command of R126, any 20-bit address, 1 to 16 bytes. -/
def Obligations.AuxExecuteIssuesRequest : Prop :=
  ∀ (s : State) (c : AuxCmd) (addr len : Nat) (payload : List Byte), s.op = .idle → s.aux.ctl.busy = false →
    addr < 2 ^ 20 → 1 ≤ len → len ≤ 16 → (if c.isRead then payload = [] else payload.length = len) →
      ∃ t, exec (.auxExecute c.nibble addr len payload) s = .next t
        ∧ InFlight ⟨c, BitVec.ofNat 20 addr, len, payload⟩ .auxExecute t
        ∧ t.aux.cmd.toNat = c.nibble.toNat * 2 ^ 28 + addr * 2 ^ 8 + (len - 1)
        ∧ t.ctx.auxAttempt = 1 ∧ SameButAux s t ∧ SameInputs s t

/-- R161: a length outside 1..16 returns `InvalidLength` at once: no register access, nothing sent, `aux_attempt` and every
register unchanged. -/
def Obligations.LengthOutsideRangeChangesNothing : Prop :=
  ∀ (s : State) (c : AuxCmd) (addr len : Nat) (payload : List Byte), s.op = .idle → addr < 2 ^ 20 →
    (if c.isRead then payload = [] else payload.length = len) → (len < 1 ∨ 16 < len) →
    exec (.auxExecute c.nibble addr len payload) s
      = .next (onlyReturned (.auxExecute c.nibble addr len payload) (.auxBytes (.err .invalidLength)) s)

/-- REPLY_ACK (R176, R168, R44): with no sticky error, and for a read at least `len` bytes, the attempt succeeds and
AUX_EXECUTE ends with the reply's first `len` bytes, or with none for a write. -/
def Obligations.AckEndsAuxExecute : Prop :=
  ∀ (s : State) (t : Txn) (data : List Byte), Awaiting t .auxExecute s → data.length ≤ 16 →
    (t.cmd.isRead = true → t.len ≤ data.length) →
    ∃ u, exec (.replyAck data) s = .next u ∧ u.op = .idle
      ∧ u.host = { s.host with result := some (.auxBytes (.ok (if t.cmd.isRead then data.take t.len else []))) }
      ∧ ReplyTaken 0 data s u ∧ SameButAux s u ∧ u.ctx = s.ctx ∧ u.chan = s.chan

/-- Every failed attempt before the sixth, of whatever call: REPLY_NACK (R177), REPLY_DEFER (R178), a read's REPLY_ACK with too
few bytes (R176), any other status (R179), a timeout, a receive error (R167): the whole request is issued again.  An ACK with
a sticky error bit set is a failed attempt whatever it carries (R176, R307). -/
def Obligations.FailedAttemptIsRetried : Prop :=
  (∀ (s : State) (t : Txn) (site : AuxSite) (o : AuxOutcome), Awaiting t site s → t.Ok → s.ctx.auxAttempt < 6 →
      o.possible = true → o.fails t.cmd t.len = true →
      ∃ u, answer o s = .next u
        ∧ (∀ data, (o = .reply 0 data → exec (.replyAck data) s = .next u)
          ∧ (o = .reply 1 data → exec (.replyNack data) s = .next u)
          ∧ (o = .reply 2 data → exec (.replyDefer data) s = .next u))
        ∧ InFlight t site u ∧ u.ctx.auxAttempt = s.ctx.auxAttempt + 1 ∧ SameButAux s u ∧ SameInputs s u)
    ∧ (∀ (s : State) (t : Txn) (site : AuxSite) (data : List Byte), s.op = .busy (.awaitAux t site) → s.aux.ctl.busy = true →
      (s.aux.ctl.errTimeout = true ∨ s.aux.ctl.errReceive = true) → t.Ok → s.ctx.auxAttempt < 6 → data.length ≤ 16 →
      ∃ u, exec (.replyAck data) s = .next u ∧ InFlight t site u ∧ u.ctx.auxAttempt = s.ctx.auxAttempt + 1
        ∧ SameButAux s u ∧ SameInputs s u)

/-- REPLY_NACK (R177): a failed attempt: the transaction retries if `aux_attempt < 6`, else returns `NoResponse`, to the host
for AUX_EXECUTE and to the call that began it for every other. -/
def Obligations.NackRetriesThenNoResponse : Prop :=
  ∀ (s : State) (t : Txn) (data : List Byte), data.length ≤ 16 →
    (∀ site : AuxSite, Awaiting t site s → t.Ok → s.ctx.auxAttempt < 6 →
      ∃ u, exec (.replyNack data) s = .next u ∧ InFlight t site u ∧ u.aux.ctl.replyStatus = 1
        ∧ u.aux.ctl.replyLen.toNat = data.length ∧ u.ctx = { s.ctx with auxAttempt := s.ctx.auxAttempt + 1 }
        ∧ u.port = s.port ∧ u.sb = s.sb ∧ u.phy = s.phy ∧ u.par = s.par ∧ SameInputs s u)
    ∧ (Awaiting t .auxExecute s → 6 ≤ s.ctx.auxAttempt →
      ∃ u, exec (.replyNack data) s = .next u ∧ u.op = .idle
        ∧ u.host = { s.host with result := some (.auxBytes (.err .noResponse)) } ∧ ReplyTaken 1 data s u
        ∧ SameButAux s u ∧ u.ctx = s.ctx ∧ u.chan = s.chan)
    ∧ (∀ site : AuxSite, Awaiting t site s → 6 ≤ s.ctx.auxAttempt →
      exec (.replyNack data) s
        = deliver site (.err .noResponse) ((s.complete (.reply 1 data)).log (.auxCtlRead (s.aux.ctl.complete (.reply 1 data)))))

/-- REPLY_DEFER (R178): "treated exactly as NACK": the same next state but for `REPLY_STATUS` and the record of events, at
every attempt of every call; before the sixth that is a retry, and after the sixth no attempt of that call follows. -/
def Obligations.DeferTreatedAsNack : Prop :=
  ∀ (s : State) (t : Txn) (site : AuxSite) (data : List Byte), Awaiting t site s → t.Ok → data.length ≤ 16 →
    ∃ u v, exec (.replyNack data) s = .next u ∧ exec (.replyDefer data) s = .next v
      ∧ v.aux = { u.aux with ctl := { u.aux.ctl with replyStatus := 2 } } ∧ v.op = u.op ∧ v.ctx = u.ctx
      ∧ v.port = u.port ∧ v.sb = u.sb ∧ v.phy = u.phy ∧ v.par = u.par ∧ SameInputs u v
      ∧ (s.ctx.auxAttempt < 6 → InFlight t site v ∧ v.ctx.auxAttempt = s.ctx.auxAttempt + 1)
      ∧ (6 ≤ s.ctx.auxAttempt → v.op ≠ .busy (.awaitAux t site))

/-- R169, R177, R178: the sixth failed attempt ends AUX_EXECUTE with `NoResponse`, and `AUX_CTL` keeps the last
attempt's bits. -/
def Obligations.SixthFailureIsNoResponse : Prop :=
  ∀ (s : State) (t : Txn) (o : AuxOutcome), Awaiting t .auxExecute s → s.ctx.auxAttempt = 6 → o.possible = true →
    o.fails t.cmd t.len = true →
    ∃ u, answer o s = .next u
      ∧ (∀ data, (o = .reply 0 data → exec (.replyAck data) s = .next u)
        ∧ (o = .reply 1 data → exec (.replyNack data) s = .next u)
        ∧ (o = .reply 2 data → exec (.replyDefer data) s = .next u))
      ∧ u.op = .idle ∧ u.host = { s.host with result := some (.auxBytes (.err .noResponse)) }
      ∧ u.aux.ctl = s.aux.ctl.complete o ∧ u.aux.ctl.done = true
      ∧ SameButAux s u ∧ u.ctx = s.ctx ∧ u.chan = s.chan

/-- R169, the retry bound: AUX_EXECUTE makes exactly `k` attempts when attempt `k ≤ 6` is the first to succeed, and
exactly 6 when none does, whatever the failures are. -/
def Obligations.RetryBoundIsSixAttempts : Prop :=
  ∀ (s : State) (c : AuxCmd) (addr len : Nat) (payload : List Byte) (failures : List AuxOutcome) (rest : List AuxOutcome),
    s.op = .idle → s.host.reset = false → s.aux.ctl.busy = false → addr < 2 ^ 20 → 1 ≤ len → len ≤ 16 →
    (if c.isRead then payload = [] else payload.length = len) →
    (∀ o ∈ failures, o.possible = true ∧ o.fails c len = true) →
    (∀ bytes : List Byte, bytes.length ≤ 16 → (AuxOutcome.reply 0 bytes).fails c len = false → failures.length < 6 →
      s.chan.outcomes = failures ++ .reply 0 bytes :: rest →
      ∃ t u, exec (.auxExecute c.nibble addr len payload) s = .next t ∧ run (failures.length + 1) t = .next u
        ∧ u.op = .idle ∧ u.host.result = some (.auxBytes (.ok (if c.isRead then bytes.take len else [])))
        ∧ cmdWrites u.events = cmdWrites s.events + (failures.length + 1) ∧ u.ctx.auxAttempt = failures.length + 1
        ∧ u.chan.outcomes = rest)
    ∧ (failures.length = 6 → s.chan.outcomes = failures ++ rest →
      ∃ t u, exec (.auxExecute c.nibble addr len payload) s = .next t ∧ run 6 t = .next u
        ∧ u.op = .idle ∧ u.host.result = some (.auxBytes (.err .noResponse))
        ∧ cmdWrites u.events = cmdWrites s.events + 6 ∧ u.ctx.auxAttempt = 6 ∧ u.chan.outcomes = rest)

/-- "There is no unbounded wait" in a transaction (90_conflicts.md C2; R45, R353): whatever the AUX channel answers, listed or
drawn, a transaction of the host's AUX_EXECUTE ends within as many steps as it has attempts left. -/
def Obligations.TransactionAlwaysEnds : Prop :=
  ∀ (s : State) (t : Txn), s.host.reset = false → t.Ok → Awaiting t .auxExecute s → 1 ≤ s.ctx.auxAttempt →
    s.ctx.auxAttempt ≤ 6 → (∀ o ∈ s.chan.outcomes, o.possible = true) →
    ∃ n u, n ≤ 7 - s.ctx.auxAttempt ∧ run n s = .next u ∧ u.op = .idle ∧ ∃ r, u.host.result = some (.auxBytes r)

/-- R39, R164, R168: where a payload stands in `AUX_DATA`: register `i` is written with bytes `4i` to `4i+3`, the first in
bits 31:24 under BigEndian and in bits 7:0 under LittleEndian, 0x00 past the payload's end, and holds what was written; read back,
the payload is as it was, so the packing cancels. -/
def Obligations.AuxDataPackingCancels : Prop :=
  ∀ (s : State) (payload : List Byte), payload.length ≤ 16 →
    (s.loadPayload 0 payload).replyBytes payload.length = some payload
      ∧ ∀ i, 4 * i < payload.length →
        ∃ v : Word, .auxDataWrite i v ∈ (s.loadPayload 0 payload).events
          ∧ auxData s.par.packing (s.loadPayload 0 payload).aux.buf i = some v
          ∧ ∀ k < 4, v.extractLsb' (if s.par.packing = .bigEndian then 24 - 8 * k else 8 * k) 8 = payload.getD (4 * i + k) 0

/-! ## The DPCD Accessor -/

/-- DPCD_READ and DPCD_READ_PROBE (R190, R192, R194): one NATIVE_READ of `n` bytes; byte `k` of the reply becomes bits
`8k+7 : 8k` of the value, the bits above `8n` are 0. -/
def Obligations.DpcdReadAssemblesReply : Prop :=
  ∀ (s : State) (addr n : Nat) (bytes : List Byte) (rest : List AuxOutcome), s.op = .idle → s.host.reset = false →
    s.aux.ctl.busy = false → addr < 2 ^ 20 → 1 ≤ n → n ≤ 4 → n ≤ bytes.length → bytes.length ≤ 16 →
    s.chan.outcomes = .reply 0 bytes :: rest →
    ∀ ip ∈ [(Instr.dpcdRead addr n, AuxSite.dpcdRead), (Instr.dpcdReadProbe addr n, AuxSite.dpcdReadProbe)],
      ∃ t u v, exec ip.1 s = .next t ∧ InFlight (readTxn (BitVec.ofNat 20 addr) n) ip.2 t ∧ SameButAux s t
        ∧ SameInputs s t ∧ run 1 t = .next u ∧ u.op = .idle ∧ u.host = { s.host with result := some (.value (.ok v)) }
        ∧ v.toNat < 2 ^ (8 * n) ∧ (∀ k < n, v.extractLsb' (8 * k) 8 = bytes.getD k 0)
        ∧ SameButAux s u ∧ u.ctx.auxAttempt = 1

/-- R193, R194: six failed attempts give `NoResponse` to DPCD_READ and DPCD_WRITE, and `Ok(0)` to DPCD_READ_PROBE. -/
def Obligations.DpcdFailurePropagatesOrReadsZero : Prop :=
  ∀ (s : State) (addr n value : Nat) (failures rest : List AuxOutcome), s.op = .idle → s.host.reset = false →
    s.aux.ctl.busy = false → addr < 2 ^ 20 → 1 ≤ n → n ≤ 4 → value < 2 ^ 32 → failures.length = 6 →
    s.chan.outcomes = failures ++ rest →
    ∀ ir ∈ [(Instr.dpcdRead addr n, AuxCmd.nativeRead, OpResult.value (.err .noResponse)),
        (Instr.dpcdReadProbe addr n, AuxCmd.nativeRead, OpResult.value (.ok 0)),
        (Instr.dpcdWrite addr n value, AuxCmd.nativeWrite, OpResult.written (.err .noResponse))],
      (∀ o ∈ failures, o.possible = true ∧ o.fails ir.2.1 n = true) →
      ∃ t u, exec ir.1 s = .next t ∧ run 6 t = .next u ∧ u.op = .idle ∧ u.host.result = some ir.2.2
        ∧ u.ctx.auxAttempt = 6 ∧ u.chan.outcomes = rest ∧ SameButAux s u

/-- DPCD_WRITE (R195): one NATIVE_WRITE whose byte `k` is bits `8k+7 : 8k` of the value; bits at `8n` and above are
ignored; the ACK ends it with `Ok(())`. -/
def Obligations.DpcdWriteSendsLowBytes : Prop :=
  ∀ (s : State) (addr n value : Nat) (data : List Byte) (rest : List AuxOutcome), s.op = .idle → s.host.reset = false →
    s.aux.ctl.busy = false → addr < 2 ^ 20 → 1 ≤ n → n ≤ 4 → value < 2 ^ 32 → data.length ≤ 16 →
    s.chan.outcomes = .reply 0 data :: rest →
      ∃ t u p, exec (.dpcdWrite addr n value) s = .next t
        ∧ InFlight ⟨.nativeWrite, BitVec.ofNat 20 addr, n, p⟩ .dpcdWrite t ∧ p.length = n
        ∧ (∀ k < n, (p.getD k 0).toNat = value / 2 ^ (8 * k) % 256) ∧ SameButAux s t ∧ SameInputs s t
        ∧ run 1 t = .next u ∧ u.op = .idle ∧ u.host = { s.host with result := some (.written (.ok ())) } ∧ SameButAux s u

/-- R191, R194: a byte count of 0 or above 4 makes no register access: `InvalidLength`, and `Ok(0)` for the probe. -/
def Obligations.DpcdByteCountChecked : Prop :=
  ∀ (s : State) (addr n value : Nat), s.op = .idle → addr < 2 ^ 20 → value < 2 ^ 32 → (n = 0 ∨ 4 < n) →
    exec (.dpcdRead addr n) s = .next (onlyReturned (.dpcdRead addr n) (.value (.err .invalidLength)) s)
    ∧ exec (.dpcdReadProbe addr n) s = .next (onlyReturned (.dpcdReadProbe addr n) (.value (.ok 0)) s)
    ∧ exec (.dpcdWrite addr n value) s = .next (onlyReturned (.dpcdWrite addr n value) (.written (.err .invalidLength)) s)

/-- R198: on a sink that stores writes and ACKs every request, a DPCD_WRITE followed by a DPCD_READ of the same address
and byte count returns the low `8n` bits of the value.  What the sink does for a request that crosses 0xFFFFF is left to the sink
(R91; U8): that this one stores those bytes past 0xFFFFF and gives them back, on which the claim for such an address rests, is
the model's choice (log entry 25, DESIGN CHOICE). -/
def Obligations.StoreSinkRoundTrip : Prop :=
  ∀ (s : State) (m : SinkMem) (addr n value : Nat), s.op = .idle → s.host.reset = false → s.aux.ctl.busy = false →
    addr < 2 ^ 20 → 1 ≤ n → n ≤ 4 → value < 2 ^ 32 →
    ∃ t u v w m1 m2, exec (.dpcdWrite addr n value) s = .next t ∧ runWithSink 1 m t = (m1, .next u)
      ∧ u.host.result = some (.written (.ok ())) ∧ exec (.dpcdRead addr n) u = .next v
      ∧ runWithSink 1 m1 v = (m2, .next w)
      ∧ w.host.result = some (.value (.ok (BitVec.ofNat 32 (value % 2 ^ (8 * n))))) ∧ w.op = .idle

/-! ## The Electrical Parameter Controller -/

/-- R211: an illegal level returns `InvalidCombination` and makes no register write, no sideband write and no DPCD
write, and changes no state. -/
def Obligations.IllegalLevelChangesNothing : Prop :=
  ∀ (s : State) (swing pre : Nat) (m : LaneCount), s.op = .idle → swing ≤ 3 → pre ≤ 3 → 3 < swing + pre →
    exec (.epcApply swing pre m.toNat) s
      = .next (onlyReturned (.epcApply swing pre m.toNat) (.applied (.err .invalidCombination)) s)

/-- EPC_APPLY with a legal level (R210, R213 to R217): every PHY write of `PHY_TUNING` is done, in list order, before the
TRAINING_LANE_SET write of `lane_count` bytes at 0x103 is issued; the active lanes and the max flags are those of the level;
nothing else of the context, and nothing of the port, changes; the ACK ends it with `Ok(())`.  That a tuning value wider than its
sideband register is cut to the register's low bits is the model's choice (log entry 17, DESIGN CHOICE). -/
def Obligations.EpcApplyCompletes : Prop :=
  ∀ (s : State) (swing pre : Nat) (m : LaneCount) (data : List Byte) (rest : List AuxOutcome), s.op = .idle →
    s.host.reset = false → s.aux.ctl.busy = false → s.sb.busy = false → swing + pre ≤ 3 → data.length ≤ 16 →
    s.chan.outcomes = .reply 0 data :: rest →
    ∀ (l : Level) (b : Byte) (w : List SbWrite), l = ⟨BitVec.ofNat 2 swing, BitVec.ofNat 2 pre⟩ →
      w = tuningOf s.par l →
      b.toNat = swing + (if 3 ≤ swing then 4 else 0) + 8 * pre + (if 3 ≤ pre then 32 else 0) →
      ∃ t u v, exec (.epcApply swing pre m.toNat) s = .next t ∧ run (2 * w.length + 1) t = .next u
        ∧ InFlight ⟨.nativeWrite, 0x103, m.toNat, List.replicate m.toNat b⟩ (.laneSet .host) u ∧ u.sb.busy = false
        ∧ u.phy = w.foldl (fun p e =>
            Memory.write s.par.sbDataWidth (e.addr % 2 ^ s.par.sbAddrWidth) (e.data % 2 ^ s.par.sbDataWidth) p) s.phy
        ∧ (∀ k : Fin 4, u.ctx.lane[k] = if k.val < m.toNat then l else s.ctx.lane[k])
        ∧ u.ctx = { s.ctx with
            lc := { s.ctx.lc with maxVswingReached := decide (3 ≤ swing), maxPreemphasisReached := decide (3 ≤ pre) }
            lane := u.ctx.lane
            auxAttempt := 1 }
        ∧ u.port = s.port ∧ SameInputs s u ∧ run 1 u = .next v ∧ v.op = .idle
        ∧ v.host = { s.host with result := some (.applied (.ok ())) } ∧ v.ctx = u.ctx ∧ v.phy = u.phy ∧ v.port = s.port

/-- R218, R215: when the TRAINING_LANE_SET write of a host EPC_APPLY fails its sixth attempt, by whatever outcome, the error is
returned unchanged, and the lanes and flags stay at the level the transmitter now drives. -/
def Obligations.EpcWriteErrorKeepsLevel : Prop :=
  ∀ (s : State) (t : Txn) (o : AuxOutcome), Awaiting t (.laneSet .host) s → s.ctx.auxAttempt = 6 → o.possible = true →
    o.fails t.cmd t.len = true →
    ∃ u, AnswerGives o s u ∧ u.op = .idle
      ∧ u.host = { s.host with result := some (.applied (.err (.aux .noResponse))) } ∧ u.ctx = s.ctx ∧ u.phy = s.phy
      ∧ u.port = s.port ∧ u.sb = s.sb

/-- R213, R42, R50: one sideband write: address, data, then the write opcode, which sets `BUSY`; the PHY then stores the
data at the address, leaves its other registers, and clears `BUSY`.  That `SB_ADDR` and `SB_DATA` hold the low bits of a wider
tuning value is the model's choice (log entry 17, DESIGN CHOICE).  With no write left (R101), at every call of `Apply` (R210),
the host's or one of the LTSM's (R248, R255, R282, R287), the next step sets the active lanes (R215) and the max flags (R216) to
those of the level and issues the TRAINING_LANE_SET write of `lane_count` bytes at 0x103 (R217). -/
def Obligations.SidebandWriteReachesPhy : Prop :=
  (∀ (s : State) (w : SbWrite) (todo : List SbWrite) (l : Level) (m : LaneCount) (site : ApplySite),
      s.host.reset = false → s.op = .busy (.sideband (w :: todo) l m site) → s.sb.busy = false →
      ∃ t u, step s = .next t
        ∧ t.sb = ⟨w.addr % 2 ^ s.par.sbAddrWidth, w.data % 2 ^ s.par.sbDataWidth, s.par.sbWriteOpcode, true⟩
        ∧ t.phy = s.phy ∧ t.op = .busy (.awaitSb todo l m site)
        ∧ t.events = .sbOpcodeWrite t.sb.opcode :: .sbDataWrite t.sb.data :: .sbAddrWrite t.sb.addr :: s.events
        ∧ step t = .next u ∧ u.sb = { t.sb with busy := false } ∧ Memory.read s.par.sbDataWidth u.phy t.sb.addr = t.sb.data
        ∧ (∀ a, a ≠ t.sb.addr → Memory.read s.par.sbDataWidth u.phy a = Memory.read s.par.sbDataWidth s.phy a)
        ∧ u.op = .busy (.sideband todo l m site) ∧ u.aux = s.aux ∧ u.port = s.port ∧ u.ctx = s.ctx)
    ∧ (∀ (s : State) (l : Level) (m : LaneCount) (site : ApplySite) (b : Byte),
      s.host.reset = false → s.op = .busy (.sideband [] l m site) → s.aux.ctl.busy = false →
      b.toNat = l.swing.toNat + (if 3 ≤ l.swing.toNat then 4 else 0)
        + 8 * l.pre.toNat + (if 3 ≤ l.pre.toNat then 32 else 0) →
      ∃ t issue, step s = .next t ∧ InFlight ⟨.nativeWrite, 0x103, m.toNat, List.replicate m.toNat b⟩ (.laneSet site) t
        ∧ (∀ k : Fin 4, t.ctx.lane[k] = if k.val < m.toNat then l else s.ctx.lane[k])
        ∧ t.ctx = { s.ctx with
            lc := { s.ctx.lc with
              maxVswingReached := decide (3 ≤ l.swing.toNat)
              maxPreemphasisReached := decide (3 ≤ l.pre.toNat) }
            lane := t.ctx.lane
            auxAttempt := 1 }
        ∧ t.phy = s.phy ∧ t.sb = s.sb ∧ t.port = s.port ∧ SameInputs s t
        ∧ t.events = issue ++ s.events ∧ cmdWrites issue = 1)

/-- R219 to R221: the level applied for an adjust read is legal; its swing is the largest requested by an active lane,
its pre-emphasis the largest requested, reduced to what the swing leaves. -/
def Obligations.RequestedLevelIsLegalMaximum : Prop :=
  ∀ (v : Word) (m : LaneCount) (swing pre : Nat → Nat),
    (∀ l, swing l = v.toNat / 2 ^ (8 * (l / 2) + 4 * (l % 2)) % 4) →
    (∀ l, pre l = v.toNat / 2 ^ (8 * (l / 2) + 4 * (l % 2) + 2) % 4) →
    (requestedLevel v m).legal = true
      ∧ (∀ l < m.toNat, swing l ≤ (requestedLevel v m).swing.toNat)
      ∧ (∃ l < m.toNat, swing l = (requestedLevel v m).swing.toNat)
      ∧ (∃ p, (∀ l < m.toNat, pre l ≤ p) ∧ (∃ l < m.toNat, pre l = p)
        ∧ (requestedLevel v m).pre.toNat = min p (3 - (requestedLevel v m).swing.toNat))

/-! ## Link training: setup -/

/-- LINK_TRAIN (R241, R243): the context is initialised, the LTSM enters ClockRecovery, and the probe of
TRAINING_AUX_RD_INTERVAL is in flight; the port, the sideband and the PHY are untouched. -/
def Obligations.LinkTrainBeginsWithProbe : Prop :=
  ∀ (s : State) (m : LaneCount) (rate : LinkRate) (ef : Bool), s.op = .idle → s.aux.ctl.busy = false →
    ∃ t, exec (.linkTrain m.toNat rate ef) s = .next t ∧ InFlight (readTxn 0x00E 1) .rdInterval t
      ∧ t.aux.cmd = 0x90000E00 ∧ t.ctx.ltsmState = .clockRecovery ∧ t.ctx.lc = ⟨m, rate, ef, false, false⟩
      ∧ (∀ l : Fin 4, t.ctx.lane[l] = ⟨0, 0⟩) ∧ t.ctx.applied = ⟨0, 0⟩ ∧ t.ctx.crRepeat = 0 ∧ t.ctx.crPolls = 0
      ∧ t.ctx.eqIter = 0 ∧ t.ctx.auxAttempt = 1 ∧ t.ctx.rdInterval = s.ctx.rdInterval
      ∧ t.ctx.lastResult = s.ctx.lastResult ∧ t.port = s.port ∧ t.sb = s.sb ∧ t.phy = s.phy ∧ t.par = s.par ∧ SameInputs s t

/-- R243, R245, R246, R142: after the probe, with 1 or 2 lanes, the three port writes are made in their order and
LANE_COUNT_SET is in flight with its byte 0x01 or 0x02, and 0x81 or 0x82 with enhanced framing; a probe that fails its sixth
attempt, by whatever outcome, counts as 0. -/
def Obligations.SetupReconfiguresPort : Prop :=
  ∀ (s : State) (o : AuxOutcome) (v b : Byte), Awaiting (readTxn 0x00E 1) .rdInterval s → o.possible = true →
    s.ctx.lc.laneCount ≠ .four →
    (∃ data, o = .reply 0 data ∧ data.head? = some v) ∨ (o.fails .nativeRead 1 = true ∧ s.ctx.auxAttempt = 6 ∧ v = 0) →
    b.toNat = s.ctx.lc.laneCount.toNat + (if s.ctx.lc.enhancedFraming then 128 else 0) →
    ∃ u, AnswerGives o s u
      ∧ u.ctx = { s.ctx with rdInterval := v, auxAttempt := 1 }
      ∧ u.port = ⟨true, s.ctx.lc.laneCount, s.ctx.lc.enhancedFraming, s.ctx.lc.linkRate, .none, s.port.inTraining⟩
      ∧ InFlight (byteWriteTxn 0x101 b) .laneCountSet u
      ∧ u.events.filter Event.isPortWrite
        = .portWrite { tpSel := some .none, enable := some true }
          :: .portWrite
            { laneCount := some s.ctx.lc.laneCount, enhancedFraming := some s.ctx.lc.enhancedFraming,
              linkRate := some s.ctx.lc.linkRate }
          :: .portWrite { enable := some false }
          :: s.events.filter Event.isPortWrite
      ∧ u.sb = s.sb ∧ u.phy = s.phy ∧ SameInputs s u

/-- R244, R350, R245, R246, R142: with 4 lanes the idle pattern and its settle delay come before the port is disabled: after the
probe the only port write is the idle pattern's, and the delay begins; when it has ended the port is disabled, reconfigured and
enabled, in three writes, and LANE_COUNT_SET is in flight with 0x04, and 0x84 with enhanced framing.  A probe that fails its sixth
attempt counts as 0 here too (R243). -/
def Obligations.FourLaneIdlePulse : Prop :=
  (∀ (s : State) (o : AuxOutcome) (v : Byte), Awaiting (readTxn 0x00E 1) .rdInterval s → o.possible = true →
      s.ctx.lc.laneCount = .four →
      (∃ data, o = .reply 0 data ∧ data.head? = some v) ∨ (o.fails .nativeRead 1 = true ∧ s.ctx.auxAttempt = 6 ∧ v = 0) →
      ∃ u, AnswerGives o s u ∧ u.op = .busy (.waiting s.par.settle4LaneUs .idlePulse)
        ∧ u.port = { s.port with tpSel := .idle } ∧ u.ctx = { s.ctx with rdInterval := v } ∧ u.sb = s.sb ∧ u.phy = s.phy
        ∧ ∃ past, u.events = .waitStart s.par.settle4LaneUs :: .portWrite { tpSel := some .idle } :: past
          ∧ past.filter Event.isPortWrite = s.events.filter Event.isPortWrite)
    ∧ (∀ (s : State) (us : Nat) (b : Byte), s.host.reset = false → s.aux.ctl.busy = false →
      s.op = .busy (.waiting us .idlePulse) →
      b.toNat = s.ctx.lc.laneCount.toNat + (if s.ctx.lc.enhancedFraming then 128 else 0) →
      ∃ u later, step s = .next u
        ∧ u.port = ⟨true, s.ctx.lc.laneCount, s.ctx.lc.enhancedFraming, s.ctx.lc.linkRate, .none, s.port.inTraining⟩
        ∧ u.events = later ++ .waitEnd :: s.events
        ∧ later.filter Event.isPortWrite
          = [.portWrite { tpSel := some .none, enable := some true },
            .portWrite
              { laneCount := some s.ctx.lc.laneCount, enhancedFraming := some s.ctx.lc.enhancedFraming,
                linkRate := some s.ctx.lc.linkRate },
            .portWrite { enable := some false }]
        ∧ InFlight (byteWriteTxn 0x101 b) .laneCountSet u
        ∧ u.sb = s.sb ∧ u.phy = s.phy ∧ u.ctx = { s.ctx with auxAttempt := 1 })

/-- R246 to R248, R143, R250, R259: each ACK of setup leads to its next part: LINK_BW_SET with its code 0x06, 0x0A or 0x14, then
the source's pattern 1 with its training mark and TRAINING_PATTERN_SET, then the level (0, 0), then the first poll's `Wait`: 100 µs
for the interval code 0, 4000 µs a unit for 1 to 4, 16000 µs for every other.  That the first poll is made with an overall cap of 0
too is the model's choice (log entry 26, DESIGN CHOICE). -/
def Obligations.SetupProgramsSinkInOrder : Prop :=
  ∀ (s : State) (t : Txn) (data : List Byte), t.cmd.isRead = false → data.length ≤ 16 →
    (Awaiting t .laneCountSet s →
      ∃ u, exec (.replyAck data) s = .next u
        ∧ InFlight
          (byteWriteTxn 0x100 (match s.ctx.lc.linkRate with | .rbr => 0x06 | .hbr => 0x0A | .hbr2 => 0x14)) .linkBwSet u
        ∧ u.port = s.port ∧ u.sb = s.sb ∧ u.phy = s.phy ∧ u.ctx = { s.ctx with auxAttempt := 1 })
    ∧ (Awaiting t .linkBwSet s →
      ∃ u, exec (.replyAck data) s = .next u ∧ InFlight (byteWriteTxn 0x102 0x21) .pattern1 u
        ∧ u.port = { s.port with tpSel := .pat1, inTraining := true } ∧ u.sb = s.sb ∧ u.phy = s.phy
        ∧ u.ctx = { s.ctx with auxAttempt := 1 })
    ∧ (Awaiting t .pattern1 s →
      ∃ u, exec (.replyAck data) s = .next u
        ∧ u.op = .busy (.sideband (tuningOf s.par ⟨0, 0⟩) ⟨0, 0⟩ s.ctx.lc.laneCount .setup)
        ∧ u.port = s.port ∧ u.sb = s.sb ∧ u.phy = s.phy ∧ u.ctx = s.ctx)
    ∧ (Awaiting t (.laneSet .setup) s →
      ∃ u, exec (.replyAck data) s = .next u
        ∧ u.op = .busy (.waiting
          (if s.ctx.rdInterval = 0 then 100
            else if s.ctx.rdInterval.toNat ≤ 4 then 4000 * s.ctx.rdInterval.toNat else 16000) .crPoll)
        ∧ u.port = s.port ∧ u.sb = s.sb ∧ u.phy = s.phy ∧ u.ctx = { s.ctx with applied := ⟨0, 0⟩ })

/-- R249, R258, R288, R306: an `AuxError` in setup or Clock Recovery begins the exit actions with
`ClockRecoveryFailed(Aux(e))`, one in Equalization with `EqualizationFailed(Aux(e))`, by whatever outcome the sixth attempt
fails. -/
def Obligations.AuxErrorEndsTraining : Prop :=
  ∀ (s : State) (t : Txn) (site : AuxSite) (o : AuxOutcome), Awaiting t site s → s.ctx.auxAttempt = 6 → o.possible = true →
    o.fails t.cmd t.len = true →
    (∀ new : Level,
      site ∈ [.laneCountSet, .linkBwSet, .pattern1, .laneSet .setup, .crStatus, .crAdjust, .laneSet (.crAdjust new)] →
      ∃ u, AnswerGives o s u ∧ ExitBegun (some (.clockRecoveryFailed (.aux .noResponse))) s u
        ∧ u.ctx = s.ctx)
    ∧ (∀ new : Level,
      site ∈ [.pattern2, .laneSet .eqStart, .eqStatus, .eqAdjust, .laneSet (.eqAdjust new)] →
      ∃ u, AnswerGives o s u ∧ ExitBegun (some (.equalizationFailed (.aux .noResponse))) s u
        ∧ u.ctx = s.ctx)

/-! ## Link training: Clock Recovery -/

/-- R102, R250, R251, R283: a training poll's status read is issued when its `Wait` ends: 2 bytes at 0x202 in Clock
Recovery, 3 in Equalization; the poll is counted. -/
def Obligations.PollReadsStatusAfterWait : Prop :=
  ∀ (s : State) (us : Nat), s.host.reset = false → s.aux.ctl.busy = false →
    (s.op = .busy (.waiting us .crPoll) →
      ∃ u, step s = .next u ∧ InFlight (readTxn 0x202 2) .crStatus u
        ∧ u.ctx = { s.ctx with crPolls := s.ctx.crPolls + 1, auxAttempt := 1 } ∧ u.port = s.port ∧ u.sb = s.sb ∧ u.phy = s.phy
        ∧ u.events = .auxCmdWrite 0x90020201 :: .auxCtlClear :: .waitEnd :: s.events)
    ∧ (s.op = .busy (.waiting us .eqPoll) →
      ∃ u, step s = .next u ∧ InFlight (readTxn 0x202 3) .eqStatus u
        ∧ u.ctx = { s.ctx with eqIter := s.ctx.eqIter + 1, auxAttempt := 1 } ∧ u.port = s.port ∧ u.sb = s.sb ∧ u.phy = s.phy
        ∧ u.events = .auxCmdWrite 0x90020202 :: .auxCtlClear :: .waitEnd :: s.events)

/-- R252, R253, R281: after the status read the gate decides: with `clock_recovery_done` of every active lane the LTSM
enters Equalization, the source sends pattern 2 and the sink is told; else the adjust registers are read. -/
def Obligations.ClockRecoveryGate : Prop :=
  ∀ (s : State) (b0 b1 : Byte) (extra : List Byte), Awaiting (readTxn 0x202 2) .crStatus s → extra.length ≤ 14 →
    ∀ done : Bool,
      (done = true ↔ ∀ l < s.ctx.lc.laneCount.toNat,
        (if l < 2 then b0.getLsbD (4 * l) else b1.getLsbD (4 * (l - 2))) = true) →
      (done = true →
        ∃ u, exec (.replyAck (b0 :: b1 :: extra)) s = .next u ∧ InFlight (byteWriteTxn 0x102 0x22) .pattern2 u
          ∧ u.ctx = { s.ctx with ltsmState := .equalization, auxAttempt := 1 } ∧ u.port = { s.port with tpSel := .pat2 }
          ∧ u.sb = s.sb ∧ u.phy = s.phy)
      ∧ (done = false →
        ∃ u, exec (.replyAck (b0 :: b1 :: extra)) s = .next u ∧ InFlight (readTxn 0x206 2) .crAdjust u
          ∧ u.ctx = { s.ctx with auxAttempt := 1 } ∧ u.port = s.port ∧ u.sb = s.sb ∧ u.phy = s.phy)

/-- R254, R255, R287: after the adjust read the clamped coalesced level is applied, in every poll, in Clock Recovery and
in Equalization alike. -/
def Obligations.AdjustReadAppliesRequestedLevel : Prop :=
  ∀ (s : State) (b0 b1 : Byte) (extra : List Byte) (new : Level), extra.length ≤ 14 →
    new = requestedLevel (BitVec.ofNat 32 (b0.toNat + 256 * b1.toNat)) s.ctx.lc.laneCount →
    ∀ ss ∈ [(AuxSite.crAdjust, ApplySite.crAdjust new), (AuxSite.eqAdjust, ApplySite.eqAdjust new)],
      Awaiting (readTxn 0x206 2) ss.1 s →
      ∃ u, exec (.replyAck (b0 :: b1 :: extra)) s = .next u
        ∧ u.op = .busy (.sideband (tuningOf s.par new) new s.ctx.lc.laneCount ss.2)
        ∧ u.ctx = s.ctx ∧ u.port = s.port ∧ u.sb = s.sb ∧ u.phy = s.phy

/-- R256, R257, R309: after a re-apply: the counter rises when the level is the one applied before and is 0 otherwise; at
5 training fails; else at the overall cap it fails; else the next poll's `Wait` of R259 begins.  That a cap of 0 lets one poll be
made and then ends the loop, as R250's test stands, is the model's choice beside R353 (log entry 26, DESIGN CHOICE). -/
def Obligations.SameLevelCounterAndCaps : Prop :=
  ∀ (s : State) (t : Txn) (new : Level) (data : List Byte) (count : Nat), Awaiting t (.laneSet (.crAdjust new)) s →
    t.cmd.isRead = false → data.length ≤ 16 → count = (if new = s.ctx.applied then s.ctx.crRepeat + 1 else 0) →
    ∃ u, exec (.replyAck data) s = .next u ∧ u.ctx = { s.ctx with applied := new, crRepeat := count }
      ∧ (if count = 5 then ExitBegun (some (.clockRecoveryFailed .sameLevelCap)) s u
        else if (∃ n, s.par.crOverallCap = some n ∧ n ≤ s.ctx.crPolls) then
          ExitBegun (some (.clockRecoveryFailed .overallCap)) s u
        else u.op = .busy (.waiting
            (if s.ctx.rdInterval = 0 then 100
              else if s.ctx.rdInterval.toNat ≤ 4 then 4000 * s.ctx.rdInterval.toNat else 16000) .crPoll)
          ∧ u.port = s.port ∧ u.sb = s.sb ∧ u.phy = s.phy)

/-- R257, U21: with no overall cap Clock Recovery has no bound: for every number of polls there is a state that meets the
invariant, at the first poll's `Wait`, and a sink with which the loop makes that many polls and still waits for the next. -/
def Obligations.ClockRecoveryHasNoBound : Prop :=
  ∀ n : Nat, ∃ s k u, Inv s ∧ s.op = .busy (.waiting 100 .crPoll) ∧ s.par.crOverallCap = none ∧ s.ctx.crPolls = 0
    ∧ run k s = .next u ∧ u.ctx.crPolls = n ∧ u.op = .busy (.waiting 100 .crPoll)

/-! ## Link training: Equalization and exit -/

/-- R282, R283: after the pattern 2 write the level reached in Clock Recovery is applied again; when its lane-set write
is ACKed the counter is 0 (R290) and the first poll's `Wait` begins; a later re-apply makes `applied` the new level (R287).  The
`Wait` is R259's: 400 µs for the interval code 0, 4000 µs a unit for 1 to 4, 16000 µs for every other. -/
def Obligations.EqualizationStartsFromAppliedLevel : Prop :=
  ∀ (s : State) (t : Txn) (data : List Byte), t.cmd.isRead = false → data.length ≤ 16 →
    (Awaiting t .pattern2 s → s.ctx.applied.legal = true →
      ∃ u, exec (.replyAck data) s = .next u
        ∧ u.op = .busy (.sideband (tuningOf s.par s.ctx.applied) s.ctx.applied s.ctx.lc.laneCount .eqStart)
        ∧ u.ctx = s.ctx ∧ u.port = s.port ∧ u.sb = s.sb ∧ u.phy = s.phy)
    ∧ (Awaiting t (.laneSet .eqStart) s →
      ∃ u, exec (.replyAck data) s = .next u
        ∧ u.op = .busy (.waiting
          (if s.ctx.rdInterval = 0 then 400
            else if s.ctx.rdInterval.toNat ≤ 4 then 4000 * s.ctx.rdInterval.toNat else 16000) .eqPoll)
        ∧ u.ctx = { s.ctx with eqIter := 0 } ∧ u.port = s.port ∧ u.sb = s.sb ∧ u.phy = s.phy)
    ∧ (∀ new : Level, Awaiting t (.laneSet (.eqAdjust new)) s →
      ∃ u, exec (.replyAck data) s = .next u
        ∧ u.op = .busy (.waiting
          (if s.ctx.rdInterval = 0 then 400
            else if s.ctx.rdInterval.toNat ≤ 4 then 4000 * s.ctx.rdInterval.toNat else 16000) .eqPoll)
        ∧ u.ctx = { s.ctx with applied := new } ∧ u.port = s.port ∧ u.sb = s.sb ∧ u.phy = s.phy)

/-- R284 to R287, R309: one Equalization poll: Clock Recovery lost, then success, then the cap at the fifth poll, else
the adjust read. -/
def Obligations.EqualizationPollChecksInOrder : Prop :=
  ∀ (s : State) (b0 b1 b2 : Byte) (extra : List Byte) (bit : Nat → Nat → Bool),
    Awaiting (readTxn 0x202 3) .eqStatus s → extra.length ≤ 13 →
    (∀ l k, bit l k = if l < 2 then b0.getLsbD (4 * l + k) else b1.getLsbD (4 * (l - 2) + k)) →
    ∃ u, exec (.replyAck (b0 :: b1 :: b2 :: extra)) s = .next u
      ∧ (if ∃ l < s.ctx.lc.laneCount.toNat, bit l 0 = false then
          ExitBegun (some (.equalizationFailed .clockRecoveryLost)) s u ∧ u.ctx = s.ctx
        else if (∀ l < s.ctx.lc.laneCount.toNat, bit l 1 = true ∧ bit l 2 = true) ∧ b2.getLsbD 0 = true then
          ExitBegun none s u ∧ u.ctx = s.ctx
        else if s.ctx.eqIter = 5 then
          ExitBegun (some (.equalizationFailed .iterationCap)) s u ∧ u.ctx = s.ctx
        else InFlight (readTxn 0x206 2) .eqAdjust u ∧ u.ctx = { s.ctx with auxAttempt := 1 } ∧ u.port = s.port
          ∧ u.sb = s.sb ∧ u.phy = s.phy)

/-- R266, R349: the exit actions clear the pattern bits in one write, wait `SETTLE_EXIT_US`, then clear `IN_TRAINING` in a
separate write: whatever state they begin in, and with whatever error. -/
def Obligations.ExitIsTwoWritesWithDelayBetween : Prop :=
  ∀ (s : State) (err : Option TrainingError), s.host.reset = false → s.aux.ctl.busy = false →
    ∃ u later, ExitBegun err s (exitTraining err s) ∧ step (exitTraining err s) = .next u
      ∧ u.port = { s.port with tpSel := .none, inTraining := false }
      ∧ u.events = later ++ .portWrite { inTraining := some false } :: .waitEnd :: .waitStart s.par.settleExitUs
        :: .portWrite { tpSel := some .none } :: s.events
      ∧ later.filter Event.isPortWrite = []

/-- R266 to R268, R349: the exit's second write, `IN_TRAINING <- 0`, and the sink's TRAINING_PATTERN_SET write come when the
settle delay has ended, for every error and for success. -/
def Obligations.ExitStepTwoFollowsSettleDelay : Prop :=
  ∀ (s : State) (us : Nat) (err : Option TrainingError), s.host.reset = false → s.aux.ctl.busy = false →
    s.op = .busy (.waiting us (.exit err)) →
    ∃ u, step s = .next u ∧ InFlight (byteWriteTxn 0x102 0x00) (.exitPattern err) u ∧ u.aux.cmd = 0x80010200
      ∧ u.port = { s.port with inTraining := false } ∧ u.ctx = { s.ctx with auxAttempt := 1 } ∧ u.sb = s.sb ∧ u.phy = s.phy
      ∧ ∃ later, u.events = later ++ .portWrite { inTraining := some false } :: .waitEnd :: s.events

/-- R269, R270, R271, R310: the end of LINK_TRAIN: `Done` or `Failed`, the result with `lc`, the same pair in
`last_result`; an error of the exit write, by whatever outcome its sixth attempt fails, counts on a `Done` exit and is ignored on
a `Failed` one. -/
def Obligations.ExitReturnsResult : Prop :=
  ∀ (s : State) (t : Txn) (o : AuxOutcome) (err final : Option TrainingError), Awaiting t (.exitPattern err) s →
    t.cmd.isRead = false → o.possible = true →
      ((∃ data, o = .reply 0 data) ∧ final = err)
        ∨ (o.fails t.cmd t.len = true ∧ s.ctx.auxAttempt = 6
          ∧ final = (if err = none then some (.equalizationFailed (.aux .noResponse)) else err)) →
      ∃ u, AnswerGives o s u ∧ u.op = .idle
        ∧ u.ctx = { s.ctx with
            ltsmState := (if final = none then .done else .failed)
            lastResult := some (final, s.ctx.lc) }
        ∧ u.host.result = some (.trained (trainingResult final) s.ctx.lc)
        ∧ u.port = s.port ∧ u.sb = s.sb ∧ u.phy = s.phy

/-- LINK_TRAIN to its end (R242; scenario A's shape with success at the first poll of each phase).  The ten requests are those of
R243, R246 to R248, R251, R281, the pattern 2 level, R283 and R268, the status bits those of R144 and R145, the result that of
R270: for every lane count, rate and tuning table, a sink that ACKs every request, reports Clock Recovery at the first poll and
equalization, symbol lock and alignment at the first Equalization poll brings LINK_TRAIN to `Done` at level (0, 0).  That the first
poll is made with an overall cap of 0 too is the model's choice (log entry 26, DESIGN CHOICE). -/
def Obligations.LinkTrainCompletes : Prop :=
  ∀ (s : State) (m : LaneCount) (rate : LinkRate) (ef : Bool) (v : Byte) (rest : List AuxOutcome), s.op = .idle →
    s.host.reset = false → s.aux.ctl.busy = false → s.sb.busy = false →
    s.chan.outcomes = .reply 0 [v] :: .reply 0 [] :: .reply 0 [] :: .reply 0 [] :: .reply 0 [] :: .reply 0 [0x11, 0x11]
      :: .reply 0 [] :: .reply 0 [] :: .reply 0 [0x77, 0x77, 0x01] :: .reply 0 [] :: rest →
    ∃ t n u, exec (.linkTrain m.toNat rate ef) s = .next t ∧ run n t = .next u ∧ u.op = .idle
      ∧ u.host.result = some (.trained (.ok ()) ⟨m, rate, ef, false, false⟩)
      ∧ u.ctx.ltsmState = .done ∧ u.ctx.lastResult = some (none, ⟨m, rate, ef, false, false⟩)
      ∧ (∀ l : Fin 4, u.ctx.lane[l] = ⟨0, 0⟩) ∧ u.ctx.crPolls = 1 ∧ u.ctx.eqIter = 1 ∧ u.ctx.rdInterval = v
      ∧ u.port = ⟨true, m, ef, rate, .none, false⟩ ∧ u.chan.outcomes = rest
      ∧ cmdWrites u.events = cmdWrites s.events + 10

/-! ## Whole-machine rules -/

/-- The invariant holds at reset. -/
def Obligations.InvariantHoldsAtReset : Prop := Inv State.reset

/-- Every step keeps the invariant: legal levels, bounded counters, lanes in lock-step, the PHY's registers in canonical
form, never both busy bits, the port quiet after a training (R53, R100, R312, R346, R353). -/
def Obligations.StepKeepsInvariant : Prop := ∀ s t : State, Inv s → step s = .next t → Inv t

/-- No model fault is reachable: from a state that meets the invariant no step faults.  Three of the faults are R314's.  The
fourth, `sidebandIssueWhileBusy`, is the model's name (log entry 16, DESIGN CHOICE) for the write over a busy sideband that R346
says is never made.  "Under the rules of 41_aux_engine.md no rule reads such a byte" (R40): no instruction faults on a byte of the
buffer that nothing has written, whatever the buffer holds, if the operands of the transaction awaited, if any, are well-formed. -/
def Obligations.NoModelFaultFromInvariant : Prop :=
  (∀ (s : State) (f : Fault), Inv s → step s ≠ .fault f)
    ∧ (∀ (s : State) (i : Instr), (∀ t site, s.op = .busy (.awaitAux t site) → t.Ok) → exec i s ≠ .fault .unwrittenAuxData)

/-- R53, R252: "the LTSM never enters Equalization while any active lane's `clock_recovery_done` is false in the poll that
decided it": a step that enters Equalization takes a reply to a Clock Recovery status read in which the bit of every active
lane is 1. -/
def Obligations.EqualizationOnlyThroughGate : Prop :=
  ∀ s t : State, Inv s → step s = .next t → s.ctx.ltsmState ≠ .equalization → t.ctx.ltsmState = .equalization →
    ∃ data : List Byte, s.op = .busy (.awaitAux (readTxn 0x202 2) .crStatus) ∧ s.nextOutcome.1 = .reply 0 data
      ∧ 2 ≤ data.length
      ∧ ∀ l < s.ctx.lc.laneCount.toNat, (data.getD (l / 2) 0).getLsbD (4 * (l % 2)) = true

/-- R242, R265: the LTSM's transitions: LINK_TRAIN takes a settled state to ClockRecovery, from there to Equalization or
Failed, from there to Done or Failed, and Done and Failed are entered only at the end of the exit actions. -/
def Obligations.LtsmTransitions : Prop :=
  ∀ s t : State, Inv s → s.host.reset = false → step s = .next t → t.ctx.ltsmState ≠ s.ctx.ltsmState →
    (s.ctx.ltsmState.settled = true ∧ s.op = .idle ∧ t.ctx.ltsmState = .clockRecovery)
    ∨ (s.ctx.ltsmState = .clockRecovery ∧ t.ctx.ltsmState = .equalization)
    ∨ ((∃ txn err, s.op = .busy (.awaitAux txn (.exitPattern err))) ∧ t.op = .idle
      ∧ ((s.ctx.ltsmState = .clockRecovery ∧ t.ctx.ltsmState = .failed)
        ∨ (s.ctx.ltsmState = .equalization ∧ (t.ctx.ltsmState = .done ∨ t.ctx.ltsmState = .failed))))

/-- R346: after writing `AUX_CMD` or `SB_CTL` the engine makes no access to that controller until `BUSY = 0`: a step that leaves a
busy bit 1 has that write as its last event, and while a busy bit is 1 the next event is the completion that clears it.  Where a
step ends is the model's (log entry 1, DEDUCED). -/
def Obligations.NoAccessWhileBusy : Prop :=
  ∀ s t : State, Inv s → s.host.reset = false → step s = .next t →
    (s.aux.ctl.busy = true → ∃ o later, t.events = later ++ .auxDone o :: s.events)
    ∧ (s.sb.busy = true → t.events = .sbDone :: s.events ∧ t.sb.busy = false)
    ∧ (t.aux.ctl.busy = true → t.events.head? = some (.auxCmdWrite t.aux.cmd))
    ∧ (t.sb.busy = true → t.events.head? = some (.sbOpcodeWrite t.sb.opcode))

/-- R102: every status read of a training poll is issued after that poll's `Wait` has ended: a step after which a status read
is in flight either ended the poll's `Wait` just before the read's issue or is a retry of that read. -/
def Obligations.StatusReadOnlyAfterWait : Prop :=
  ∀ (s t : State) (txn : Txn) (site : AuxSite) (poll : WaitSite), (site, poll) ∈ [(.crStatus, .crPoll), (.eqStatus, .eqPoll)] →
    s.host.reset = false → step s = .next t → t.op = .busy (.awaitAux txn site) →
    (∃ us issue, s.op = .busy (.waiting us poll) ∧ t.events = issue ++ .waitEnd :: s.events ∧ cmdWrites issue = 1)
    ∨ s.op = .busy (.awaitAux txn site)

/-- R43: the block writes the PHY's registers only through the sideband, one addressed register at the PHY's completion of a
write (R50), and never reads them: what they hold changes nothing else in any step. -/
def Obligations.PhyWrittenOnlyBySidebandAndNeverRead : Prop :=
  (∀ (s t : State) (a : Nat), s.host.reset = false → step s = .next t →
      Memory.read s.par.sbDataWidth t.phy a ≠ Memory.read s.par.sbDataWidth s.phy a →
      s.sb.busy = true ∧ t.sb.busy = false ∧ a = s.sb.addr ∧ Memory.read s.par.sbDataWidth t.phy a = s.sb.data
        ∧ ∃ todo l m site, s.op = .busy (.awaitSb todo l m site))
    ∧ (∀ (s t : State) (phy : Memory), step s = .next t → ∃ phy', step { s with phy := phy } = .next { t with phy := phy' })

/-- R47: a result reaches the host only when the operation ends. -/
def Obligations.ResultOnlyAtEndOfOperation : Prop :=
  ∀ s t : State, s.host.reset = false → step s = .next t → t.host.result ≠ s.host.result →
    t.op = .idle ∧ ∃ r, t.host.result = some r ∧ t.events.head? = some (.opEnd r)

/-- R53, R241, R242, R210: the lane count, the rate and the framing do not change while an operation runs.  R53 says it of the
lane count during a training; for the rate, the framing and the other operations it is read from the rules: only the
initialisation at the start of LINK_TRAIN writes them (R241, R242), and EPC_APPLY leaves them (R210). -/
def Obligations.LinkConfigFixedDuringOperation : Prop :=
  ∀ (s t : State) (pos : Position), s.host.reset = false → s.op = .busy pos → step s = .next t →
    t.ctx.lc.laneCount = s.ctx.lc.laneCount ∧ t.ctx.lc.linkRate = s.ctx.lc.linkRate
      ∧ t.ctx.lc.enhancedFraming = s.ctx.lc.enhancedFraming

/-- R271, R180, R210 (D50): starting a host operation other than LINK_TRAIN leaves the port, the LTSM state, `applied`, the loop
counters, the interval and the last result alone, and so does a reply to one of its transactions.  R271 says it of the LTSM state;
the rest is R180's list of what AUX_EXECUTE writes and the effects of EPC_APPLY in R210. -/
def Obligations.OnlyTrainingTouchesTrainingState : Prop :=
  ∀ (i : Instr) (s t : State), exec i s = .next t → (∀ m rate ef, i ≠ .linkTrain m rate ef) →
    (i.format = .auxReply → ∀ txn site, s.op = .busy (.awaitAux txn site) →
      site ∈ [.auxExecute, .dpcdRead, .dpcdReadProbe, .dpcdWrite, .laneSet .host]) →
    t.port = s.port ∧ t.ctx = { s.ctx with auxAttempt := t.ctx.auxAttempt } ∧ t.sb = s.sb ∧ t.phy = s.phy

/-- R105, R11, R100: no step changes the parameters, and what has happened is never rewritten: the record of events only
grows.  R105 says it of `PHY_TUNING`; that all the parameters stand in a field of State is log entry 11, the record of events is
log entry 13, and that a reset keeps both is log entry 14 (all DESIGN CHOICE). -/
def Obligations.ParametersAndPastEventsKept : Prop :=
  ∀ s t : State, step s = .next t → t.par = s.par ∧ ∃ new, t.events = new ++ s.events
end

