-- ==== Sys2Proof/Laws/State.lean ====
section
/-! SUPPORT. One lemma per field of the state for each named update, true by unfolding; and the fields of a bounded run's
pieces that later proofs cite instead of a record update. -/

namespace Sys2Proof.Machine

variable (s : State)

/-! ## `State.log` -/

@[simp] theorem State.log_aux (e : Event) : (s.log e).aux = s.aux := rfl
@[simp] theorem State.log_port (e : Event) : (s.log e).port = s.port := rfl
@[simp] theorem State.log_sb (e : Event) : (s.log e).sb = s.sb := rfl
@[simp] theorem State.log_phy (e : Event) : (s.log e).phy = s.phy := rfl
@[simp] theorem State.log_ctx (e : Event) : (s.log e).ctx = s.ctx := rfl
@[simp] theorem State.log_op (e : Event) : (s.log e).op = s.op := rfl
@[simp] theorem State.log_host (e : Event) : (s.log e).host = s.host := rfl
@[simp] theorem State.log_chan (e : Event) : (s.log e).chan = s.chan := rfl
@[simp] theorem State.log_events (e : Event) : (s.log e).events = e :: s.events := rfl
@[simp] theorem State.log_par (e : Event) : (s.log e).par = s.par := rfl

/-! ## `State.at` -/

@[simp] theorem State.at_aux (pos : Position) : (s.at pos).aux = s.aux := rfl
@[simp] theorem State.at_port (pos : Position) : (s.at pos).port = s.port := rfl
@[simp] theorem State.at_sb (pos : Position) : (s.at pos).sb = s.sb := rfl
@[simp] theorem State.at_phy (pos : Position) : (s.at pos).phy = s.phy := rfl
@[simp] theorem State.at_ctx (pos : Position) : (s.at pos).ctx = s.ctx := rfl
@[simp] theorem State.at_op (pos : Position) : (s.at pos).op = .busy pos := rfl
@[simp] theorem State.at_host (pos : Position) : (s.at pos).host = s.host := rfl
@[simp] theorem State.at_chan (pos : Position) : (s.at pos).chan = s.chan := rfl
@[simp] theorem State.at_events (pos : Position) : (s.at pos).events = s.events := rfl
@[simp] theorem State.at_par (pos : Position) : (s.at pos).par = s.par := rfl

/-! ## `State.endOp` -/

@[simp] theorem State.endOp_aux (r : OpResult) : (s.endOp r).aux = s.aux := rfl
@[simp] theorem State.endOp_port (r : OpResult) : (s.endOp r).port = s.port := rfl
@[simp] theorem State.endOp_sb (r : OpResult) : (s.endOp r).sb = s.sb := rfl
@[simp] theorem State.endOp_phy (r : OpResult) : (s.endOp r).phy = s.phy := rfl
@[simp] theorem State.endOp_ctx (r : OpResult) : (s.endOp r).ctx = s.ctx := rfl
@[simp] theorem State.endOp_op (r : OpResult) : (s.endOp r).op = .idle := rfl
@[simp] theorem State.endOp_host (r : OpResult) : (s.endOp r).host = { s.host with result := some r } := rfl
@[simp] theorem State.endOp_chan (r : OpResult) : (s.endOp r).chan = s.chan := rfl
@[simp] theorem State.endOp_events (r : OpResult) : (s.endOp r).events = .opEnd r :: s.events := rfl
@[simp] theorem State.endOp_par (r : OpResult) : (s.endOp r).par = s.par := rfl

/-! ## `State.startWait` -/

@[simp] theorem State.startWait_aux (us : Nat) (site : WaitSite) : (s.startWait us site).aux = s.aux := rfl
@[simp] theorem State.startWait_port (us : Nat) (site : WaitSite) : (s.startWait us site).port = s.port := rfl
@[simp] theorem State.startWait_sb (us : Nat) (site : WaitSite) : (s.startWait us site).sb = s.sb := rfl
@[simp] theorem State.startWait_phy (us : Nat) (site : WaitSite) : (s.startWait us site).phy = s.phy := rfl
@[simp] theorem State.startWait_ctx (us : Nat) (site : WaitSite) : (s.startWait us site).ctx = s.ctx := rfl
@[simp] theorem State.startWait_op (us : Nat) (site : WaitSite) : (s.startWait us site).op = .busy (.waiting us site) := rfl
@[simp] theorem State.startWait_host (us : Nat) (site : WaitSite) : (s.startWait us site).host = s.host := rfl
@[simp] theorem State.startWait_chan (us : Nat) (site : WaitSite) : (s.startWait us site).chan = s.chan := rfl
@[simp] theorem State.startWait_events (us : Nat) (site : WaitSite) :
    (s.startWait us site).events = .waitStart us :: s.events := rfl
@[simp] theorem State.startWait_par (us : Nat) (site : WaitSite) : (s.startWait us site).par = s.par := rfl

/-! ## `State.portWrite` -/

@[simp] theorem State.portWrite_aux (w : PortWrite) : (s.portWrite w).aux = s.aux := rfl
@[simp] theorem State.portWrite_port (w : PortWrite) : (s.portWrite w).port = s.port.write w := rfl
@[simp] theorem State.portWrite_sb (w : PortWrite) : (s.portWrite w).sb = s.sb := rfl
@[simp] theorem State.portWrite_phy (w : PortWrite) : (s.portWrite w).phy = s.phy := rfl
@[simp] theorem State.portWrite_ctx (w : PortWrite) : (s.portWrite w).ctx = s.ctx := rfl
@[simp] theorem State.portWrite_op (w : PortWrite) : (s.portWrite w).op = s.op := rfl
@[simp] theorem State.portWrite_host (w : PortWrite) : (s.portWrite w).host = s.host := rfl
@[simp] theorem State.portWrite_chan (w : PortWrite) : (s.portWrite w).chan = s.chan := rfl
@[simp] theorem State.portWrite_events (w : PortWrite) : (s.portWrite w).events = .portWrite w :: s.events := rfl
@[simp] theorem State.portWrite_par (w : PortWrite) : (s.portWrite w).par = s.par := rfl

/-! ## `State.clearAuxCtl` -/

@[simp] theorem State.clearAuxCtl_aux : (s.clearAuxCtl).aux = { s.aux with ctl := AuxCtl.clearAll.write s.aux.ctl } := rfl
@[simp] theorem State.clearAuxCtl_port : (s.clearAuxCtl).port = s.port := rfl
@[simp] theorem State.clearAuxCtl_sb : (s.clearAuxCtl).sb = s.sb := rfl
@[simp] theorem State.clearAuxCtl_phy : (s.clearAuxCtl).phy = s.phy := rfl
@[simp] theorem State.clearAuxCtl_ctx : (s.clearAuxCtl).ctx = s.ctx := rfl
@[simp] theorem State.clearAuxCtl_op : (s.clearAuxCtl).op = s.op := rfl
@[simp] theorem State.clearAuxCtl_host : (s.clearAuxCtl).host = s.host := rfl
@[simp] theorem State.clearAuxCtl_chan : (s.clearAuxCtl).chan = s.chan := rfl
@[simp] theorem State.clearAuxCtl_events : (s.clearAuxCtl).events = .auxCtlClear :: s.events := rfl
@[simp] theorem State.clearAuxCtl_par : (s.clearAuxCtl).par = s.par := rfl

/-! ## `State.writeAuxData` -/

@[simp] theorem State.writeAuxData_aux (i : Nat) (v : Word) :
    (s.writeAuxData i v).aux = { s.aux with buf := storeBytes (4 * i) (unpackWord s.par.packing v) s.aux.buf } := rfl
@[simp] theorem State.writeAuxData_port (i : Nat) (v : Word) : (s.writeAuxData i v).port = s.port := rfl
@[simp] theorem State.writeAuxData_sb (i : Nat) (v : Word) : (s.writeAuxData i v).sb = s.sb := rfl
@[simp] theorem State.writeAuxData_phy (i : Nat) (v : Word) : (s.writeAuxData i v).phy = s.phy := rfl
@[simp] theorem State.writeAuxData_ctx (i : Nat) (v : Word) : (s.writeAuxData i v).ctx = s.ctx := rfl
@[simp] theorem State.writeAuxData_op (i : Nat) (v : Word) : (s.writeAuxData i v).op = s.op := rfl
@[simp] theorem State.writeAuxData_host (i : Nat) (v : Word) : (s.writeAuxData i v).host = s.host := rfl
@[simp] theorem State.writeAuxData_chan (i : Nat) (v : Word) : (s.writeAuxData i v).chan = s.chan := rfl
@[simp] theorem State.writeAuxData_events (i : Nat) (v : Word) : (s.writeAuxData i v).events = .auxDataWrite i v :: s.events := rfl
@[simp] theorem State.writeAuxData_par (i : Nat) (v : Word) : (s.writeAuxData i v).par = s.par := rfl

/-! ## `State.complete` -/

@[simp] theorem State.complete_port (o : AuxOutcome) : (s.complete o).port = s.port := rfl
@[simp] theorem State.complete_sb (o : AuxOutcome) : (s.complete o).sb = s.sb := rfl
@[simp] theorem State.complete_phy (o : AuxOutcome) : (s.complete o).phy = s.phy := rfl
@[simp] theorem State.complete_ctx (o : AuxOutcome) : (s.complete o).ctx = s.ctx := rfl
@[simp] theorem State.complete_op (o : AuxOutcome) : (s.complete o).op = s.op := rfl
@[simp] theorem State.complete_host (o : AuxOutcome) : (s.complete o).host = s.host := rfl
@[simp] theorem State.complete_chan (o : AuxOutcome) : (s.complete o).chan = s.chan := rfl
@[simp] theorem State.complete_events (o : AuxOutcome) : (s.complete o).events = .auxDone o :: s.events := rfl
@[simp] theorem State.complete_par (o : AuxOutcome) : (s.complete o).par = s.par := rfl

/-! ## `State.logReplyReads` -/

@[simp] theorem State.logReplyReads_aux (n : Nat) : (s.logReplyReads n).aux = s.aux := rfl
@[simp] theorem State.logReplyReads_port (n : Nat) : (s.logReplyReads n).port = s.port := rfl
@[simp] theorem State.logReplyReads_sb (n : Nat) : (s.logReplyReads n).sb = s.sb := rfl
@[simp] theorem State.logReplyReads_phy (n : Nat) : (s.logReplyReads n).phy = s.phy := rfl
@[simp] theorem State.logReplyReads_ctx (n : Nat) : (s.logReplyReads n).ctx = s.ctx := rfl
@[simp] theorem State.logReplyReads_op (n : Nat) : (s.logReplyReads n).op = s.op := rfl
@[simp] theorem State.logReplyReads_host (n : Nat) : (s.logReplyReads n).host = s.host := rfl
@[simp] theorem State.logReplyReads_chan (n : Nat) : (s.logReplyReads n).chan = s.chan := rfl
@[simp] theorem State.logReplyReads_events (n : Nat) : (s.logReplyReads n).events =
    ((List.range (auxDataCount n)).map Event.auxDataRead).reverse ++ s.events := rfl
@[simp] theorem State.logReplyReads_par (n : Nat) : (s.logReplyReads n).par = s.par := rfl

/-! ## `State.phyComplete` -/

@[simp] theorem State.phyComplete_aux : (s.phyComplete).aux = s.aux := rfl
@[simp] theorem State.phyComplete_port : (s.phyComplete).port = s.port := rfl
@[simp] theorem State.phyComplete_sb : (s.phyComplete).sb = { s.sb with busy := false } := rfl
@[simp] theorem State.phyComplete_phy : (s.phyComplete).phy = Memory.write s.par.sbDataWidth s.sb.addr s.sb.data s.phy := rfl
@[simp] theorem State.phyComplete_ctx : (s.phyComplete).ctx = s.ctx := rfl
@[simp] theorem State.phyComplete_op : (s.phyComplete).op = s.op := rfl
@[simp] theorem State.phyComplete_host : (s.phyComplete).host = s.host := rfl
@[simp] theorem State.phyComplete_chan : (s.phyComplete).chan = s.chan := rfl
@[simp] theorem State.phyComplete_events : (s.phyComplete).events = .sbDone :: s.events := rfl
@[simp] theorem State.phyComplete_par : (s.phyComplete).par = s.par := rfl

/-! ## `State.setMaxFlags` -/

@[simp] theorem State.setMaxFlags_aux (l : Level) : (s.setMaxFlags l).aux = s.aux := rfl
@[simp] theorem State.setMaxFlags_port (l : Level) : (s.setMaxFlags l).port = s.port := rfl
@[simp] theorem State.setMaxFlags_sb (l : Level) : (s.setMaxFlags l).sb = s.sb := rfl
@[simp] theorem State.setMaxFlags_phy (l : Level) : (s.setMaxFlags l).phy = s.phy := rfl
@[simp] theorem State.setMaxFlags_ctx (l : Level) :
    (s.setMaxFlags l).ctx = { s.ctx with
      lc := { s.ctx.lc with maxVswingReached := maxSwing l, maxPreemphasisReached := maxPre l } } := rfl
@[simp] theorem State.setMaxFlags_op (l : Level) : (s.setMaxFlags l).op = s.op := rfl
@[simp] theorem State.setMaxFlags_host (l : Level) : (s.setMaxFlags l).host = s.host := rfl
@[simp] theorem State.setMaxFlags_chan (l : Level) : (s.setMaxFlags l).chan = s.chan := rfl
@[simp] theorem State.setMaxFlags_events (l : Level) : (s.setMaxFlags l).events = s.events := rfl
@[simp] theorem State.setMaxFlags_par (l : Level) : (s.setMaxFlags l).par = s.par := rfl

/-! ## `State.setLaneLevels` -/

@[simp] theorem State.setLaneLevels_aux (l : Level) (m : LaneCount) : (s.setLaneLevels l m).aux = s.aux := rfl
@[simp] theorem State.setLaneLevels_port (l : Level) (m : LaneCount) : (s.setLaneLevels l m).port = s.port := rfl
@[simp] theorem State.setLaneLevels_sb (l : Level) (m : LaneCount) : (s.setLaneLevels l m).sb = s.sb := rfl
@[simp] theorem State.setLaneLevels_phy (l : Level) (m : LaneCount) : (s.setLaneLevels l m).phy = s.phy := rfl
@[simp] theorem State.setLaneLevels_ctx (l : Level) (m : LaneCount) :
    (s.setLaneLevels l m).ctx = { s.ctx with lane := setLanes m.toNat l s.ctx.lane } := rfl
@[simp] theorem State.setLaneLevels_op (l : Level) (m : LaneCount) : (s.setLaneLevels l m).op = s.op := rfl
@[simp] theorem State.setLaneLevels_host (l : Level) (m : LaneCount) : (s.setLaneLevels l m).host = s.host := rfl
@[simp] theorem State.setLaneLevels_chan (l : Level) (m : LaneCount) : (s.setLaneLevels l m).chan = s.chan := rfl
@[simp] theorem State.setLaneLevels_events (l : Level) (m : LaneCount) : (s.setLaneLevels l m).events = s.events := rfl
@[simp] theorem State.setLaneLevels_par (l : Level) (m : LaneCount) : (s.setLaneLevels l m).par = s.par := rfl

/-! ## `State.initContext` -/

@[simp] theorem State.initContext_aux (m : LaneCount) (r : LinkRate) (ef : Bool) : (s.initContext m r ef).aux = s.aux := rfl
@[simp] theorem State.initContext_port (m : LaneCount) (r : LinkRate) (ef : Bool) : (s.initContext m r ef).port = s.port := rfl
@[simp] theorem State.initContext_sb (m : LaneCount) (r : LinkRate) (ef : Bool) : (s.initContext m r ef).sb = s.sb := rfl
@[simp] theorem State.initContext_phy (m : LaneCount) (r : LinkRate) (ef : Bool) : (s.initContext m r ef).phy = s.phy := rfl
@[simp] theorem State.initContext_op (m : LaneCount) (r : LinkRate) (ef : Bool) : (s.initContext m r ef).op = s.op := rfl
@[simp] theorem State.initContext_host (m : LaneCount) (r : LinkRate) (ef : Bool) : (s.initContext m r ef).host = s.host := rfl
@[simp] theorem State.initContext_chan (m : LaneCount) (r : LinkRate) (ef : Bool) : (s.initContext m r ef).chan = s.chan := rfl
@[simp] theorem State.initContext_events (m : LaneCount) (r : LinkRate) (ef : Bool) :
    (s.initContext m r ef).events = s.events := rfl
@[simp] theorem State.initContext_par (m : LaneCount) (r : LinkRate) (ef : Bool) : (s.initContext m r ef).par = s.par := rfl

@[simp] theorem State.complete_busy (o : AuxOutcome) : (s.complete o).aux.ctl.busy = false := by
  cases o <;> rfl

@[simp] theorem State.complete_done (o : AuxOutcome) : (s.complete o).aux.ctl.done = true := by
  cases o <;> rfl

@[simp] theorem State.complete_inFlight (o : AuxOutcome) : (s.complete o).aux.inFlight = none := rfl

@[simp] theorem State.complete_cmd (o : AuxOutcome) : (s.complete o).aux.cmd = s.aux.cmd := rfl

end Sys2Proof.Machine
end

