-- ==== Sys2Proof/Laws/Words.lean ====
section
/-! SUPPORT. The command word's fields and header bytes, the numbers of a host record, and the tables of R126 and R130, both ways. -/

namespace Sys2Proof

@[simp] theorem AuxCmd.ofNibble_nibble (c : AuxCmd) : AuxCmd.ofNibble? c.nibble = some c := by
  cases c <;> rfl

theorem AuxCmd.nibble_of_ofNibble {n : BitVec 4} {c : AuxCmd} (h : AuxCmd.ofNibble? n = some c) : n = c.nibble := by
  simp only [AuxCmd.ofNibble?] at h
  split_ifs at h <;> (obtain rfl := Option.some.inj h; assumption)

theorem LaneCount.toNat_of_ofNat {n : Nat} {m : LaneCount} (h : LaneCount.ofNat? n = some m) : m.toNat = n := by
  simp only [LaneCount.ofNat?] at h
  split_ifs at h with h1 h2 h3
  · obtain rfl := Option.some.inj h; exact h1.symm
  · obtain rfl := Option.some.inj h; exact h2.symm
  · obtain rfl := Option.some.inj h; exact h3.symm

@[simp] theorem LaneCount.ofNat_toNat (m : LaneCount) : LaneCount.ofNat? m.toNat = some m := by
  cases m <;> rfl

theorem LaneCount.toNat_bounds (m : LaneCount) : 1 ≤ m.toNat ∧ m.toNat ≤ 4 := by
  cases m <;> decide

/-! ## The command word (R121, R122) -/

@[simp] theorem cmd_commandWord (c : BitVec 4) (a : Addr) (l : Byte) : Word.cmd (commandWord c a l) = c := by
  apply BitVec.eq_of_getLsbD_eq
  intro i hi
  simp only [Word.cmd, commandWord, BitVec.getLsbD_extractLsb', BitVec.getLsbD_append, hi]
  have h1 : ¬28 + i < 8 := by omega
  have h2 : ¬28 + i - 8 < 20 := by omega
  have h3 : 28 + i - 8 - 20 = i := by omega
  simp [h1, h2, h3]

@[simp] theorem addr_commandWord (c : BitVec 4) (a : Addr) (l : Byte) : Word.addr (commandWord c a l) = a := by
  apply BitVec.eq_of_getLsbD_eq
  intro i hi
  simp only [Word.addr, commandWord, BitVec.getLsbD_extractLsb', BitVec.getLsbD_append, hi]
  have h1 : ¬8 + i < 8 := by omega
  have h2 : 8 + i - 8 < 20 := by omega
  have h3 : 8 + i - 8 = i := by omega
  simp [h1, h3, hi]

@[simp] theorem lm1_commandWord (c : BitVec 4) (a : Addr) (l : Byte) : Word.lm1 (commandWord c a l) = l := by
  apply BitVec.eq_of_getLsbD_eq
  intro i hi
  simp only [Word.lm1, commandWord, BitVec.getLsbD_extractLsb', BitVec.getLsbD_append, hi]
  simp only [Nat.zero_add, hi, decide_true, Bool.true_and, if_true]

/-- A word is its header bytes, most significant first. -/
theorem word_of_header (w : Word) :
    w.extractLsb' 24 8 ++ w.extractLsb' 16 8 ++ w.extractLsb' 8 8 ++ w.extractLsb' 0 8 = w := by
  apply BitVec.eq_of_getLsbD_eq
  intro i hi
  simp only [BitVec.getLsbD_append, BitVec.getLsbD_extractLsb']
  split_ifs with h1 h2 h3
  · simp [h1]
  · simp [h2, show 8 + (i - 8) = i by omega]
  · simp [h3, show 16 + (i - 8 - 8) = i by omega]
  · simp [show i - 8 - 8 - 8 < 8 by omega, show 24 + (i - 8 - 8 - 8) = i by omega]

theorem commandWord_fields (w : Word) : commandWord (Word.cmd w) (Word.addr w) (Word.lm1 w) = w := by
  apply BitVec.eq_of_getLsbD_eq
  intro i hi
  simp only [commandWord, Word.cmd, Word.addr, Word.lm1, BitVec.getLsbD_append, BitVec.getLsbD_extractLsb']
  split_ifs with h1 h2
  · simp [h1]
  · simp [h2, show 8 + (i - 8) = i by omega]
  · simp [show i - 8 - 20 < 4 by omega, show 28 + (i - 8 - 20) = i by omega]

theorem headerBytes_of_append (a b c d : Byte) : headerBytes (a ++ b ++ c ++ d) = [a, b, c, d] := by
  simp only [headerBytes, List.cons.injEq, and_true]
  refine ⟨?_, ?_, ?_, ?_⟩ <;> apply BitVec.eq_of_getLsbD_eq <;> intro i hi <;>
    simp only [BitVec.getLsbD_extractLsb', BitVec.getLsbD_append, hi, decide_true, Bool.true_and]
  · rw [if_neg (by omega), if_neg (by omega), if_neg (by omega)]
    congr 1; omega
  · rw [if_neg (by omega), if_neg (by omega), if_pos (by omega)]
    congr 1; omega
  · rw [if_neg (by omega), if_pos (by omega)]
    congr 1; omega
  · rw [if_pos (by omega), Nat.zero_add]

/-! ## Numbers of a host record (log entry 3) -/

/-- Fuel above the number changes no digit. -/
theorem natDigits_fuel {f n : Nat} (h : n ≤ f) : natDigits f n = natBytes n := by
  induction n using Nat.strong_induction_on generalizing f with
  | _ n ih =>
    by_cases hn : n < 128
    · cases f <;> cases n <;> simp_all [natDigits, natBytes]
    · obtain ⟨f, rfl⟩ : ∃ k, f = k + 1 := ⟨f - 1, by omega⟩
      obtain ⟨m, rfl⟩ : ∃ k, n = k + 1 := ⟨n - 1, by omega⟩
      simp only [natBytes, natDigits, if_neg hn, List.cons.injEq, true_and]
      rw [ih _ (by omega) (by omega), ih _ (by omega) (by omega)]

/-- A number below 128 is one byte. -/
theorem natBytes_digit {n : Nat} (h : n < 128) : natBytes n = [BitVec.ofNat 8 n] := by
  cases n <;> simp_all [natBytes, natDigits]

/-- A larger number is its lowest digit, marked, and the rest. -/
theorem natBytes_more {n : Nat} (h : 128 ≤ n) : natBytes n = BitVec.ofNat 8 (n % 128 + 128) :: natBytes (n / 128) := by
  obtain ⟨m, rfl⟩ : ∃ k, n = k + 1 := ⟨n - 1, by omega⟩
  rw [natBytes, natDigits, if_neg (by omega), natDigits_fuel (by omega)]

/-- A number is read back from its bytes. -/
theorem takeNat_natBytes (n : Nat) (rest : List Byte) : takeNat (natBytes n ++ rest) = .ok (n, rest) := by
  induction n using Nat.strong_induction_on with
  | _ n ih =>
    by_cases hn : n < 128
    · have hm : n % 256 = n := by omega
      simp [natBytes_digit hn, takeNat, hm, hn]
    · have hm : (n % 128 + 128) % 256 = n % 128 + 128 := by omega
      have hd : ¬n / 128 = 0 := by omega
      simp only [natBytes_more (by omega : 128 ≤ n), List.cons_append, takeNat, BitVec.toNat_ofNat, hm,
        ih (n / 128) (by omega), if_neg hd]
      rw [if_neg (by omega)]
      simp only [Except.ok.injEq, Prod.mk.injEq, and_true]
      omega

/-- The bytes a number is read from are its bytes: no number has two encodings. -/
theorem natBytes_of_takeNat {bytes rest : List Byte} {n : Nat} (h : takeNat bytes = .ok (n, rest)) :
    bytes = natBytes n ++ rest := by
  induction bytes generalizing n rest with
  | nil => simp [takeNat] at h
  | cons b tail ih =>
    have hb := b.isLt
    simp only [takeNat] at h
    split at h
    · simp only [Except.ok.injEq, Prod.mk.injEq] at h
      obtain ⟨rfl, rfl⟩ := h
      simp [natBytes_digit ‹_›]
    · split at h
      · simp at h
      · rename_i m r hm
        split at h
        · simp at h
        · simp only [Except.ok.injEq, Prod.mk.injEq] at h
          obtain ⟨rfl, rfl⟩ := h
          rw [ih hm, natBytes_more (show 128 ≤ b.toNat - 128 + 128 * m by omega), show (b.toNat - 128 + 128 * m) / 128 = m by omega,
            show (b.toNat - 128 + 128 * m) % 128 + 128 = b.toNat by omega]
          simp

/-- The number of digits of a number. -/
theorem length_natBytes (n : Nat) : (natBytes n).length = Nat.log 128 n + 1 := by
  induction n using Nat.strong_induction_on with
  | _ n ih =>
    by_cases hn : n < 128
    · simp [natBytes_digit hn, Nat.log_of_lt hn]
    · rw [natBytes_more (show 128 ≤ n by omega), List.length_cons, ih (n / 128) (by omega),
        Nat.log_of_one_lt_of_le (b := 128) (n := n) (by decide) (by omega)]

end Sys2Proof
end

