-- ==== Sys2Proof/Laws/Buffer.lean ====
section
/-! SUPPORT. The AUX data buffer: packing, payload loading and reply reading (R39, R164, R168), and the PHY's registers. -/

namespace Sys2Proof.Machine

/-! ## Packing (R39) -/

@[simp] theorem unpackWord_packWord (p : Packing) (a b c d : Byte) :
    unpackWord p (packWord p a b c d) = [a, b, c, d] := by
  have h := headerBytes_of_append a b c d
  have h' := headerBytes_of_append d c b a
  simp only [headerBytes, List.cons.injEq, and_true] at h h'
  obtain ⟨h3, h2, h1, h0⟩ := h
  obtain ⟨g3, g2, g1, g0⟩ := h'
  cases p
  · simp only [unpackWord, packWord, h3, h2, h1, h0]
  · simp only [unpackWord, packWord, g3, g2, g1, g0]

@[simp] theorem unpackLanes_auxDataLanes (p : Packing) (buf : Vector (Option Byte) 16) (i : Nat) :
    unpackLanes p (auxDataLanes p buf i) = (buf.toList.drop (4 * i)).take 4 := by
  cases p <;> simp [unpackLanes, auxDataLanes]

/-! ## Lists of values -/

@[simp] theorem allSome_map_some {α : Type} (l : List α) : allSome (l.map some) = some l := by
  induction l with
  | nil => rfl
  | cons a l ih => simp [allSome, ih]

theorem flatMap_drop_take {α : Type} (l : List α) (n : Nat) :
    ((List.range n).flatMap fun i => (l.drop (4 * i)).take 4) = l.take (4 * n) := by
  induction n with
  | zero => simp
  | succ n ih =>
    rw [List.range_succ, List.flatMap_append, ih]
    simp only [List.flatMap_cons, List.flatMap_nil, List.append_nil]
    rw [show 4 * (n + 1) = 4 * n + 4 by ring, List.take_add]

/-! ## Storing bytes -/

theorem storeBytes_toList (bs : List Byte) : ∀ (k : Nat) (buf : Vector (Option Byte) 16), k + bs.length ≤ 16 →
    (storeBytes k bs buf).toList = buf.toList.take k ++ bs.map some ++ buf.toList.drop (k + bs.length) := by
  induction bs with
  | nil => intro k buf _; simp [storeBytes]
  | cons b bs ih =>
    intro k buf h
    simp only [List.length_cons] at h
    have hk : k < buf.toList.length := by simp; omega
    rw [storeBytes, ih (k + 1) _ (by omega)]
    have hset : (buf.setIfInBounds k (some b)).toList = buf.toList.set k (some b) := by
      simp [Vector.setIfInBounds, Vector.toList]
    have htake : (buf.toList.set k (some b)).take (k + 1) = buf.toList.take k ++ [some b] := by
      rw [List.set_eq_take_append_cons_drop, if_pos hk, List.take_append, List.take_of_length_le (by simp)]
      simp [show min k 16 = k by omega]
    rw [hset, List.drop_set_of_lt (by omega), htake]
    simp [show k + 1 + bs.length = k + (bs.length + 1) by omega]

/-- The bytes below a store's start are unchanged. -/
theorem storeBytes_take (bs : List Byte) (k : Nat) (buf : Vector (Option Byte) 16) (h : k + bs.length ≤ 16) :
    (storeBytes k bs buf).toList.take (k + bs.length) = buf.toList.take k ++ bs.map some := by
  rw [storeBytes_toList bs k buf h, List.take_append_of_le_length (by simp; omega), List.take_of_length_le (by simp)]

/-! ## Loading a payload (R164) -/

/-- What loading a payload leaves alone: everything but the data buffer and the event record. -/
structure OnlyLoaded (s t : State) : Prop where
  ctl : t.aux.ctl = s.aux.ctl
  cmd : t.aux.cmd = s.aux.cmd
  inFlight : t.aux.inFlight = s.aux.inFlight
  port : t.port = s.port
  sb : t.sb = s.sb
  phy : t.phy = s.phy
  ctx : t.ctx = s.ctx
  op : t.op = s.op
  host : t.host = s.host
  chan : t.chan = s.chan
  par : t.par = s.par

theorem OnlyLoaded.refl (s : State) : OnlyLoaded s s := ⟨rfl, rfl, rfl, rfl, rfl, rfl, rfl, rfl, rfl, rfl, rfl⟩

theorem OnlyLoaded.trans {a b c : State} (h : OnlyLoaded a b) (g : OnlyLoaded b c) : OnlyLoaded a c :=
  ⟨g.ctl.trans h.ctl, g.cmd.trans h.cmd, g.inFlight.trans h.inFlight, g.port.trans h.port, g.sb.trans h.sb,
    g.phy.trans h.phy, g.ctx.trans h.ctx, g.op.trans h.op, g.host.trans h.host, g.chan.trans h.chan, g.par.trans h.par⟩

theorem onlyLoaded_writeAuxData (i : Nat) (v : Word) (s : State) : OnlyLoaded s (s.writeAuxData i v) :=
  ⟨rfl, rfl, rfl, rfl, rfl, rfl, rfl, rfl, rfl, rfl, rfl⟩

theorem loadPayload_only (i : Nat) (payload : List Byte) (s : State) : OnlyLoaded s (s.loadPayload i payload) := by
  induction i, payload, s using State.loadPayload.induct with
  | case1 i s => exact .refl s
  | case2 i s b0 => exact onlyLoaded_writeAuxData ..
  | case3 i s b0 b1 => exact onlyLoaded_writeAuxData ..
  | case4 i s b0 b1 b2 => exact onlyLoaded_writeAuxData ..
  | case5 i s b0 b1 b2 b3 rest ih => exact (onlyLoaded_writeAuxData ..).trans ih

/-- Writing one register stores its four bytes. -/
theorem writeAuxData_take (i : Nat) (a b c d : Byte) (s : State) (h : 4 * i + 4 ≤ 16) :
    (s.writeAuxData i (packWord s.par.packing a b c d)).aux.buf.toList.take (4 * i + 4)
      = s.aux.buf.toList.take (4 * i) ++ [some a, some b, some c, some d] := by
  have := storeBytes_take [a, b, c, d] (4 * i) s.aux.buf h
  simpa using this

/-- A loaded payload stands in the buffer, whatever the packing (R39, R164). -/
theorem loadPayload_take (i : Nat) (payload : List Byte) (s : State) (h : 4 * i + payload.length ≤ 16) :
    (s.loadPayload i payload).aux.buf.toList.take (4 * i + payload.length)
      = s.aux.buf.toList.take (4 * i) ++ payload.map some := by
  induction i, payload, s using State.loadPayload.induct with
  | case1 i s => simp [State.loadPayload]
  | case2 i s b0 =>
    simp only [List.length_cons, List.length_nil] at h
    have := congrArg (List.take (4 * i + 1)) (writeAuxData_take i b0 0 0 0 s (by omega))
    simpa [State.loadPayload, List.take_take, List.take_append, show min (4 * i) 16 = 4 * i by omega,
      show 4 * i + 1 - 4 * i = 1 by omega] using this
  | case3 i s b0 b1 =>
    simp only [List.length_cons, List.length_nil] at h
    have := congrArg (List.take (4 * i + 2)) (writeAuxData_take i b0 b1 0 0 s (by omega))
    simpa [State.loadPayload, List.take_take, List.take_append, show min (4 * i) 16 = 4 * i by omega,
      show 4 * i + 2 - 4 * i = 2 by omega] using this
  | case4 i s b0 b1 b2 =>
    simp only [List.length_cons, List.length_nil] at h
    have := congrArg (List.take (4 * i + 3)) (writeAuxData_take i b0 b1 b2 0 s (by omega))
    simpa [State.loadPayload, List.take_take, List.take_append, show min (4 * i) 16 = 4 * i by omega,
      show 4 * i + 3 - 4 * i = 3 by omega] using this
  | case5 i s b0 b1 b2 b3 rest ih =>
    simp only [List.length_cons] at h
    have := ih (by omega)
    rw [show 4 * (i + 1) = 4 * i + 4 by ring, writeAuxData_take i b0 b1 b2 b3 s (by omega)] at this
    simp only [State.loadPayload, List.length_cons, List.map_cons]
    rw [show 4 * i + (rest.length + 1 + 1 + 1 + 1) = 4 * i + 4 + rest.length by omega, this]
    simp

/-! ## Reading a reply (R168) -/

/-- The reply's bytes are the first `len` bytes of the buffer, whatever the packing. -/
theorem replyBytes_eq (len : Nat) (s : State) : s.replyBytes len = allSome (s.aux.buf.toList.take len) := by
  simp only [State.replyBytes, unpackLanes_auxDataLanes, flatMap_drop_take, List.take_take]
  congr 2
  simp only [auxDataCount]
  omega

/-- After a reply of at least `len` bytes the reading gives its first `len` bytes. -/
theorem replyBytes_complete (status : BitVec 4) (bytes : List Byte) (len : Nat) (s : State)
    (h : len ≤ bytes.length) (h16 : bytes.length ≤ 16) :
    (s.complete (.reply status bytes)).replyBytes len = some (bytes.take len) := by
  rw [replyBytes_eq]
  have : (s.complete (.reply status bytes)).aux.buf.toList.take len = (bytes.take len).map some := by
    have := congrArg (List.take len) (storeBytes_take bytes 0 s.aux.buf (by omega))
    simpa [State.complete, List.take_take, List.map_take, h] using this
  rw [this, allSome_map_some]

/-! ## The PHY's registers (R43, R50) -/

/-- An entry after an insertion is the new one or was there before. -/
theorem Memory.mem_insert {a d : Nat} : ∀ {m : Memory} {p : Nat × Nat}, p ∈ Memory.insert a d m → p = (a, d) ∨ p ∈ m := by
  intro m
  induction m with
  | nil => intro p hp; exact .inl (List.mem_singleton.mp hp)
  | cons q m ih =>
    intro p hp
    obtain ⟨b, e⟩ := q
    simp only [Memory.insert] at hp
    split_ifs at hp with h1 h2
    · exact List.mem_cons.mp hp
    · exact (List.mem_cons.mp hp).imp_right (List.mem_cons_of_mem _)
    · rcases List.mem_cons.mp hp with rfl | hp
      · exact .inr List.mem_cons_self
      · exact (ih hp).imp_right (List.mem_cons_of_mem _)

/-- An insertion keeps the addresses rising. -/
theorem Memory.insert_rising (a d : Nat) {m : Memory} (h : m.Pairwise fun p q => p.1 < q.1) :
    (Memory.insert a d m).Pairwise fun p q => p.1 < q.1 := by
  induction m with
  | nil => exact List.pairwise_singleton _ _
  | cons q m ih =>
    obtain ⟨b, e⟩ := q
    obtain ⟨hb, hm⟩ := List.pairwise_cons.mp h
    simp only [Memory.insert]
    split_ifs with h1 h2
    · refine List.pairwise_cons.mpr ⟨fun p hp => ?_, h⟩
      rcases List.mem_cons.mp hp with rfl | hp
      · exact h1
      · exact lt_trans h1 (hb p hp)
    · exact List.pairwise_cons.mpr ⟨fun p hp => h2 ▸ hb p hp, hm⟩
    · refine List.pairwise_cons.mpr ⟨fun p hp => ?_, ih hm⟩
      rcases Memory.mem_insert hp with rfl | hp
      · show b < a; omega
      · exact hb p hp

@[simp] theorem Memory.wf_nil (w : Nat) : Memory.wf w [] := ⟨List.Pairwise.nil, fun _ hp => absurd hp List.not_mem_nil⟩

/-- The one memory operation keeps the canonical form. -/
theorem Memory.write_wf (w a d : Nat) {m : Memory} (h : Memory.wf w m) : Memory.wf w (Memory.write w a d m) := by
  unfold Memory.write
  split_ifs with hd
  · exact ⟨h.1.filter _, fun p hp => h.2 p (List.mem_of_mem_filter hp)⟩
  · refine ⟨Memory.insert_rising a d h.1, fun p hp => ?_⟩
    rcases Memory.mem_insert hp with rfl | hp
    · exact hd
    · exact h.2 p hp

/-- Reading the address just written gives the value written. -/
@[simp] theorem Memory.read_write_same (w a d : Nat) (m : Memory) : Memory.read w (Memory.write w a d m) a = d := by
  unfold Memory.write
  split_ifs with hd
  · induction m with
    | nil => exact hd.symm
    | cons q m ih =>
      obtain ⟨b, e⟩ := q
      by_cases h : b = a
      · simpa [h] using ih
      · simpa [h, Memory.read, Ne.symm h] using ih
  · clear hd
    induction m with
    | nil => simp [Memory.insert, Memory.read]
    | cons q m ih =>
      obtain ⟨b, e⟩ := q
      simp only [Memory.insert]
      split_ifs with h1 h2
      · simp [Memory.read]
      · simp [Memory.read]
      · simp [Memory.read, h2, ih]

/-- A write leaves every other address alone. -/
theorem Memory.read_write_other {a c : Nat} (w d : Nat) (m : Memory) (h : c ≠ a) :
    Memory.read w (Memory.write w a d m) c = Memory.read w m c := by
  unfold Memory.write
  split_ifs with hd
  · clear hd
    induction m with
    | nil => rfl
    | cons q m ih =>
      obtain ⟨b, e⟩ := q
      by_cases hb : b = a
      · subst hb; simpa [Memory.read, h] using ih
      · simp [hb, Memory.read, ih]
  · clear hd
    induction m with
    | nil => simp [Memory.insert, Memory.read, h]
    | cons q m ih =>
      obtain ⟨b, e⟩ := q
      simp only [Memory.insert]
      split_ifs with h1 h2
      · simp [Memory.read, h]
      · subst h2; simp [Memory.read, h]
      · simp only [Memory.read, ih]

/-- An address below every entry reads as an unlisted one. -/
theorem Memory.read_below {w a : Nat} : ∀ {m : Memory}, (∀ p ∈ m, a < p.1) → Memory.read w m a = phyHeldAt w a := by
  intro m
  induction m with
  | nil => intro _; rfl
  | cons q m ih =>
    intro h
    obtain ⟨b, e⟩ := q
    have hb : a < b := h (b, e) List.mem_cons_self
    simp only [Memory.read, if_neg (Nat.ne_of_lt hb)]
    exact ih fun p hp => h p (List.mem_cons_of_mem _ hp)

/-- Equal registers are equal lists: the form is canonical. -/
theorem Memory.ext_of_wf {w : Nat} : ∀ {m n : Memory}, Memory.wf w m → Memory.wf w n →
    (∀ a, Memory.read w m a = Memory.read w n a) → m = n := by
  intro m
  induction m with
  | nil =>
    intro n _ hn h
    cases n with
    | nil => rfl
    | cons q n => exact absurd (by simpa [Memory.read] using (h q.1).symm) (hn.2 q List.mem_cons_self)
  | cons q m ih =>
    intro n hm hn h
    obtain ⟨b, e⟩ := q
    obtain ⟨mb, mr⟩ := List.pairwise_cons.mp hm.1
    have me : e ≠ phyHeldAt w b := hm.2 (b, e) List.mem_cons_self
    cases n with
    | nil => exact absurd (by simpa [Memory.read] using h b) me
    | cons r n =>
      obtain ⟨c, f⟩ := r
      obtain ⟨nc, nr⟩ := List.pairwise_cons.mp hn.1
      have ne : f ≠ phyHeldAt w c := hn.2 (c, f) List.mem_cons_self
      have hbc : b = c := by
        rcases Nat.lt_trichotomy b c with hlt | heq | hgt
        · refine absurd ?_ me
          have hb := h b
          rw [Memory.read_below (m := (c, f) :: n) (fun p hp => by
            rcases List.mem_cons.mp hp with rfl | hp
            · exact hlt
            · exact lt_trans hlt (nc p hp))] at hb
          simpa [Memory.read] using hb
        · exact heq
        · refine absurd ?_ ne
          have hc := h c
          rw [Memory.read_below (m := (b, e) :: m) (fun p hp => by
            rcases List.mem_cons.mp hp with rfl | hp
            · exact hgt
            · exact lt_trans hgt (mb p hp))] at hc
          simpa [Memory.read] using hc.symm
      subst hbc
      have hef : e = f := by simpa [Memory.read] using h b
      subst hef
      congr 1
      refine ih ⟨mr, fun p hp => hm.2 p (List.mem_cons_of_mem _ hp)⟩ ⟨nr, fun p hp => hn.2 p (List.mem_cons_of_mem _ hp)⟩
        fun a => ?_
      by_cases ha : a = b
      · subst ha; rw [Memory.read_below mb, Memory.read_below nc]
      · simpa [Memory.read, ha] using h a

end Sys2Proof.Machine
end

