-- ==== Sys2Proof/Laws/Engine.lean ====
section
/-! SUPPORT. The AUX engine: what beginning an attempt does, what an outcome of the AUX channel does to the transaction that
awaits it, and when a host operation begins (41_aux_engine.md). -/

namespace Sys2Proof.Machine

/-! ## Host operations (R47, R49) -/

theorem hostOp_idle {i : Instr} {s : State} (body : State → Out) (hw : i.wellFormed = true) (hs : s.op = .idle) :
    hostOp i s body = body (s.log (.opStart i)) := by
  simp [hostOp, hw, hs]

theorem hostOp_illFormed {i : Instr} (s : State) (body : State → Out) (hw : i.wellFormed = false) :
    hostOp i s body = .refused .hostOperandRefused := by
  simp [hostOp, hw]

theorem hostOp_busy {i : Instr} {s : State} {pos : Position} (body : State → Out) (hw : i.wellFormed = true)
    (hs : s.op = .busy pos) : hostOp i s body = .refused .hostWhileBusy := by
  simp [hostOp, hw, hs]

/-- A host operation that answers a next state was well-formed and began while `op_state = Idle`. -/
theorem hostOp_next {i : Instr} {s t : State} {body : State → Out} (h : hostOp i s body = .next t) :
    i.wellFormed = true ∧ s.op = .idle ∧ body (s.log (.opStart i)) = .next t := by
  cases hw : i.wellFormed with
  | false => simp [hostOp, hw] at h
  | true =>
    cases hs : s.op with
    | idle => exact ⟨rfl, rfl, by simpa [hostOp, hw, hs] using h⟩
    | busy pos => simp [hostOp, hw, hs] at h

/-! ## Beginning an attempt (R162 to R166) -/

/-- The clear leaves the three sticky bits 0 and the rest of `AUX_CTL` alone (R163). -/
@[simp] theorem clearAll_write (c : AuxCtl) :
    AuxCtl.clearAll.write c = { c with done := false, errTimeout := false, errReceive := false } := by
  simp [AuxCtl.write, AuxCtl.clearAll]

/-- What preparing an attempt changes. -/
structure Prepared (t : Txn) (s p : State) : Prop where
  ctl : p.aux.ctl = { s.aux.ctl with done := false, errTimeout := false, errReceive := false }
  ctx : p.ctx = { s.ctx with auxAttempt := s.ctx.auxAttempt + 1 }
  port : p.port = s.port
  sb : p.sb = s.sb
  phy : p.phy = s.phy
  host : p.host = s.host
  chan : p.chan = s.chan
  par : p.par = s.par
  loaded : t.cmd.isRead = false → t.payload.length ≤ 16 →
    p.aux.buf.toList.take t.payload.length = t.payload.map some
  kept : t.cmd.isRead = true → p.aux.buf = s.aux.buf

theorem prepareAttempt_spec (t : Txn) (s : State) : Prepared t s (s.prepareAttempt t) := by
  cases hr : t.cmd.isRead with
  | true =>
    simp only [State.prepareAttempt, hr, if_true]; exact ⟨by simp, rfl, rfl, rfl, rfl, rfl, rfl, rfl, by simp [hr], fun _ =>
        rfl⟩
  | false =>
    simp only [State.prepareAttempt, hr]
    have h := loadPayload_only 0 t.payload { s with ctx := { s.ctx with auxAttempt := s.ctx.auxAttempt + 1 } }.clearAuxCtl
    exact ⟨by simpa using h.ctl, h.ctx, h.port, h.sb, h.phy, h.host, h.chan, h.par,
      fun _ hl => by simpa using loadPayload_take 0 t.payload _ (by omega), by simp [hr]⟩

/-- The state in which the attempt of a transaction has just been issued. -/
def State.issued (t : Txn) (site : AuxSite) (s : State) : State :=
  let p := s.prepareAttempt t
  { p with
    op := .busy (.awaitAux t site)
    aux := { p.aux with ctl := { p.aux.ctl with busy := true }, cmd := t.word, inFlight := some ⟨t.word, t.payload⟩ }
    events := .auxCmdWrite t.word :: p.events }

theorem lm1_word_of_ok {t : Txn} (ok : t.Ok) : (Word.lm1 t.word).toNat + 1 = t.len := by
  obtain ⟨h1, h2, _⟩ := ok
  simp only [Txn.word, lm1_commandWord, BitVec.toNat_ofNat]
  omega

/-- The request of a transaction's word: the word, and the payload that stands in the buffer. -/
theorem requestFor_word {t : Txn} (ok : t.Ok) {buf : Vector (Option Byte) 16}
    (h : t.cmd.isRead = false → buf.toList.take t.payload.length = t.payload.map some) :
    requestFor t.word buf = some ⟨t.word, t.payload⟩ := by
  have hl := lm1_word_of_ok ok
  obtain ⟨-, -, h3⟩ := ok
  simp only [requestFor]
  have hc : AuxCmd.ofNibble? (Word.cmd t.word) = some t.cmd := by simp [Txn.word]
  simp only [hc, hl]
  cases hr : t.cmd.isRead with
  | true => simp_all
  | false =>
    simp only [hr, Bool.false_eq_true, if_false] at h3
    simp [← h3, h hr]

/-- An attempt of well-formed operands, begun while no attempt is in flight, is issued. -/
theorem attempt_eq {t : Txn} (site : AuxSite) {s : State} (ok : t.Ok) (hb : s.aux.ctl.busy = false) :
    attempt t site s = .next (s.issued t site) := by
  have hp := prepareAttempt_spec t s
  have hlen : t.cmd.isRead = false → t.payload.length ≤ 16 := by
    intro hr
    obtain ⟨-, h2, h3⟩ := ok
    simp only [hr, Bool.false_eq_true, if_false] at h3
    omega
  have hreq := requestFor_word ok (buf := (s.prepareAttempt t).aux.buf) fun hr => hp.loaded hr (hlen hr)
  have hbusy : (s.prepareAttempt t).aux.ctl.busy = false := by rw [hp.ctl]; exact hb
  simp [attempt, issue, State.issued, hreq, hbusy]

theorem beginTxn_eq {t : Txn} (site : AuxSite) {s : State} (ok : t.Ok) (hb : s.aux.ctl.busy = false) :
    beginTxn t site s = .next (State.issued t site { s with ctx := { s.ctx with auxAttempt := 0 } }) :=
  attempt_eq site ok hb

/-- What an issued attempt looks like, and what it leaves alone. -/
structure IssuedSpec (t : Txn) (site : AuxSite) (s u : State) : Prop where
  inFlight : InFlight t site u
  attempts : u.ctx = { s.ctx with auxAttempt := s.ctx.auxAttempt + 1 }
  replyStatus : u.aux.ctl.replyStatus = s.aux.ctl.replyStatus
  replyLen : u.aux.ctl.replyLen = s.aux.ctl.replyLen
  port : u.port = s.port
  sb : u.sb = s.sb
  phy : u.phy = s.phy
  host : u.host = s.host
  chan : u.chan = s.chan
  par : u.par = s.par

theorem issued_spec (t : Txn) (site : AuxSite) (s : State) : IssuedSpec t site s (s.issued t site) := by
  have hp := prepareAttempt_spec t s
  refine ⟨⟨rfl, rfl, ?_, ?_, ?_, rfl, rfl⟩, hp.ctx, ?_, ?_, hp.port, hp.sb, hp.phy, hp.host, hp.chan, hp.par⟩ <;>
    simp only [State.issued, hp.ctl]

/-! ## Outcomes (R44, R167 to R169) -/

theorem replyLen_toNat {n : Nat} (h : n ≤ 16) : (BitVec.ofNat 5 n).toNat = n := by
  rw [BitVec.toNat_ofNat]; omega

/-- An outcome of the AUX channel goes to the transaction that awaits it. -/
theorem answer_awaiting {o : AuxOutcome} {s : State} {t : Txn} {site : AuxSite} (ho : o.possible = true)
    (hop : s.op = .busy (.awaitAux t site)) (hb : s.aux.ctl.busy = true) :
    answer o s = verdict t site (s.complete o) := by
  simp [answer, ho, hb, resume, hop]

/-- The attempt's test after an outcome, the sticky bits clear before it (R167). -/
theorem attemptOk_complete {o : AuxOutcome} {c : AuxCtl} (ho : o.possible = true) (ht : c.errTimeout = false)
    (hr : c.errReceive = false) (cmd : AuxCmd) (len : Nat) :
    attemptOk (c.complete o) cmd len = !(o.fails cmd len) := by
  cases o with
  | timeout => simp [attemptOk, AuxCtl.complete, AuxOutcome.fails]
  | receiveError => simp [attemptOk, AuxCtl.complete, AuxOutcome.fails]
  | reply st bytes =>
    have h16 : bytes.length ≤ 16 := by simpa [AuxOutcome.possible] using ho
    have hl := replyLen_toNat h16
    have hlt : decide (len ≤ bytes.length) = !decide (bytes.length < len) := by
      by_cases h : len ≤ bytes.length <;> simp [h]; omega
    simp only [attemptOk, AuxCtl.complete, AuxOutcome.fails, ht, hr, hl, hlt, bne, Bool.not_false, Bool.true_and,
      Bool.not_or, Bool.not_and, Bool.not_not]

/-- A failing outcome fails the attempt whatever the sticky bits were. -/
theorem attemptOk_fails {o : AuxOutcome} (c : AuxCtl) {cmd : AuxCmd} {len : Nat} (ho : o.possible = true)
    (hf : o.fails cmd len = true) : attemptOk (c.complete o) cmd len = false := by
  cases o with
  | timeout => simp [attemptOk, AuxCtl.complete]
  | receiveError => simp [attemptOk, AuxCtl.complete]
  | reply st bytes =>
    have h16 : bytes.length ≤ 16 := by simpa [AuxOutcome.possible] using ho
    have hl := replyLen_toNat h16
    simp only [AuxOutcome.fails, Bool.or_eq_true, decide_eq_true_eq, Bool.and_eq_true] at hf
    rcases hf with h | ⟨h1, h2⟩
    · have h0 : (st == 0) = false := by simpa [bne] using h
      simp only [attemptOk, AuxCtl.complete, h0, Bool.and_false, Bool.false_and]
    · simp [attemptOk, AuxCtl.complete, h1, hl, h2]

/-- A failed attempt before the sixth is retried in full (R162, R167, R177, R178). -/
theorem verdict_retry {o : AuxOutcome} {t : Txn} (site : AuxSite) {s : State} (ho : o.possible = true)
    (hf : o.fails t.cmd t.len = true) (hn : s.ctx.auxAttempt < Config.auxMaxAttempts) :
    verdict t site (s.complete o) = attempt t site ((s.complete o).log (.auxCtlRead (s.complete o).aux.ctl)) := by
  have h : attemptOk (s.complete o).aux.ctl t.cmd t.len = false := attemptOk_fails s.aux.ctl ho hf
  simp [verdict, h, hn]

/-- The sixth failed attempt ends the transaction with `NoResponse` (R169). -/
theorem verdict_exhausted {o : AuxOutcome} {t : Txn} (site : AuxSite) {s : State} (ho : o.possible = true)
    (hf : o.fails t.cmd t.len = true) (hn : Config.auxMaxAttempts ≤ s.ctx.auxAttempt) :
    verdict t site (s.complete o)
      = deliver site (.err .noResponse) ((s.complete o).log (.auxCtlRead (s.complete o).aux.ctl)) := by
  have h : attemptOk (s.complete o).aux.ctl t.cmd t.len = false := attemptOk_fails s.aux.ctl ho hf
  simp [verdict, h, show ¬s.ctx.auxAttempt < Config.auxMaxAttempts by omega]

/-- The state in which a successful attempt's result is delivered: the outcome applied, `AUX_CTL` read, and for a
read the reply's registers read. -/
def State.accepted (t : Txn) (o : AuxOutcome) (s : State) : State :=
  let s := (s.complete o).log (.auxCtlRead (s.complete o).aux.ctl)
  if t.cmd.isRead then s.logReplyReads t.len else s

/-- What accepting a reply changes: the AUX controller and the event record, nothing else. -/
structure AcceptedSpec (o : AuxOutcome) (s u : State) : Prop where
  aux : u.aux = (s.complete o).aux
  port : u.port = s.port
  sb : u.sb = s.sb
  phy : u.phy = s.phy
  ctx : u.ctx = s.ctx
  op : u.op = s.op
  host : u.host = s.host
  chan : u.chan = s.chan
  par : u.par = s.par

theorem accepted_spec (t : Txn) (o : AuxOutcome) (s : State) : AcceptedSpec o s (s.accepted t o) := by
  cases hr : t.cmd.isRead <;> simp only [State.accepted, hr, if_true] <;>
    exact ⟨rfl, rfl, rfl, rfl, rfl, rfl, rfl, rfl, rfl⟩

/-- A successful attempt ends the transaction: the call that began it gets the reply's bytes (R167, R168, R176). -/
theorem verdict_success {t : Txn} (site : AuxSite) {s : State} {status : BitVec 4} {bytes : List Byte}
    (h16 : bytes.length ≤ 16) (hf : (AuxOutcome.reply status bytes).fails t.cmd t.len = false)
    (ht : s.aux.ctl.errTimeout = false) (hr : s.aux.ctl.errReceive = false) :
    verdict t site (s.complete (.reply status bytes))
      = deliver site (.ok (txnResult t bytes)) (s.accepted t (.reply status bytes)) := by
  have hok : attemptOk (s.complete (.reply status bytes)).aux.ctl t.cmd t.len = true := by
    have := attemptOk_complete (o := .reply status bytes) (by simpa [AuxOutcome.possible] using h16) ht hr t.cmd t.len
    rw [hf] at this
    exact this
  cases hread : t.cmd.isRead with
  | false => simp [verdict, hok, hread, State.accepted, txnResult]
  | true =>
    have hl : t.len ≤ bytes.length := by
      simp only [AuxOutcome.fails, hread, Bool.true_and, Bool.or_eq_false_iff, decide_eq_false_iff_not] at hf
      omega
    have hb := replyBytes_complete status bytes t.len s hl h16
    have hb' : ((s.complete (.reply status bytes)).log
        (.auxCtlRead (s.complete (.reply status bytes)).aux.ctl)).replyBytes t.len = some (bytes.take t.len) := hb
    simp only [verdict, hok, hread, if_true, hb', State.accepted, txnResult]

/-! ## A transaction begun (R162, R190, R195) -/

theorem cmdWrites_append (a b : List Event) : cmdWrites (a ++ b) = cmdWrites a + cmdWrites b := by
  induction a with
  | nil => simp [cmdWrites]
  | cons e a ih => cases e <;> simp only [List.cons_append, cmdWrites, ih] <;> omega

/-- Loading a payload records writes of `AUX_DATA` only. -/
theorem loadPayload_events (i : Nat) (payload : List Byte) (s : State) :
    ∃ new, (s.loadPayload i payload).events = new ++ s.events ∧ cmdWrites new = 0 ∧ new.filter Event.isPortWrite = [] := by
  induction i, payload, s using State.loadPayload.induct with
  | case1 i s => exact ⟨[], rfl, rfl, rfl⟩
  | case2 i s b0 => exact ⟨[_], rfl, rfl, rfl⟩
  | case3 i s b0 b1 => exact ⟨[_], rfl, rfl, rfl⟩
  | case4 i s b0 b1 b2 => exact ⟨[_], rfl, rfl, rfl⟩
  | case5 i s b0 b1 b2 b3 rest ih =>
    obtain ⟨new, h1, h2, h3⟩ := ih
    refine ⟨new ++ [.auxDataWrite i (packWord s.par.packing b0 b1 b2 b3)], ?_, ?_, ?_⟩
    · simp only [State.loadPayload, h1]; simp [State.writeAuxData]
    · rw [cmdWrites_append, h2]; rfl
    · simp [h3, Event.isPortWrite]

/-- Preparing an attempt records the clear and writes of `AUX_DATA`. -/
theorem prepareAttempt_events (t : Txn) (s : State) :
    ∃ new, (s.prepareAttempt t).events = new ++ s.events ∧ cmdWrites new = 0 ∧ new.filter Event.isPortWrite = []
      ∧ (t.cmd.isRead = true → new = [.auxCtlClear]) := by
  cases hr : t.cmd.isRead with
  | true => exact ⟨[.auxCtlClear], by simp [State.prepareAttempt, hr, State.clearAuxCtl], rfl, rfl, fun _ => rfl⟩
  | false =>
    obtain ⟨new, h1, h2, h3⟩ :=
      loadPayload_events 0 t.payload { s with ctx := { s.ctx with auxAttempt := s.ctx.auxAttempt + 1 } }.clearAuxCtl
    refine ⟨new ++ [.auxCtlClear], ?_, ?_, ?_, by simp⟩
    · simp only [State.prepareAttempt, hr, Bool.false_eq_true, if_false, h1]; simp [State.clearAuxCtl]
    · rw [cmdWrites_append, h2]; rfl
    · simp [h3, Event.isPortWrite]

/-- What a transaction begun looks like: its first attempt is in flight, and nothing but the AUX controller, `aux_attempt`,
`op_state` and the event record differs. -/
structure Begun (t : Txn) (site : AuxSite) (s u : State) : Prop where
  inFlight : InFlight t site u
  ctx : u.ctx = { s.ctx with auxAttempt := 1 }
  replyStatus : u.aux.ctl.replyStatus = s.aux.ctl.replyStatus
  replyLen : u.aux.ctl.replyLen = s.aux.ctl.replyLen
  port : u.port = s.port
  sb : u.sb = s.sb
  phy : u.phy = s.phy
  host : u.host = s.host
  chan : u.chan = s.chan
  par : u.par = s.par
  events : ∃ new, u.events = .auxCmdWrite t.word :: (new ++ s.events) ∧ cmdWrites new = 0
    ∧ new.filter Event.isPortWrite = [] ∧ (t.cmd.isRead = true → new = [.auxCtlClear])

theorem beginTxn_begun {t : Txn} (site : AuxSite) {s : State} (ok : t.Ok) (hb : s.aux.ctl.busy = false) :
    ∃ u, beginTxn t site s = .next u ∧ Begun t site s u := by
  refine ⟨_, beginTxn_eq site ok hb, ?_⟩
  have h := issued_spec t site { s with ctx := { s.ctx with auxAttempt := 0 } }
  refine ⟨h.inFlight, h.attempts, h.replyStatus, h.replyLen, h.port, h.sb, h.phy, h.host, h.chan, h.par, ?_⟩
  obtain ⟨new, h1, h2, h3, h4⟩ := prepareAttempt_events t { s with ctx := { s.ctx with auxAttempt := 0 } }
  exact ⟨new, by simp only [State.issued, h1], h2, h3, h4⟩

theorem memRead_begun {a : Addr} {n : Nat} (site : AuxSite) {s : State} (h1 : 1 ≤ n) (h2 : n ≤ 16)
    (hb : s.aux.ctl.busy = false) : ∃ u, memRead a n site s = .next u ∧ Begun (readTxn a n) site s u :=
  beginTxn_begun site ⟨h1, h2, by simp [AuxCmd.isRead]⟩ hb

theorem memWrite_begun {a : Addr} {n : Nat} {v : Word} (site : AuxSite) {s : State} (h1 : 1 ≤ n) (h2 : n ≤ 16)
    (hb : s.aux.ctl.busy = false) :
    ∃ u, memWrite a n v site s = .next u ∧ Begun ⟨.nativeWrite, a, n, leBytes n v⟩ site s u :=
  beginTxn_begun site ⟨h1, h2, by simp [AuxCmd.isRead, leBytes]⟩ hb

/-- The one byte of a one-byte write. -/
theorem leBytes_one (v : Byte) : leBytes 1 (v.setWidth 32) = [v] := by
  simp only [leBytes, List.range_succ, List.range_zero, List.nil_append, List.map_cons, List.map_nil, List.cons.injEq, and_true]
  apply BitVec.eq_of_toNat_eq
  simp [BitVec.extractLsb'_toNat]
  exact v.isLt

theorem byteWrite_begun {a : Addr} (b : Byte) (site : AuxSite) {s : State} (hb : s.aux.ctl.busy = false) :
    ∃ u, memWrite a 1 (b.setWidth 32) site s = .next u ∧ Begun (byteWriteTxn a b) site s u := by
  have := memWrite_begun (a := a) (v := b.setWidth 32) site (le_refl 1) (by omega) hb
  rwa [leBytes_one] at this

/-! ## Replies to an attempt that is awaited (R176 to R178) -/

/-- REPLY_ACK with enough bytes ends the transaction. -/
theorem replyAck_delivers {s : State} {t : Txn} {site : AuxSite} {data : List Byte} (h : Awaiting t site s)
    (h16 : data.length ≤ 16) (hl : t.cmd.isRead = true → t.len ≤ data.length) :
    exec (.replyAck data) s = deliver site (.ok (txnResult t data)) (s.accepted t (.reply 0 data)) := by
  obtain ⟨hop, hb, ht, hr⟩ := h
  have hf : (AuxOutcome.reply 0 data).fails t.cmd t.len = false := by
    cases hc : t.cmd.isRead with
    | false => simp [AuxOutcome.fails, hc]
    | true => simpa [AuxOutcome.fails, hc] using hl hc
  show answer (.reply 0 data) s = _
  rw [answer_awaiting (by simpa [AuxOutcome.possible] using h16) hop hb, verdict_success site h16 hf ht hr]

/-- An outcome that fails before the sixth attempt. -/
theorem answer_retries {s : State} {t : Txn} {site : AuxSite} {o : AuxOutcome} (hop : s.op = .busy (.awaitAux t site))
    (hb : s.aux.ctl.busy = true) (ok : t.Ok) (ho : o.possible = true) (hf : o.fails t.cmd t.len = true)
    (hn : s.ctx.auxAttempt < Config.auxMaxAttempts) :
    answer o s = .next (((s.complete o).log (.auxCtlRead (s.complete o).aux.ctl)).issued t site) := by
  rw [answer_awaiting ho hop hb, verdict_retry site ho hf hn]
  exact attempt_eq site ok (by cases o <;> rfl)

/-- An outcome that fails the sixth attempt. -/
theorem answer_exhausts {s : State} {t : Txn} {site : AuxSite} {o : AuxOutcome} (hop : s.op = .busy (.awaitAux t site))
    (hb : s.aux.ctl.busy = true) (ho : o.possible = true) (hf : o.fails t.cmd t.len = true)
    (hn : Config.auxMaxAttempts ≤ s.ctx.auxAttempt) :
    answer o s = deliver site (.err .noResponse) ((s.complete o).log (.auxCtlRead (s.complete o).aux.ctl)) := by
  rw [answer_awaiting ho hop hb, verdict_exhausted site ho hf hn]

/-- What `answer` gives is what the answer's row gives. -/
theorem answerGives {o : AuxOutcome} {s u : State} (h : answer o s = .next u) : AnswerGives o s u :=
  ⟨h, fun _ => ⟨by rintro rfl; exact h, by rintro rfl; exact h, by rintro rfl; exact h⟩⟩

/-- The AUX channel's step while an attempt is in flight, whatever the outcome is called. -/
theorem channelStep_eq (s : State) : channelStep s = answer s.nextOutcome.1 s.nextOutcome.2 := by
  unfold channelStep
  split
  · rename_i status data s' heq
    rw [heq]
    simp only [replyInstr?]
    split_ifs with h0 h1 h2
    · subst h0; rfl
    · subst h1; rfl
    · subst h2; rfl
    · rfl
  · rename_i o s' _ heq
    rw [heq]

theorem step_awaitAux {s : State} {t : Txn} {site : AuxSite} (hr : s.host.reset = false)
    (hop : s.op = .busy (.awaitAux t site)) (hb : s.aux.ctl.busy = true) :
    step s = answer s.nextOutcome.1 s.nextOutcome.2 := by
  simp [step, hr, hop, busyStep, hb, channelStep_eq]

end Sys2Proof.Machine
end

