-- ==== Sys2Proof/Laws/Frame.lean ====
section
/-! SUPPORT. What every part of the engine leaves alone: the parameters, the PHY's registers, the link configuration the host
chose, the past events, the written bytes of the data buffer, and the host's result until an operation ends. -/

namespace Sys2Proof.Machine

/-- A byte of the buffer that held a value still holds one (R40). -/
def BufferKept (s u : State) : Prop := ∀ k : Fin 16, s.aux.buf[k].isSome = true → u.aux.buf[k].isSome = true

/-- Storing bytes takes no value away. -/
theorem storeBytes_mono (bs : List Byte) : ∀ (k : Nat) (buf : Vector (Option Byte) 16) (j : Fin 16), buf[j].isSome = true →
    (storeBytes k bs buf)[j].isSome = true := by
  induction bs with
  | nil => intro k buf j h; exact h
  | cons b bs ih =>
    intro k buf j h
    apply ih
    simp only [Fin.getElem_fin, Vector.getElem_setIfInBounds] at h ⊢
    split <;> simp_all

/-- What no part of the engine changes but by ending an operation. -/
structure Keeps (s u : State) : Prop where
  par : u.par = s.par
  phy : u.phy = s.phy
  lc : u.ctx.lc.laneCount = s.ctx.lc.laneCount ∧ u.ctx.lc.linkRate = s.ctx.lc.linkRate
      ∧ u.ctx.lc.enhancedFraming = s.ctx.lc.enhancedFraming
  ev : ∃ new, u.events = new ++ s.events
  mono : BufferKept s u
  hostRes : u.host.result = s.host.result ∨ (u.op = .idle ∧ ∃ r, u.host.result = some r ∧ u.events.head? = some (.opEnd r))

/-- Two parts in a row. -/
theorem Keeps.trans {a b c : State} (h : Keeps a b) (hb : b.host.result = a.host.result) (g : Keeps b c) : Keeps a c := by
  obtain ⟨n1, e1⟩ := h.ev
  obtain ⟨n2, e2⟩ := g.ev
  exact ⟨g.par.trans h.par, g.phy.trans h.phy, ⟨g.lc.1.trans h.lc.1, g.lc.2.1.trans h.lc.2.1, g.lc.2.2.trans h.lc.2.2⟩,
      ⟨n2 ++ n1, by rw [e2, e1]; simp⟩, fun k hk => g.mono k (h.mono k hk), by rw [← hb]; exact g.hostRes⟩

theorem keeps_load (i p) (s : State) : Keeps s (s.loadPayload i p) := by
  have h := loadPayload_only i p s
  obtain ⟨new, e, -⟩ := loadPayload_events i p s
  refine ⟨h.par, h.phy, by rw [h.ctx]; exact ⟨rfl, rfl, rfl⟩, ⟨new, e⟩, ?_, .inl (by rw [h.host])⟩
  clear h e
  induction i, p, s using State.loadPayload.induct with
  | case1 i s => exact fun _ h => h
  | case2 i s b0 => exact fun k h => storeBytes_mono _ _ _ k h
  | case3 i s b0 b1 => exact fun k h => storeBytes_mono _ _ _ k h
  | case4 i s b0 b1 b2 => exact fun k h => storeBytes_mono _ _ _ k h
  | case5 i s b0 b1 b2 b3 rest ih => exact fun k h => ih k (storeBytes_mono _ _ _ k h)

/-- An attempt: what it keeps, and what it changes outside the AUX controller. -/
theorem keeps_attempt {t site} {s u : State} (h : attempt t site s = .next u) : Keeps s u ∧ u.port = s.port ∧ u.sb = s.sb
    ∧ u.ctx = { s.ctx with auxAttempt := s.ctx.auxAttempt + 1 } ∧ u.op = .busy (.awaitAux t site) := by
  have sp := prepareAttempt_spec t s
  obtain ⟨new, e, -⟩ := prepareAttempt_events t s
  have hm : BufferKept s (s.prepareAttempt t) := by
    unfold State.prepareAttempt
    split
    · exact fun _ h => h
    · exact fun k h => (keeps_load 0 t.payload _).mono k h
  unfold attempt issue at h
  split at h
  · simp at h
  split at h
  · simp at h
  obtain rfl := by simpa using h
  refine ⟨⟨sp.par, sp.phy, ?_, ⟨_ :: new, by show _ :: (s.prepareAttempt t).events = _; rw [e]; rfl⟩, hm, .inl ?_⟩, sp.port,
      sp.sb, sp.ctx, rfl⟩
  · show (s.prepareAttempt t).ctx.lc.laneCount = _ ∧ (s.prepareAttempt t).ctx.lc.linkRate = _ ∧
      (s.prepareAttempt t).ctx.lc.enhancedFraming = _
    rw [sp.ctx]; exact ⟨rfl, rfl, rfl⟩
  · show (s.prepareAttempt t).host.result = _
    rw [sp.host]

/-- A transaction begun. -/
theorem keeps_begin {t site} {s u : State} (h : beginTxn t site s = .next u) : Keeps s u ∧ u.port = s.port ∧ u.sb = s.sb
    ∧ u.ctx = { s.ctx with auxAttempt := 1 } ∧ u.op = .busy (.awaitAux t site) := by
  obtain ⟨h1, h2, h3, h4, h5⟩ := keeps_attempt h
  refine ⟨Keeps.trans ?_ ?_ h1, h2, h3, h4, h5⟩
  · exact ⟨rfl, rfl, ⟨rfl, rfl, rfl⟩, ⟨[], rfl⟩, fun _ h => h, .inl rfl⟩
  · rfl

theorem keeps_log (e) (s : State) : Keeps s (s.log e) := ⟨rfl, rfl, ⟨rfl, rfl, rfl⟩, ⟨[e], rfl⟩, fun _ h => h, .inl rfl⟩
theorem keeps_port (w) (s : State) : Keeps s (s.portWrite w) := ⟨rfl, rfl, ⟨rfl, rfl, rfl⟩, ⟨[_], rfl⟩, fun _ h => h, .inl rfl⟩
theorem keeps_exit (e) (s : State) : Keeps s (exitTraining e s) :=
    ⟨rfl, rfl, ⟨rfl, rfl, rfl⟩, ⟨[_, _], rfl⟩, fun _ h => h, .inl rfl⟩
theorem keeps_end (r) (s : State) : Keeps s (s.endOp r) :=
    ⟨rfl, rfl, ⟨rfl, rfl, rfl⟩, ⟨[_], rfl⟩, fun _ h => h, .inr ⟨rfl, r, rfl, rfl⟩⟩
theorem keeps_apply {l m site} {s u : State} (h : applyLevel l m site s = .next u) : Keeps s u := by
  unfold applyLevel at h
  split at h
  · obtain rfl := by simpa using h
    exact ⟨rfl, rfl, ⟨rfl, rfl, rfl⟩, ⟨[], rfl⟩, fun _ h => h, .inl rfl⟩
  · split at h
    · obtain rfl := by simpa using h
      exact keeps_end _ s
    · simp at h

theorem keeps_setupPort {s u : State} (h : setupPort s = .next u) : Keeps s u :=
  Keeps.trans (keeps_port _ s) rfl (Keeps.trans (keeps_port _ _) rfl (Keeps.trans (keeps_port _ _) rfl (keeps_begin h).1))

theorem keeps_ctx {s : State} {c : Context} (h : c.lc = s.ctx.lc) : Keeps s { s with ctx := c } :=
    ⟨rfl, rfl, by simp [h], ⟨[], rfl⟩, fun _ h => h, .inl rfl⟩

/-- Whatever a transaction's result makes the engine do. -/
theorem keeps_deliver {site r} {s u : State} (h : deliver site r s = .next u) : Keeps s u := by
  cases site with
  | laneSet site =>
    obtain rfl := by simpa [deliver] using h
    cases site <;> cases r <;> simp only [applyDone, setupDone, crAdjusted, eqStarted, eqAdjusted, crAuxFail,
        eqFail] <;> try exact keeps_end _ _
    all_goals try exact keeps_exit _ _
    all_goals try exact ⟨rfl, rfl, ⟨rfl, rfl, rfl⟩, ⟨[_], rfl⟩, fun _ h => h, .inl rfl⟩
    split
    · exact ⟨rfl, rfl, ⟨rfl, rfl, rfl⟩, ⟨[_, _], rfl⟩, fun _ h => h, .inl rfl⟩
    split
    · exact ⟨rfl, rfl, ⟨rfl, rfl, rfl⟩, ⟨[_, _], rfl⟩, fun _ h => h, .inl rfl⟩
    · exact ⟨rfl, rfl, ⟨rfl, rfl, rfl⟩, ⟨[_], rfl⟩, fun _ h => h, .inl rfl⟩
  | rdInterval =>
    simp only [deliver, setupInterval] at h
    split at h
    · obtain rfl := by simpa using h
      exact ⟨rfl, rfl, ⟨rfl, rfl, rfl⟩, ⟨[_, _], rfl⟩, fun _ h => h, .inl rfl⟩
    · refine Keeps.trans ?_ ?_ (keeps_setupPort h)
      · exact keeps_ctx rfl
      · rfl
  | exitPattern err =>
    obtain rfl := by simpa [deliver] using h
    exact ⟨rfl, rfl, ⟨rfl, rfl, rfl⟩, ⟨[_], rfl⟩, fun _ h => h, .inr ⟨rfl, _, rfl, rfl⟩⟩
  | _ =>
    cases r <;> simp only [deliver, setupBandwidth, setupPattern, setupLevel, crCheck, crAdjust, eqReapply, eqCheck, eqAdjust,
        crAuxFail, eqFail, eqBegin] at h <;>
    (repeat' split at h) <;>
    first
    | (obtain rfl := by simpa using h
       first | exact keeps_end _ _ | exact keeps_exit _ _)
    | exact (keeps_begin h).1
    | exact keeps_apply h
    | exact Keeps.trans (keeps_port _ _) rfl (keeps_begin h).1
    | exact Keeps.trans (keeps_ctx (c := { s.ctx with ltsmState := .equalization }) rfl) rfl
        (Keeps.trans (keeps_port _ _) rfl (keeps_begin h).1)

theorem keeps_complete (o) (s : State) : Keeps s (s.complete o) := by
  refine ⟨rfl, rfl, ⟨rfl, rfl, rfl⟩, ⟨[_], rfl⟩, ?_, .inl rfl⟩
  cases o with
  | reply st b => exact fun k h => storeBytes_mono _ _ _ k h
  | _ => exact fun _ h => h

theorem keeps_reads (n) (s : State) : Keeps s (s.logReplyReads n) := by
  refine ⟨rfl, rfl, ⟨rfl, rfl, rfl⟩, ?_, fun _ h => h, .inl rfl⟩
  exact ⟨_, rfl⟩

/-- The engine's verdict on an attempt. -/
theorem keeps_verdict {t site} {s u : State} (h : verdict t site s = .next u) : Keeps s u := by
  simp only [verdict] at h
  split at h
  · split at h
    · split at h
      · simp at h
      · exact Keeps.trans (keeps_log _ s) rfl (Keeps.trans (keeps_reads _ _) rfl (keeps_deliver h))
    · exact Keeps.trans (keeps_log _ s) rfl (keeps_deliver h)
  · split at h
    · exact Keeps.trans (keeps_log _ s) rfl (keeps_attempt h).1
    · exact Keeps.trans (keeps_log _ s) rfl (keeps_deliver h)

/-- The AUX channel's step. -/
theorem keeps_answer {o} {s u : State} (h : answer o s = .next u) : Keeps s u := by
  unfold answer at h
  split at h
  · simp at h
  split at h
  · unfold resume at h
    split at h
    · exact Keeps.trans (keeps_complete o s) rfl (keeps_verdict h)
    · obtain rfl := by simpa using h
      exact keeps_complete o s
  · simp at h

theorem keeps_chan {s : State} (c) : Keeps s { s with chan := c } := ⟨rfl, rfl, ⟨rfl, rfl, rfl⟩, ⟨[], rfl⟩, fun _ h => h, .inl rfl⟩

/-- AUX_EXECUTE up to its await. -/
theorem keeps_aux {c a l p} {s u : State} (h : auxTransaction c a l p s = .next u) : Keeps s u := by
  unfold auxTransaction at h
  split at h
  · obtain rfl := by simpa using h
    exact keeps_end _ _
  · exact (keeps_begin h).1

theorem keeps_hostOp {i : Instr} {s u : State} {body : State → Out}
    (hb : body (s.log (.opStart i)) = .next u → Keeps (s.log (.opStart i)) u) (h : hostOp i s body = .next u) : Keeps s u :=
  Keeps.trans (keeps_log _ s) rfl (hb (hostOp_next h).2.2)

/-- Every instruction but LINK_TRAIN, which sets the link configuration. -/
theorem keeps_exec {i : Instr} {s u : State} (hi : ∀ m r e, i ≠ .linkTrain m r e) (h : exec i s = .next u) : Keeps s u := by
  cases i with
  | replyAck d => exact keeps_answer h
  | replyNack d => exact keeps_answer h
  | replyDefer d => exact keeps_answer h
  | linkTrain m r e => exact absurd rfl (hi m r e)
  | _ =>
    simp only [exec, execNativeWrite, execNativeRead, execI2cWrite, execI2cRead, execI2cWriteMot, execI2cReadMot,
      execAuxExecute, execDpcdRead, execDpcdReadProbe, execDpcdWrite, execEpcApply] at h
    refine keeps_hostOp (fun h => ?_) h
    (repeat' split at h) <;> first
      | exact keeps_aux h
      | exact (keeps_begin h).1
      | exact keeps_apply h
      | (obtain rfl := by simpa using h
         exact keeps_end _ _)
      | simp at h

/-- Every step of a running operation but the PHY's completion. -/
theorem keeps_busyStep {pos} {s u : State} (h : busyStep pos s = .next u) (hp : ∀ a b c d, pos ≠ .awaitSb a b c d) : Keeps s u := by
  cases pos with
  | awaitAux t site =>
    simp only [busyStep] at h
    split at h
    · rw [channelStep_eq] at h
      refine Keeps.trans (b := s.nextOutcome.2) ?_ ?_ (keeps_answer h)
      · unfold State.nextOutcome; split <;> exact keeps_chan _
      · unfold State.nextOutcome; split <;> rfl
    · exact keeps_verdict h
  | sideband todo l m site =>
    cases todo with
    | nil => 
      refine Keeps.trans (b := (s.setMaxFlags l).setLaneLevels l m) ⟨rfl, rfl, ⟨rfl, rfl, rfl⟩, ⟨[], rfl⟩, fun _ h => h,
          .inl rfl⟩ rfl (keeps_begin h).1
    | cons w rest =>
      simp only [busyStep, sidebandHead, sidebandWrite] at h
      split at h
      · simp at h
      · obtain rfl := by simpa using h
        exact ⟨rfl, rfl, ⟨rfl, rfl, rfl⟩, ⟨[_, _, _], rfl⟩, fun _ h => h, .inl rfl⟩
  | awaitSb a b c d => exact absurd rfl (hp a b c d)
  | waiting us site =>
    cases site <;> simp only [busyStep, timerStep, crPoll, eqPoll, exitStepTwo] at h
    · exact Keeps.trans (keeps_log _ s) rfl (keeps_setupPort h)
    · exact Keeps.trans (b := { s.log .waitEnd with ctx := { s.ctx with crPolls := s.ctx.crPolls + 1 } }) ⟨rfl, rfl,
        ⟨rfl, rfl, rfl⟩, ⟨[_], rfl⟩, fun _ h => h, .inl rfl⟩ rfl (keeps_begin h).1
    · exact Keeps.trans (b := { s.log .waitEnd with ctx := { s.ctx with eqIter := s.ctx.eqIter + 1 } }) ⟨rfl, rfl,
        ⟨rfl, rfl, rfl⟩, ⟨[_], rfl⟩, fun _ h => h, .inl rfl⟩ rfl (keeps_begin h).1
    · exact Keeps.trans (b := (s.log .waitEnd).portWrite { inTraining := some false }) ⟨rfl, rfl, ⟨rfl, rfl, rfl⟩,
        ⟨[_, _], rfl⟩, fun _ h => h, .inl rfl⟩ rfl (keeps_begin h).1

/-- The await of a sideband write. -/
theorem awaitSb_cases {a b c d} {s u : State} (h : busyStep (.awaitSb a b c d) s = .next u) : 
   (s.sb.busy = true ∧ u = s.phyComplete.at (.sideband a b c d)) ∨ (s.sb.busy = false ∧ u = s.at (.sideband a b c d)) := by
  simp only [busyStep, sidebandAwait] at h
  split at h <;> rename_i hb
  · exact .inl ⟨hb, by simpa using h.symm⟩
  · exact .inr ⟨by simpa using hb, by simpa using h.symm⟩

/-- LINK_TRAIN up to its first await. -/
theorem linkTrain_keeps {m r e} {s u : State} (h : exec (.linkTrain m r e) s = .next u) : u.par = s.par ∧ u.phy = s.phy ∧
    (∃ new, u.events = new ++ s.events) ∧ BufferKept s u ∧ u.host.result = s.host.result ∧ u.op ≠ .idle := by
  simp only [exec, execLinkTrain] at h
  obtain ⟨-, -, h⟩ := hostOp_next h
  split at h
  · simp at h
  · rename_i m' _
    obtain ⟨g, -, -, -, g5⟩ := keeps_begin h
    obtain ⟨new, e'⟩ := g.ev
    refine ⟨g.par, g.phy, ⟨new ++ [_], by rw [e']; simp [State.initContext, State.log]; rfl⟩, g.mono, ?_, by simp [g5]⟩
    rcases g.hostRes with h | ⟨h, -⟩
    · exact h
    · rw [g5] at h; simp at h

end Sys2Proof.Machine
end

