-- ==== Sys2Proof/Laws/Invariant.lean ====
section
/-! SUPPORT. The invariant `Inv`, piece by piece: what beginning an attempt, a wait, an `Apply`, the exit actions or the end of an
operation does to it, then what the engine's reactions and the instructions do. -/

namespace Sys2Proof.Machine

/-! ## The parts of the invariant that do not depend on where the engine stands -/

/-- The invariant without `aux_attempt`'s bound and the position. -/
def Base (s : State) : Prop :=
  Memory.wf s.par.sbDataWidth s.phy ∧ LevelsLegal s.ctx ∧ s.ctx.crRepeat ≤ 5 ∧ s.ctx.eqIter ≤ 5 ∧ FlagsExclusive s.ctx.lc

/-- What holds at a call depends on the port and the context but for `aux_attempt`. -/
theorem auxSiteOk_congr {s u : State} {site : AuxSite} {n : Nat} (hp : u.port = s.port)
    (hc : u.ctx = { s.ctx with auxAttempt := n })
    (h : AuxSiteOk s site) : AuxSiteOk u site := by
  cases site with
  | laneSet site => cases site <;> simpa [AuxSiteOk, LaneSetOk, HostPhase, CrPhase, EqPhase, ExitPhase, LanesEqual, hp, hc] using h
  | _ => simpa [AuxSiteOk, LaneSetOk, HostPhase, CrPhase, EqPhase, ExitPhase, LanesEqual, hp, hc] using h

/-- Issuing an attempt gives the invariant. -/
theorem inv_issued {s u : State} {t : Txn} {site : AuxSite} (b : Base s) (ok : t.Ok) (hb : s.aux.ctl.busy = false)
    (hs : s.sb.busy = false) (ha : s.ctx.auxAttempt < 6) (hsite : AuxSiteOk s site) (htx : siteTxnOk t s.ctx.lc site)
    (h : attempt t site s = .next u) : Inv u := by
  rw [attempt_eq site ok hb] at h
  obtain rfl : s.issued t site = u := by simpa using h
  have sp := issued_spec t site s
  obtain ⟨b1, b2, b3, b4, b5⟩ := b
  refine ⟨by rw [sp.par, sp.phy]; exact b1, ?_, ?_, ?_, ?_⟩
  · rw [sp.attempts]; exact b2
  · rw [sp.attempts]; exact ⟨b3, b4, by simp [Config.auxMaxAttempts]; omega⟩
  · rw [sp.attempts]; exact b5
  · rw [sp.inFlight.1]
    refine ⟨ok, sp.inFlight, by rw [sp.sb]; exact hs, ?_, auxSiteOk_congr sp.port sp.attempts hsite, by rw [sp.attempts]; exact htx⟩
    rw [sp.attempts]; simp

/-- Beginning a transaction gives the invariant. -/
theorem inv_begin {s u : State} {t : Txn} {site : AuxSite} (b : Base s) (ok : t.Ok) (hb : s.aux.ctl.busy = false)
    (hs : s.sb.busy = false) (hsite : AuxSiteOk s site) (htx : siteTxnOk t s.ctx.lc site)
    (h : beginTxn t site s = .next u) : Inv u :=
  inv_issued (s := { s with ctx := { s.ctx with auxAttempt := 0 } }) b ok hb hs (by simp)
    (auxSiteOk_congr (n := 0) rfl rfl hsite) htx h

theorem leBytes_length (n : Nat) (v : Word) : (leBytes n v).length = n := by simp [leBytes]

/-- A DPCD read begun gives the invariant. -/
theorem inv_memRead {s u : State} {a n site} (b : Base s) (hb : s.aux.ctl.busy = false)
    (hs : s.sb.busy = false) (h1 : 1 ≤ n) (h2 : n ≤ 4) (hsite : AuxSiteOk s site) (htx : siteTxnOk (readTxn a n) s.ctx.lc site)
    (h : memRead a n site s = .next u) : Inv u :=
  inv_begin (t := readTxn a n) b ⟨h1, by show n ≤ 16; omega, by simp [readTxn, AuxCmd.isRead]⟩ hb hs hsite htx h

/-- A DPCD write begun gives the invariant. -/
theorem inv_memWrite {s u : State} {a n v site} (b : Base s) (hb : s.aux.ctl.busy = false)
    (hs : s.sb.busy = false) (h1 : 1 ≤ n) (h2 : n ≤ 4) (hsite : AuxSiteOk s site)
    (htx : siteTxnOk ⟨.nativeWrite, a, n, leBytes n v⟩ s.ctx.lc site)
    (h : memWrite a n v site s = .next u) : Inv u :=
  inv_begin b ⟨h1, by show n ≤ 16; omega, by simp [AuxCmd.isRead, leBytes_length]⟩ hb hs hsite htx h

/-- The invariant while the engine is between two accesses: both busy bits clear. -/
structure Quiet (s : State) : Prop where
  base : Base s
  att : s.ctx.auxAttempt ≤ 6
  aux : AuxQuiet s
  sb : s.sb.busy = false

/-- A quiet state at a position whose condition holds meets the invariant. -/
theorem inv_of_quiet {s : State} (q : Quiet s) (h : PositionOk s s.op) : Inv s :=
  ⟨q.base.1, q.base.2.1, ⟨q.base.2.2.1, q.base.2.2.2.1, q.att⟩, q.base.2.2.2.2, h⟩

/-- The exit actions begun give the invariant. -/
theorem inv_exit {s : State} (err) (q : Quiet s) (hl : s.ctx.ltsmState = exitFrom err) (he : LanesEqual s.ctx)
    (hp : s.port.enable = true) : Inv (exitTraining err s) := by
  apply inv_of_quiet
  · exact ⟨q.base, q.att, q.aux, q.sb⟩
  · exact ⟨q.aux, q.sb, hl, he, hp, rfl⟩

/-- An `Apply` begun gives the invariant. -/
theorem inv_apply {s u : State} {l lanes site} (q : Quiet s) (hsite : l.legal = true → ApplyOk s l lanes site)
    (hh : site = .host → HostPhase s)
    (h : applyLevel l lanes site s = .next u) : Inv u := by
  unfold applyLevel at h
  split at h
  · rename_i hl
    obtain rfl := by simpa using h
    exact inv_of_quiet ⟨q.base, q.att, q.aux, q.sb⟩ ⟨q.aux, q.sb, hl, by
      have := hsite hl
      cases site <;> exact this⟩
  · split at h
    · obtain rfl := by simpa using h
      exact inv_of_quiet ⟨q.base, q.att, q.aux, q.sb⟩ ⟨q.aux, q.sb, hh rfl⟩
    · simp at h

/-- A Clock Recovery poll's `Wait` gives the invariant. -/
theorem inv_crWait {s : State} (q : Quiet s) (h : CrPhase s) : Inv (crWait s) :=
  inv_of_quiet ⟨q.base, q.att, q.aux, q.sb⟩ ⟨q.aux, q.sb, h⟩

/-- An Equalization poll's `Wait` gives the invariant. -/
theorem inv_eqWait {s : State} (q : Quiet s) (h : EqPhase s) (h' : s.ctx.eqIter < 5) : Inv (eqWait s) :=
  inv_of_quiet ⟨q.base, q.att, q.aux, q.sb⟩ ⟨q.aux, q.sb, h, h'⟩

/-- The end of a host operation gives the invariant. -/
theorem inv_endHost {s : State} (r) (q : Quiet s) (h : HostPhase s) : Inv (s.endOp r) :=
  inv_of_quiet ⟨q.base, q.att, q.aux, q.sb⟩ ⟨q.aux, q.sb, h⟩

/-- The clamped level is legal (R220, R221). -/
theorem requestedLevel_legal (v : Word) (m : LaneCount) : (requestedLevel v m).legal = true := by
  have key : ∀ l : Level, (clamp l).legal = true := by
    intro l; obtain ⟨s, p⟩ := l; revert s p; decide
  exact key _

/-- The port's reconfiguration gives the invariant. -/
theorem inv_setupPort {s u : State} (q : Quiet s) (h1 : s.ctx.ltsmState = .clockRecovery) (h2 : LanesEqual s.ctx)
    (h3 : s.ctx.crRepeat < 5) (h : setupPort s = .next u) : Inv u :=
  inv_memWrite (s := ((s.portWrite { enable := some false }).portWrite
        { laneCount := some s.ctx.lc.laneCount, enhancedFraming := some s.ctx.lc.enhancedFraming,
            linkRate := some s.ctx.lc.linkRate }).portWrite
      { tpSel := some .none, enable := some true }) (site := .laneCountSet) q.base q.aux.1 q.sb (le_refl _)
          (by omega) ⟨h1, h2, rfl, h3⟩
     (by simp only [siteTxnOk, leBytes_one]; rfl) h

/-- Whatever a transaction's result makes the engine do gives the invariant. -/
theorem inv_deliver {s u : State} {site : AuxSite} {r} (q : Quiet s) (hs : AuxSiteOk s site)
    (h : deliver site r s = .next u) : Inv u := by
  obtain ⟨b, att, ⟨ab, ai⟩, sb⟩ := q
  have q : Quiet s := ⟨b, att, ⟨ab, ai⟩, sb⟩
  cases site with
  | auxExecute => obtain rfl := by simpa [deliver] using h
                  exact inv_endHost _ q hs
  | dpcdRead => obtain rfl := by simpa [deliver] using h
                exact inv_endHost _ q hs
  | dpcdReadProbe => obtain rfl := by simpa [deliver] using h
                     exact inv_endHost _ q hs
  | dpcdWrite => obtain rfl := by simpa [deliver] using h
                 exact inv_endHost _ q hs
  | laneSet site =>
    obtain rfl := by simpa [deliver] using h
    cases site with
    | host => exact inv_endHost _ q hs
    | setup =>
      cases r with
      | err e => exact inv_exit _ q hs.1 hs.2.1 hs.2.2.1
      | ok x =>
        refine inv_crWait ⟨⟨b.1, ⟨b.2.1.1, by show Level.legal ⟨0, 0⟩ = true; decide⟩, b.2.2⟩, att, ⟨ab, ai⟩, sb⟩ hs
    | crAdjust new =>
      cases r with
      | err e => exact inv_exit _ q hs.1.1 hs.1.2.1 hs.1.2.2.1
      | ok x =>
        simp only [applyDone, crAdjusted]
        obtain ⟨⟨c1, c2, c3, c4⟩, hl⟩ := hs
        have hq : Quiet { s with
            ctx := { s.ctx with applied := new, crRepeat := nextRepeat new s.ctx.applied s.ctx.crRepeat } } := by
          refine ⟨⟨b.1, ⟨b.2.1.1, hl⟩, ?_, b.2.2.2⟩, att, ⟨ab, ai⟩, sb⟩
          simp only [nextRepeat]; simp [Config.crSameLevelCap] at c4; split <;> omega
        split
        · exact inv_exit _ hq c1 c2 c3
        · split
          · exact inv_exit _ hq c1 c2 c3
          · rename_i h5 _
            refine inv_crWait hq ⟨c1, c2, c3, ?_⟩
            have := hq.base.2.2.1
            simp [Config.crSameLevelCap] at *
            omega
    | eqStart =>
      cases r with
      | err e => exact inv_exit _ q hs.1 hs.2.1 hs.2.2
      | ok x => exact inv_eqWait ⟨⟨b.1, b.2.1, b.2.2.1, by simp, b.2.2.2.2⟩, att, ⟨ab, ai⟩, sb⟩ hs (by simp)
    | eqAdjust new =>
      obtain ⟨h1, h2, h3⟩ := hs
      cases r with
      | err e => exact inv_exit _ q h1.1 h1.2.1 h1.2.2
      | ok x => exact inv_eqWait ⟨⟨b.1, ⟨b.2.1.1, h2⟩, b.2.2⟩, att, ⟨ab, ai⟩, sb⟩ h1 h3
  | rdInterval =>
    obtain ⟨h1, h2, h3⟩ := hs
    simp only [deliver, setupInterval] at h
    split at h
    · obtain rfl := by simpa using h
      exact inv_of_quiet ⟨b, att, ⟨ab, ai⟩, sb⟩ ⟨⟨ab, ai⟩, sb, h1, h2, h3⟩
    · exact inv_setupPort (s := {s with ctx := { s.ctx with rdInterval := (probeValue r).setWidth 8 }}) ⟨b, att, ⟨ab, ai⟩,
        sb⟩ h1 h2 h3 h
  | laneCountSet =>
    cases r with
    | err e => obtain rfl := by simpa [deliver, setupBandwidth] using h
               exact inv_exit _ q hs.1 hs.2.1 hs.2.2.1
    | ok x =>
      exact inv_memWrite (site := .linkBwSet) b ab sb (le_refl _) (by omega) hs (by simp only [siteTxnOk, leBytes_one]; rfl) h
  | linkBwSet =>
    cases r with
    | err e => obtain rfl := by simpa [deliver, setupPattern] using h
               exact inv_exit _ q hs.1 hs.2.1 hs.2.2.1
    | ok x =>
      exact inv_memWrite (s := s.portWrite { tpSel := some .pat1, inTraining := some true }) (site := .pattern1) b ab sb
          (le_refl _) (by omega) hs (by simp only [siteTxnOk, leBytes_one]; rfl) h
  | pattern1 =>
    cases r with
    | err e => obtain rfl := by simpa [deliver, setupLevel] using h
               exact inv_exit _ q hs.1 hs.2.1 hs.2.2.1
    | ok x => exact inv_apply (l := ⟨0, 0⟩) (site := .setup) q (fun _ => ⟨hs, rfl⟩) (by simp) h
  | crStatus =>
    cases r with
    | err e => obtain rfl := by simpa [deliver, crCheck] using h
               exact inv_exit _ q hs.1 hs.2.1 hs.2.2.1
    | ok x =>
      simp only [deliver, crCheck] at h
      split at h
      · unfold eqBegin at h
        exact inv_memWrite (s := { s with ctx := { s.ctx with ltsmState := .equalization } }.portWrite { tpSel := some .pat2 })
            (site := .pattern2) b ab sb (le_refl _) (by omega) ⟨rfl, hs.2.1, hs.2.2.1⟩
                (by simp only [siteTxnOk, leBytes_one]; rfl) h
      · exact inv_memRead (site := .crAdjust) b ab sb (by omega) (by omega) hs rfl h
  | crAdjust =>
    cases r with
    | err e => obtain rfl := by simpa [deliver, crAdjust] using h
               exact inv_exit _ q hs.1 hs.2.1 hs.2.2.1
    | ok x => exact inv_apply (site := .crAdjust _) q (fun _ => ⟨hs, rfl, rfl⟩) (by simp) h
  | pattern2 =>
    cases r with
    | err e => obtain rfl := by simpa [deliver, eqReapply] using h
               exact inv_exit _ q hs.1 hs.2.1 hs.2.2
    | ok x => exact inv_apply (site := .eqStart) q (fun _ => ⟨hs, rfl⟩) (by simp) h
  | eqStatus =>
    cases r with
    | err e => obtain rfl := by simpa [deliver, eqCheck] using h
               exact inv_exit _ q hs.1 hs.2.1 hs.2.2
    | ok x =>
      simp only [deliver, eqCheck] at h
      split at h
      · obtain rfl := by simpa using h
        exact inv_exit _ q hs.1 hs.2.1 hs.2.2
      split at h
      · obtain rfl := by simpa using h
        exact inv_exit _ q hs.1 hs.2.1 hs.2.2
      split at h
      · obtain rfl := by simpa using h
        exact inv_exit _ q hs.1 hs.2.1 hs.2.2
      · rename_i h5
        refine inv_memRead (site := .eqAdjust) b ab sb (by omega) (by omega) ⟨hs, ?_⟩ rfl h
        have := b.2.2.2.1
        simp [Config.eqIterCap] at *; omega
  | eqAdjust =>
    cases r with
    | err e => obtain rfl := by simpa [deliver, eqAdjust] using h
               exact inv_exit _ q hs.1.1 hs.1.2.1 hs.1.2.2
    | ok x => exact inv_apply (site := .eqAdjust _) q (fun _ => ⟨hs.1, rfl, rfl, hs.2⟩) (by simp) h
  | exitPattern err =>
    obtain rfl := by simpa [deliver] using h
    obtain ⟨⟨h1, h2, h3, h4⟩, h5⟩ := hs
    refine inv_endHost _ ⟨b, att, ⟨ab, ai⟩, sb⟩ ⟨?_, fun _ => ⟨h3, h4, h5⟩⟩
    dsimp only
    split <;> rfl

/-- AUX_EXECUTE begun gives the invariant. -/
theorem inv_begin_aux {s u : State} {c addr len payload} (q : Quiet s) (hh : HostPhase s)
    (hw : 1 ≤ len → len ≤ 16 → (if c.isRead then payload = [] else payload.length = len))
    (h : auxTransaction c addr len payload s = .next u) : Inv u := by
  simp only [auxTransaction] at h
  split at h
  · obtain rfl := by simpa using h
    exact inv_endHost _ q hh
  · rename_i hn
    simp [Config.auxMinLen, Config.auxMaxLen] at hn
    exact inv_begin (site := .auxExecute) q.base ⟨by show 1 ≤ len; omega, by show len ≤ 16; omega, hw (by omega)
        (by omega)⟩ q.aux.1 q.sb hh trivial h

/-- The byte counts that pass the check of R191. -/
theorem badCount_false {n} (h : badCount n = false) : 1 ≤ n ∧ n ≤ 4 := by
  have h' := Bool.or_eq_false_iff.mp h
  have h1 := of_decide_eq_false h'.1
  have h2 := of_decide_eq_false h'.2
  simp only [Config.dpcdMaxN] at h2
  omega

/-- The AUX channel's step keeps the invariant. -/
theorem inv_answer {s u : State} {o : AuxOutcome} (i : Inv s) (h : answer o s = .next u) : Inv u := by
  unfold answer at h
  split at h
  · simp at h
  rename_i hpos
  split at h
  swap
  · simp at h
  rename_i hbusy
  obtain ⟨m, l, c, f, p⟩ := i
  unfold resume at h
  have hop : (s.complete o).op = s.op := rfl
  rw [hop] at h
  rcases hop' : s.op with _ | pos
  · rw [hop'] at p; simp [PositionOk, AuxQuiet, hbusy] at p
  · cases pos with
    | awaitAux t site =>
      rw [hop'] at p h
      obtain ⟨p1, p2, p3, p4, p5, p6⟩ := p
      have q : ∀ s' : State, s'.par = s.par →
          s'.phy = s.phy → s'.ctx = s.ctx → s'.aux.ctl.busy = false → s'.aux.inFlight = none → s'.sb = s.sb → Quiet s' := by
        intro s' e0 e1 e2 e3 e4 e5
        exact ⟨⟨by rw [e0, e1]; exact m, by rw [e2]; exact l, by rw [e2]; exact c.1, by rw [e2]; exact c.2.1, by rw [e2]; exact f⟩,
            by rw [e2]; exact c.2.2, ⟨e3, e4⟩, by rw [e5]; exact p3⟩
      have hb0 : (s.complete o).aux.ctl.busy = false := by cases o <;> rfl
      simp only [verdict] at h
      split at h
      · split at h
        · split at h
          · simp at h
          · exact inv_deliver (q
              (((s.complete o).log (.auxCtlRead (s.complete o).aux.ctl)).logReplyReads t.len) rfl rfl rfl hb0 rfl rfl)
                  (auxSiteOk_congr (n := s.ctx.auxAttempt) rfl rfl p5) h
        · exact inv_deliver (q (((s.complete o).log (.auxCtlRead (s.complete o).aux.ctl))) rfl rfl rfl hb0 rfl rfl)
            (auxSiteOk_congr (n := s.ctx.auxAttempt) rfl rfl p5) h
      · split at h
        · rename_i hlt
          have Q := q ((s.complete o).log (.auxCtlRead (s.complete o).aux.ctl)) rfl rfl rfl hb0 rfl rfl
          exact inv_issued Q.base p1 hb0 p3 hlt (auxSiteOk_congr (n := s.ctx.auxAttempt) rfl rfl p5) p6 h
        · exact inv_deliver (q (((s.complete o).log (.auxCtlRead (s.complete o).aux.ctl))) rfl rfl rfl hb0 rfl rfl)
            (auxSiteOk_congr (n := s.ctx.auxAttempt) rfl rfl p5) h
    | _ => rw [hop'] at p; simp [PositionOk, AuxQuiet, hbusy] at p

/-- A host operation keeps the invariant if its body does. -/
theorem inv_hostOp {s u : State} {i : Instr} {body} (iv : Inv s)
    (hb : i.wellFormed = true → Quiet (s.log (.opStart i)) → HostPhase (s.log (.opStart i)) → body
        (s.log (.opStart i)) = .next u → Inv u)
    (h : hostOp i s body = .next u) : Inv u := by
  obtain ⟨hw, hi, h⟩ := hostOp_next h
  obtain ⟨m, l, c, f, p⟩ := iv
  rw [hi] at p
  exact hb hw ⟨⟨m, l, c.1, c.2.1, f⟩, c.2.2, p.1, p.2.1⟩ p.2.2 h

/-- An instruction keeps the invariant. -/
theorem inv_exec {s u : State} {i : Instr} (iv : Inv s) (h : exec i s = .next u) : Inv u := by
  cases i with
  | nativeWrite a l p =>
    exact inv_hostOp iv (fun hw q hh h => inv_begin_aux q hh
        (fun _ _ => by simpa [Instr.wellFormed, AuxCmd.isRead] using hw) h) h
  | i2cWrite a l p =>
    exact inv_hostOp iv (fun hw q hh h => inv_begin_aux q hh
        (fun _ _ => by simpa [Instr.wellFormed, AuxCmd.isRead] using hw) h) h
  | i2cWriteMot a l p =>
    exact inv_hostOp iv (fun hw q hh h => inv_begin_aux q hh
        (fun _ _ => by simpa [Instr.wellFormed, AuxCmd.isRead] using hw) h) h
  | nativeRead a l =>
    exact inv_hostOp (i := .nativeRead a l) (body := auxTransaction .nativeRead a (l.toNat + 1) []) iv
        (fun hw q hh h => inv_begin_aux q hh (fun _ _ => by simp [AuxCmd.isRead]) h) h
  | i2cRead a l =>
    exact inv_hostOp (i := .i2cRead a l) (body := auxTransaction .i2cRead a (l.toNat + 1) []) iv
        (fun hw q hh h => inv_begin_aux q hh (fun _ _ => by simp [AuxCmd.isRead]) h) h
  | i2cReadMot a l =>
    exact inv_hostOp (i := .i2cReadMot a l) (body := auxTransaction .i2cReadMot a (l.toNat + 1) []) iv
        (fun hw q hh h => inv_begin_aux q hh (fun _ _ => by simp [AuxCmd.isRead]) h) h
  | replyAck d => exact inv_answer iv h
  | replyNack d => exact inv_answer iv h
  | replyDefer d => exact inv_answer iv h
  | auxExecute c a l p =>
    simp only [exec, execAuxExecute] at h
    refine inv_hostOp iv (fun hw q hh h => ?_) h
    simp only [Instr.wellFormed] at hw
    split at h
    · simp at h
    · rename_i c' hc
      simp only [hc] at hw
      exact inv_begin_aux q hh (fun _ _ => by cases hr : c'.isRead <;> simp_all) h
  | dpcdRead a n =>
    simp only [exec, execDpcdRead] at h
    refine inv_hostOp iv (fun hw q hh h => ?_) h
    split at h
    · obtain rfl := by simpa using h
      exact inv_endHost _ q hh
    · rename_i hc
      have := badCount_false (by simpa using hc)
      exact inv_memRead (site := .dpcdRead) q.base q.aux.1 q.sb this.1 this.2 hh ⟨rfl, this.2⟩ h
  | dpcdReadProbe a n =>
    simp only [exec, execDpcdReadProbe] at h
    refine inv_hostOp iv (fun hw q hh h => ?_) h
    split at h
    · obtain rfl := by simpa using h
      exact inv_endHost _ q hh
    · rename_i hc
      have := badCount_false (by simpa using hc)
      exact inv_memRead (site := .dpcdReadProbe) q.base q.aux.1 q.sb this.1 this.2 hh ⟨rfl, this.2⟩ h
  | dpcdWrite a n v =>
    simp only [exec, execDpcdWrite] at h
    refine inv_hostOp iv (fun hw q hh h => ?_) h
    split at h
    · obtain rfl := by simpa using h
      exact inv_endHost _ q hh
    · rename_i hc
      have := badCount_false (by simpa using hc)
      exact inv_memWrite (site := .dpcdWrite) q.base q.aux.1 q.sb this.1 this.2 hh ⟨rfl, this.2⟩ h
  | epcApply a b m =>
    simp only [exec, execEpcApply] at h
    refine inv_hostOp iv (fun hw q hh h => ?_) h
    split at h
    · simp at h
    · exact inv_apply (site := .host) q (fun _ => hh) (fun _ => hh) h
  | linkTrain m r ef =>
    simp only [exec, execLinkTrain] at h
    refine inv_hostOp iv (fun hw q hh h => ?_) h
    split at h
    · simp at h
    · rename_i m' hm
      have s' := s.log (.opStart (.linkTrain m r ef))
      exact inv_memRead (s := { (s.log (.opStart (.linkTrain m r ef))).initContext m' r ef with ctx := {
          ((s.log (.opStart (.linkTrain m r ef))).initContext m' r ef).ctx with ltsmState := .clockRecovery } })
              (site := .rdInterval)
        ⟨q.base.1, ⟨fun i => by fin_cases i <;> simp [State.initContext] <;> decide, by show Level.legal ⟨0, 0⟩ = true; decide⟩,
            by simp [State.initContext], by simp [State.initContext], by simp [State.initContext, FlagsExclusive]⟩ q.aux.1 q.sb
                (by omega) (by omega)
        ⟨rfl, fun i j _ _ => by fin_cases i <;> fin_cases j <;> simp [State.initContext],
            by simp [State.initContext, Config.crSameLevelCap]⟩ rfl h

/-- A legal level sets at most one max flag (R216). -/
theorem maxflags (l : Level) (h : l.legal = true) : ¬(maxSwing l = true ∧ maxPre l = true) := by
  obtain ⟨s, p⟩ := l; revert s p h; decide

/-- `setLanes` sets the first `m` lanes (R215). -/
theorem setLanes_get (l : Level) (lane : Vector Level 4) (m : LaneCount) (k : Fin 4) :
    (setLanes m.toNat l lane)[k] = if k.val < m.toNat then l else lane[k] := by
  cases m <;> fin_cases k <;> simp [LaneCount.toNat, setLanes]

/-- What holds during an `Apply` depends on the port and the context. -/
theorem applyOk_congr {s u : State} {l lanes site} (hp : u.port = s.port) (hc : u.ctx = s.ctx) (h : ApplyOk s l lanes site) :
    ApplyOk u l lanes site := by
  cases site <;> simpa [ApplyOk, HostPhase, CrPhase, EqPhase, hp, hc] using h

/-- The agents' steps keep the invariant while an operation runs. -/
theorem inv_busy {s u : State} {pos} (iv : Inv s) (hop : s.op = .busy pos) (h : busyStep pos s = .next u) : Inv u := by
  obtain ⟨m, l, c, f, p⟩ := id iv
  rw [hop] at p
  cases pos with
  | awaitAux t site =>
    obtain ⟨p1, p2, p3, p4, p5, p6⟩ := p
    simp only [busyStep, p2.2.1, if_true, channelStep, State.nextOutcome] at h
    have key : ∀ ch : Channel, Inv { s with chan := ch } := by
      intro ch
      refine ⟨m, l, c, f, ?_⟩
      show PositionOk _ s.op
      rw [hop]
      exact ⟨p1, ⟨rfl, p2.2⟩, p3, p4, auxSiteOk_congr (n := s.ctx.auxAttempt) rfl rfl p5, p6⟩
    split at h
    · rename_i heq
      split at heq <;> (obtain ⟨-, rfl⟩ := by simpa using heq) <;> (split at h) <;> first | exact inv_exec (key _) h | exact inv_answer (key _) h
    · rename_i heq
      split at heq <;> (obtain ⟨-, rfl⟩ := by simpa using heq) <;> exact inv_answer (key _) h
  | sideband todo lv lanes site =>
    obtain ⟨p1, p2, p3, p4⟩ := p
    cases todo with
    | nil =>
      simp only [busyStep, sidebandHead, laneSetWrite] at h
      have hb := lanes.toNat_bounds
      have hall : LevelsLegal ((s.setMaxFlags lv).setLaneLevels lv lanes).ctx := by
        refine ⟨fun k => ?_, l.2⟩
        show ((setLanes lanes.toNat lv s.ctx.lane)[k]).legal = true
        rw [setLanes_get]; split
        · exact p3
        · exact l.1 k
      have hflags := maxflags lv p3
      have hlanes : lanes = s.ctx.lc.laneCount → LanesEqual ((s.setMaxFlags lv).setLaneLevels lv lanes).ctx := by
        intro e i j hi hj
        show (setLanes lanes.toNat lv s.ctx.lane)[i] = (setLanes lanes.toNat lv s.ctx.lane)[j]
        have hi : i.val < lanes.toNat := by rw [e]; exact hi
        have hj : j.val < lanes.toNat := by rw [e]; exact hj
        rw [setLanes_get, setLanes_get, if_pos hi, if_pos hj]
      refine inv_memWrite (s := (s.setMaxFlags lv).setLaneLevels lv lanes) ⟨m, hall, c.1, c.2.1, hflags⟩ p1.1 p2 hb.1 hb.2 ?_ ?_ h
      · cases site with
        | host => exact p4
        | setup => obtain ⟨⟨a, b, c, d⟩, e⟩ := p4; exact ⟨a, hlanes e, c, d⟩
        | crAdjust new => obtain ⟨⟨a, b, c, d⟩, e, e'⟩ := p4; exact ⟨⟨a, hlanes e, c, d⟩, e' ▸ p3⟩
        | eqStart => obtain ⟨⟨a, b, c⟩, e⟩ := p4; exact ⟨a, hlanes e, c⟩
        | eqAdjust new => obtain ⟨⟨a, b, c⟩, e, e', e2⟩ := p4; exact ⟨⟨a, hlanes e, c⟩, e' ▸ p3, e2⟩
      · cases site with
        | host => exact ⟨rfl, rfl, hb.2⟩
        | setup => exact ⟨rfl, rfl, by rw [p4.2]; rfl⟩
        | crAdjust new => exact ⟨rfl, rfl, by rw [p4.2.1]; rfl⟩
        | eqStart => exact ⟨rfl, rfl, by rw [p4.2]; rfl⟩
        | eqAdjust new => exact ⟨rfl, rfl, by rw [p4.2.1]; rfl⟩
    | cons w rest =>
      simp only [busyStep, sidebandHead, sidebandWrite] at h
      split at h
      · simp at h
      · obtain rfl := by simpa using h
        exact ⟨m, l, c, f, p1, rfl, p3, applyOk_congr rfl rfl p4⟩
  | awaitSb todo lv lanes site =>
    obtain ⟨p1, p2, p3, p4⟩ := p
    simp only [busyStep, sidebandAwait, p2, if_true] at h
    obtain rfl := by simpa using h
    exact ⟨Memory.write_wf _ _ _ m, l, c, f, p1, rfl, p3, applyOk_congr rfl rfl p4⟩
  | waiting us site =>
    obtain ⟨p1, p2, p3⟩ := p
    have q : Quiet (s.log .waitEnd) := ⟨⟨m, l, c.1, c.2.1, f⟩, c.2.2, p1, p2⟩
    simp only [busyStep, timerStep] at h
    cases site with
    | idlePulse => exact inv_setupPort q p3.1 p3.2.1 p3.2.2 h
    | crPoll =>
      exact inv_memRead (s := { s.log .waitEnd with ctx := { (s.log .waitEnd).ctx with crPolls :=
          (s.log .waitEnd).ctx.crPolls + 1 } }) (site := .crStatus) q.base p1.1 p2 (by omega) (by omega) p3 rfl h
    | eqPoll =>
      obtain ⟨⟨a1, a2, a3⟩, hlt⟩ := p3
      refine inv_memRead (s := { s.log .waitEnd with ctx := { (s.log .waitEnd).ctx with eqIter :=
          (s.log .waitEnd).ctx.eqIter + 1 } }) (site := .eqStatus) ⟨m, l, c.1, ?_, f⟩ p1.1 p2 (by omega)
              (by omega) ⟨a1, a2, a3⟩ rfl h
      exact hlt
    | exit err =>
      obtain ⟨a1, a2, a3, a4⟩ := p3
      exact inv_memWrite (s := (s.log .waitEnd).portWrite { inTraining := some false })
          (site := .exitPattern err) q.base p1.1 p2 (by omega) (by omega) ⟨⟨a1, a2, a3, a4⟩, rfl⟩
              (by simp only [siteTxnOk, leBytes_one]; rfl) h

end Sys2Proof.Machine
end

