-- ==== Sys2Proof/Laws/PerInstr.lean ====
section
/-! SUPPORT. The per-instruction family `FrameLength`: the length of an instruction's encoding and the code its first bits hold. -/

namespace Sys2Proof.Laws.FrameLength

/-- The number of base-128 digits of a number (log entry 3). -/
def digits (n : Nat) : Nat := Nat.log 128 n + 1

/-- The number of bytes of an encoding: four header bytes and `LM1 + 1` payload bytes for a write-class command (R122,
R123), the status byte and the data of a reply (R124), and the record of a host operation (log entry 3). -/
def encodedLength : Instr → Nat
  | .nativeWrite _ lm1 _ | .i2cWrite _ lm1 _ | .i2cWriteMot _ lm1 _ => 4 + (lm1.toNat + 1)
  | .nativeRead _ _ | .i2cRead _ _ | .i2cReadMot _ _ => 4
  | .replyAck data | .replyNack data | .replyDefer data => 1 + data.length
  | .auxExecute _ addr len payload => 2 + digits addr + digits len + digits payload.length + payload.length
  | .dpcdRead addr n | .dpcdReadProbe addr n => 1 + digits addr + digits n
  | .dpcdWrite addr n value => 1 + digits addr + digits n + digits value
  | .epcApply _ _ _ | .linkTrain _ _ _ => 4

/-- The code of an instruction's row in spec/opcode_table.json: the command nibble (R126), the reply status (R125), the host
op code (R130). -/
def rowCode : Instr → BitVec 4
  | .nativeWrite .. => 0x8
  | .nativeRead .. => 0x9
  | .i2cWrite .. => 0x0
  | .i2cRead .. => 0x1
  | .i2cWriteMot .. => 0x4
  | .i2cReadMot .. => 0x5
  | .replyAck .. => 0x0
  | .replyNack .. => 0x1
  | .replyDefer .. => 0x2
  | .auxExecute .. => 0x1
  | .dpcdRead .. => 0x2
  | .dpcdReadProbe .. => 0x3
  | .dpcdWrite .. => 0x4
  | .epcApply .. => 0x5
  | .linkTrain .. => 0x6

/-- Where the code stands in an encoding's first byte: its high nibble on the AUX channel (R122, R124), its low nibble in a
host record (log entry 3). -/
def codeIn (f : Format) (b : Byte) : BitVec 4 :=
  match f with
  | .auxRequest | .auxReply => b.extractLsb' 4 4
  | .hostOp => b.extractLsb' 0 4

/-- The statement of the family. -/
def Statement (i : Instr) : Prop :=
  i.wellFormed = true →
    (encode i).length = encodedLength i ∧ ((encode i).head?.map (codeIn i.format)) = some (rowCode i)

/-- The first header byte's high nibble is the command. -/
theorem header_code (c : BitVec 4) (addr : Addr) (lm1 : Byte) :
    ((commandWord c addr lm1).extractLsb' 24 8).extractLsb' 4 4 = c := by
  apply BitVec.eq_of_getLsbD_eq
  intro i hi
  simp only [commandWord, BitVec.getLsbD_extractLsb', BitVec.getLsbD_append, hi, decide_true, Bool.true_and,
    show 4 + i < 8 by omega]
  rw [if_neg (by omega), if_neg (by omega)]
  congr 1
  omega

/-- A request's encoding. -/
theorem request_frame (c : AuxCmd) (addr : Addr) (lm1 : Byte) (payload : List Byte) :
    (encodeRequest c addr lm1 payload).length = 4 + payload.length
      ∧ (encodeRequest c addr lm1 payload).head?.map (codeIn .auxRequest) = some c.nibble := by
  refine ⟨by simp [encodeRequest, headerBytes]; omega, ?_⟩
  simp only [encodeRequest, headerBytes, List.cons_append, List.head?_cons, Option.map_some, codeIn, header_code]

theorem nativeWrite (addr : Addr) (lm1 : Byte) (payload : List Byte) : Statement (.nativeWrite addr lm1 payload) := by
  intro h
  have := request_frame .nativeWrite addr lm1 payload
  rw [show payload.length = lm1.toNat + 1 from eq_of_beq h] at this
  exact this

theorem nativeRead (addr : Addr) (lm1 : Byte) : Statement (.nativeRead addr lm1) :=
  fun _ => request_frame .nativeRead addr lm1 []

theorem i2cWrite (addr : Addr) (lm1 : Byte) (payload : List Byte) : Statement (.i2cWrite addr lm1 payload) := by
  intro h
  have := request_frame .i2cWrite addr lm1 payload
  rw [show payload.length = lm1.toNat + 1 from eq_of_beq h] at this
  exact this

theorem i2cRead (addr : Addr) (lm1 : Byte) : Statement (.i2cRead addr lm1) :=
  fun _ => request_frame .i2cRead addr lm1 []

theorem i2cWriteMot (addr : Addr) (lm1 : Byte) (payload : List Byte) : Statement (.i2cWriteMot addr lm1 payload) := by
  intro h
  have := request_frame .i2cWriteMot addr lm1 payload
  rw [show payload.length = lm1.toNat + 1 from eq_of_beq h] at this
  exact this

theorem i2cReadMot (addr : Addr) (lm1 : Byte) : Statement (.i2cReadMot addr lm1) :=
  fun _ => request_frame .i2cReadMot addr lm1 []

theorem replyAck (data : List Byte) : Statement (.replyAck data) :=
  fun _ => ⟨Nat.add_comm _ _, rfl⟩

theorem replyNack (data : List Byte) : Statement (.replyNack data) :=
  fun _ => ⟨Nat.add_comm _ _, rfl⟩

theorem replyDefer (data : List Byte) : Statement (.replyDefer data) :=
  fun _ => ⟨Nat.add_comm _ _, rfl⟩

/-- The length of a record with two numbers. -/
theorem length_pair (op : Byte) (a b : Nat) : (op :: natBytes a ++ natBytes b).length = 1 + digits a + digits b := by
  rw [List.length_append, List.length_cons, length_natBytes, length_natBytes, digits, digits]
  omega

theorem auxExecute (cmd : BitVec 4) (addr len : Nat) (payload : List Byte) : Statement (.auxExecute cmd addr len payload) := by
  refine fun _ => ⟨?_, rfl⟩
  change (_ :: _ :: natBytes addr ++ natBytes len ++ natBytes payload.length ++ payload).length =
    2 + digits addr + digits len + digits payload.length + payload.length
  simp only [List.length_append, List.length_cons, length_natBytes, digits]
  omega

theorem dpcdRead (addr n : Nat) : Statement (.dpcdRead addr n) := fun _ => ⟨length_pair 0x02 addr n, rfl⟩

theorem dpcdReadProbe (addr n : Nat) : Statement (.dpcdReadProbe addr n) := fun _ => ⟨length_pair 0x03 addr n, rfl⟩

theorem dpcdWrite (addr n value : Nat) : Statement (.dpcdWrite addr n value) := by
  refine fun _ => ⟨?_, rfl⟩
  change ((0x04 :: natBytes addr ++ natBytes n) ++ natBytes value).length = 1 + digits addr + digits n + digits value
  rw [List.length_append, length_pair, length_natBytes value]
  rfl

/-- A lane count less one is one digit. -/
theorem lanes_digit {m : Nat} (h : (LaneCount.ofNat? m).isSome = true) : m - 1 < 128 := by
  obtain ⟨n, hn⟩ := Option.isSome_iff_exists.mp h
  have := LaneCount.toNat_of_ofNat hn
  have := n.toNat_bounds
  omega

theorem epcApply (swing pre laneCount : Nat) : Statement (.epcApply swing pre laneCount) := by
  intro h
  have h := Bool.and_eq_true_iff.mp h
  have ⟨hs, hp⟩ := Bool.and_eq_true_iff.mp h.1
  have hs := of_decide_eq_true hs
  have hp := of_decide_eq_true hp
  refine ⟨?_, rfl⟩
  change (0x05 :: natBytes swing ++ natBytes pre ++ natBytes (laneCount - 1)).length = 4
  rw [natBytes_digit (show swing < 128 by omega), natBytes_digit (show pre < 128 by omega), natBytes_digit (lanes_digit h.2)]
  rfl

theorem linkTrain (laneCount : Nat) (rate : LinkRate) (enhancedFraming : Bool) :
    Statement (.linkTrain laneCount rate enhancedFraming) := by
  refine fun h => ⟨?_, rfl⟩
  change (0x06 :: natBytes (laneCount - 1) ++ [rate.code, _]).length = 4
  rw [natBytes_digit (lanes_digit h)]
  rfl

end Sys2Proof.Laws.FrameLength
end

