-- ==== Sys2Proof/Tests/Slice0.lean ====
section
/-! SUPPORT. Tests: decoding of words written out by hand, ill-formed terms, single steps from small states against the vectors of
95_test_vectors.md, and the words of the opcode table placed for a step. -/

namespace Sys2Proof.Tests

open Sys2Proof.Machine

/-! ## Helpers -/

/-- Parameters for the tests: BigEndian, no overall cap, one tuning write for the level (1, 0). -/
def par : Params where
  packing := .bigEndian
  crOverallCap := none
  settle4LaneUs := 30
  settleExitUs := 20
  phyTuning := [(⟨1, 0⟩, [⟨0x12, 0x34⟩])]
  sbWriteOpcode := 1
  sbAddrWidth := 8
  sbDataWidth := 8

/-- An idle block with these outcomes to come. -/
def idle (outcomes : List AuxOutcome) : State := { State.reset with par := par, chan := ⟨outcomes, 0⟩ }

/-- A block that awaits an attempt of a transaction. -/
def awaiting (t : Txn) (site : AuxSite) (attempt : Nat) (outcomes : List AuxOutcome) : State :=
  { idle outcomes with
    aux :=
      { State.reset.aux with
        ctl := { State.reset.aux.ctl with busy := true }
        cmd := t.word
        inFlight := some ⟨t.word, t.payload⟩ }
    ctx := { State.reset.ctx with ltsmState := .clockRecovery, auxAttempt := attempt }
    port := { State.reset.port with enable := true }
    op := .busy (.awaitAux t site) }

/-- Whether an outcome is a next state with this property. -/
def next (o : Out) (f : State → Bool) : Bool :=
  match o with
  | .next t => f t
  | _ => false

/-- Whether an outcome is this refusal. -/
def refuses (o : Out) (r : Refusal) : Bool :=
  match o with
  | .refused r' => r == r'
  | _ => false

/-- Whether bytes decode to this instruction. -/
def decodes (f : Format) (bytes : List Byte) (i : Instr) : Bool :=
  match decodeWhole f bytes with
  | .ok j => i == j
  | .error _ => false

/-- Whether bytes are refused for this reason. -/
def rejects (f : Format) (bytes : List Byte) (e : DecodeError) : Bool :=
  match decodeWhole f bytes with
  | .ok _ => false
  | .error e' => e == e'

/-! ## Decoding (30_encoding.md; vectors W-1 to W-15) -/

theorem test_decode_native_write : decodes .auxRequest [0x80, 0x01, 0x00, 0x00, 0x0A] (.nativeWrite 0x00100 0 [0x0A]) = true := by
  decide

theorem test_decode_native_read : decodes .auxRequest [0x91, 0x23, 0x45, 0x0F] (.nativeRead 0x12345 15) = true := by decide

theorem test_decode_i2c_write : decodes .auxRequest [0x00, 0x00, 0x50, 0x00, 0x00] (.i2cWrite 0x00050 0 [0x00]) = true := by decide

theorem test_decode_i2c_read : decodes .auxRequest [0x10, 0x00, 0x50, 0x0F] (.i2cRead 0x00050 15) = true := by decide

theorem test_decode_i2c_write_mot : decodes .auxRequest [0x40, 0x00, 0x50, 0x00, 0x7F] (.i2cWriteMot 0x00050 0 [0x7F]) = true := by
  decide

theorem test_decode_i2c_read_mot : decodes .auxRequest [0x50, 0x00, 0x50, 0x00] (.i2cReadMot 0x00050 0) = true := by decide

theorem test_decode_reply_ack : decodes .auxReply [0x00, 0x11, 0x01] (.replyAck [0x11, 0x01]) = true := by decide

theorem test_decode_reply_nack : decodes .auxReply [0x10] (.replyNack []) = true := by decide

theorem test_decode_reply_defer : decodes .auxReply [0x20] (.replyDefer []) = true := by decide

theorem test_decode_aux_execute :
    decodes .hostOp
      [0x01, 0x08, 0x80, 0x02, 0x02, 0x02, 0xAA, 0xBB]
      (.auxExecute 0x8 0x100 2 [0xAA, 0xBB]) = true := by decide

theorem test_decode_dpcd_read :
    decodes .hostOp [0x02, 0x82, 0x04, 0x03] (.dpcdRead 0x202 3) = true := by decide

theorem test_decode_dpcd_read_probe :
    decodes .hostOp [0x03, 0x0E, 0x01] (.dpcdReadProbe 0x00E 1) = true := by decide

theorem test_decode_dpcd_write :
    decodes .hostOp [0x04, 0x80, 0x02, 0x01, 0xB4, 0x24] (.dpcdWrite 0x100 1 0x1234)
      = true := by decide

/-- `n` is a natural of any size (R130, R131): 2^32 is 16 followed by four zero digits. -/
theorem test_decode_wide_count :
    decodes .hostOp [0x02, 0x00, 0x80, 0x80, 0x80, 0x80, 0x10] (.dpcdRead 0 (2 ^ 32)) = true := by decide

theorem test_reject_zero_digit : rejects .hostOp [0x02, 0x80, 0x00, 0x01] .zeroDigit = true := by decide

theorem test_decode_epc_apply : decodes .hostOp [0x05, 0x01, 0x00, 0x03] (.epcApply 1 0 4) = true := by decide

theorem test_decode_link_train : decodes .hostOp [0x06, 0x01, 0x02, 0x01] (.linkTrain 2 .hbr2 true) = true := by decide

theorem test_reject_reserved_command : rejects .auxRequest [0x20, 0x00, 0x00, 0x00] .reservedCommand = true := by decide

theorem test_reject_unnamed_status : rejects .auxReply [0x30] .unnamedStatus = true := by decide

theorem test_reject_low_nibble_of_reply : rejects .auxReply [0x01] .unusedBitSet = true := by decide

theorem test_reject_long_reply : rejects .auxReply (0x00 :: List.replicate 17 0) .replyTooLong = true := by decide

theorem test_reject_reserved_op_code : rejects .hostOp [0x07] .reservedOpCode = true := by decide

theorem test_reject_op_code_with_high_bits : rejects .hostOp [0x16, 0x00, 0x00, 0x00] .reservedOpCode = true := by decide

theorem test_reject_unknown_link_rate : rejects .hostOp [0x06, 0x00, 0x03, 0x00] .unknownLinkRate = true := by decide

theorem test_reject_unused_framing_bit : rejects .hostOp [0x06, 0x00, 0x00, 0x02] .unusedBitSet = true := by decide

theorem test_reject_truncated_payload : rejects .auxRequest [0x80, 0x01, 0x00, 0x01, 0x0A] .truncated = true := by decide

theorem test_reject_trailing_byte : rejects .auxRequest [0x90, 0x01, 0x00, 0x00, 0x00] .trailingBytes = true := by decide

/-! ## Ill-formed terms, one for each check of `Instr.wellFormed` (R123, R124, R131) -/

theorem test_illformed_native_write : (Instr.nativeWrite 0 1 [0]).wellFormed = false := by decide

theorem test_illformed_i2c_write : (Instr.i2cWrite 0 0 []).wellFormed = false := by decide

theorem test_illformed_i2c_write_mot : (Instr.i2cWriteMot 0 0 [0, 0]).wellFormed = false := by decide

theorem test_illformed_replies :
    (Instr.replyAck (List.replicate 17 0)).wellFormed = false ∧ (Instr.replyNack (List.replicate 17 0)).wellFormed = false
      ∧ (Instr.replyDefer (List.replicate 17 0)).wellFormed = false := by decide

theorem test_illformed_aux_execute :
    (Instr.auxExecute 0x2 0 1 []).wellFormed = false ∧ (Instr.auxExecute 0x9 0x100000 1 []).wellFormed = false
      ∧ (Instr.auxExecute 0x9 0 1 [0]).wellFormed = false ∧ (Instr.auxExecute 0x8 0x100 2 [0x0A]).wellFormed = false := by
  decide

theorem test_illformed_dpcd :
    (Instr.dpcdRead 0x100000 1).wellFormed = false ∧ (Instr.dpcdReadProbe 0x100000 1).wellFormed = false
      ∧ (Instr.dpcdWrite 0x100000 1 0).wellFormed = false ∧ (Instr.dpcdWrite 0 1 0x100000000).wellFormed = false := by decide

theorem test_illformed_epc_apply :
    (Instr.epcApply 4 0 1).wellFormed = false ∧ (Instr.epcApply 0 4 1).wellFormed = false
      ∧ (Instr.epcApply 1 0 3).wellFormed = false := by decide

theorem test_illformed_link_train : (Instr.linkTrain 3 .rbr false).wellFormed = false := by decide

/-! ## Single steps -/

/-- W-1, R164: the command word, and the payload in `AUX_DATA[0]`, big-endian. -/
theorem test_native_write_issues :
    next (exec (.nativeWrite 0x00101 0 [0x84]) (idle [])) (fun t =>
      t.aux.cmd == 0x80010100 && t.aux.ctl.busy && auxData .bigEndian t.aux.buf 0 == some 0x84000000) = true := by decide

/-- W-14: the command word of a 16-byte read. -/
theorem test_native_read_issues :
    next (exec (.nativeRead 0x12345 15) (idle [])) (fun t => t.aux.cmd == 0x9123450F && t.ctx.auxAttempt == 1) = true := by
  decide

/-- W-9. -/
theorem test_i2c_write_issues :
    next (exec (.i2cWrite 0x00050 0 [0x00]) (idle [])) (fun t => t.aux.cmd == 0x00005000 && t.aux.ctl.busy) = true := by decide

/-- W-10. -/
theorem test_i2c_read_issues :
    next (exec (.i2cRead 0x00050 15) (idle [])) (fun t => t.aux.cmd == 0x1000500F && t.aux.ctl.busy) = true := by decide

/-- W-11. -/
theorem test_i2c_write_mot_issues :
    next (exec (.i2cWriteMot 0x00050 0 [0x00]) (idle [])) (fun t => t.aux.cmd == 0x40005000) = true := by decide

/-- W-12. -/
theorem test_i2c_read_mot_issues :
    next (exec (.i2cReadMot 0x00050 0) (idle [])) (fun t => t.aux.cmd == 0x50005000) = true := by decide

/-- A-13: five payload bytes, padded in the second register. -/
theorem test_aux_execute_packs_payload :
    next (exec (.auxExecute 0x8 0x103 5 [1, 2, 3, 4, 5]) (idle [])) (fun t =>
      auxData .bigEndian t.aux.buf 0 == some 0x01020304 && auxData .bigEndian t.aux.buf 1 == some 0x05000000) = true := by decide

/-- A-2: 17 bytes are `InvalidLength` with no attempt. -/
theorem test_aux_execute_length_17 :
    next (exec (.auxExecute 0x9 0x100 17 []) (idle [])) (fun t =>
      t.host.result == some (.auxBytes (.err .invalidLength)) && cmdWrites t.events == 0 && t.op == .idle) = true := by decide

/-- A-10: an ACK with three bytes for a one-byte read returns the first. -/
theorem test_reply_ack_takes_first_byte :
    next (exec (.replyAck [0x12, 0x34, 0x56]) (awaiting (readTxn 0x00E 1) .auxExecute 1 [])) (fun t =>
      t.host.result == some (.auxBytes (.ok [0x12])) && t.aux.ctl.replyLen == 3) = true := by decide

/-- A-9: an ACK that is one byte short is a failed attempt. -/
theorem test_reply_ack_short :
    next (exec (.replyAck [0x11]) (awaiting (readTxn 0x202 2) .auxExecute 1 [])) (fun t =>
      t.ctx.auxAttempt == 2 && t.aux.ctl.busy && t.host.result == none) = true := by decide

/-- A-4: the sixth NACK. -/
theorem test_reply_nack_sixth :
    next (exec (.replyNack []) (awaiting (readTxn 0x00E 1) .auxExecute 6 [])) (fun t =>
      t.host.result == some (.auxBytes (.err .noResponse)) && t.aux.ctl.done && t.aux.ctl.replyStatus == 1) = true := by decide

/-- A-6: the fifth DEFER is retried. -/
theorem test_reply_defer_fifth :
    next (exec (.replyDefer []) (awaiting (readTxn 0x00E 1) .auxExecute 5 [])) (fun t =>
      t.ctx.auxAttempt == 6 && t.aux.ctl.busy && t.aux.ctl.replyStatus == 2) = true := by decide

/-- A-8: a timeout is a failed attempt though `REPLY_STATUS` still holds 0; the next attempt's clear takes the bit away. -/
theorem test_timeout_with_stale_status :
    next (step (awaiting (readTxn 0x00E 1) .auxExecute 1 [.timeout])) (fun t =>
      t.ctx.auxAttempt == 2 && t.aux.ctl.errTimeout == false && t.aux.ctl.replyStatus == 0) = true := by decide

/-- A-11: a status with no name is treated as NACK. -/
theorem test_unnamed_status_fails :
    next (step (awaiting (readTxn 0x00E 1) .auxExecute 6 [.reply 0x4 []])) (fun t =>
      t.host.result == some (.auxBytes (.err .noResponse)) && t.aux.ctl.replyStatus == 4) = true := by decide

/-- D-2: the reply's bytes, least significant first. -/
theorem test_dpcd_read_value :
    next (exec (.replyAck [0x77, 0x77, 0x01]) (awaiting (readTxn 0x202 3) .dpcdRead 1 [])) (fun t =>
      t.host.result == some (.value (.ok 0x00017777))) = true := by decide

/-- D-4: a byte count of 5. -/
theorem test_dpcd_read_count_5 :
    next (exec (.dpcdRead 0x100 5) (idle [])) (fun t =>
      t.host.result == some (.value (.err .invalidLength)) && cmdWrites t.events == 0) = true := by decide

/-- D-6: the probe hides the error. -/
theorem test_dpcd_read_probe_count_5 :
    next (exec (.dpcdReadProbe 0x00E 5) (idle [])) (fun t => t.host.result == some (.value (.ok 0))) = true := by decide

/-- D-3: only the low byte is sent. -/
theorem test_dpcd_write_truncates :
    next (exec (.dpcdWrite 0x100 1 0x1234) (idle [])) (fun t =>
      t.aux.cmd == 0x80010000 && t.aux.inFlight == some ⟨0x80010000, [0x34]⟩) = true := by decide

/-- D-10: four bytes, least significant first. -/
theorem test_dpcd_write_byte_order :
    next (exec (.dpcdWrite 0x100 4 0xDDCCBBAA) (idle [])) (fun t =>
      t.aux.inFlight == some ⟨0x80010003, [0xAA, 0xBB, 0xCC, 0xDD]⟩) = true := by decide

/-- E-5: the level (2, 2) is illegal. -/
theorem test_epc_apply_illegal :
    next (exec (.epcApply 2 2 4) (idle [])) (fun t =>
      t.host.result == some (.applied (.err .invalidCombination)) && t.sb.busy == false && t.op == .idle) = true := by decide

/-- E-4, R217: once the tuning writes are done, the byte 0x07 goes to one lane at 0x103. -/
theorem test_epc_apply_lane_set :
    next (step { idle [] with op := .busy (.sideband [] ⟨3, 0⟩ .one .host) }) (fun t =>
      t.aux.inFlight == some ⟨0x80010300, [0x07]⟩ && t.ctx.lc.maxVswingReached && t.ctx.lane[0] == ⟨3, 0⟩
        && t.ctx.lane[1] == ⟨0, 0⟩) = true := by decide

/-- R213: the sideband write of the level (1, 0)'s tuning. -/
theorem test_sideband_write :
    next (step { idle [] with op := .busy (.sideband (tuningOf par ⟨1, 0⟩) ⟨1, 0⟩ .four .host) }) (fun t =>
      t.sb == ⟨0x12, 0x34, 1, true⟩ && t.phy == []) = true := by decide

/-- W-3: LINK_TRAIN starts with the probe of the read interval. -/
theorem test_link_train_probe :
    next (exec (.linkTrain 4 .hbr false) (idle [])) (fun t =>
      t.aux.cmd == 0x90000E00 && t.ctx.ltsmState == .clockRecovery && t.ctx.lc.laneCount == .four) = true := by decide

/-- R244: four lanes get the idle pulse before the port is disabled. -/
theorem test_link_train_idle_pulse :
    next (exec (.replyAck [0x00])
      { awaiting (readTxn 0x00E 1) .rdInterval 1 [] with
        ctx := { State.reset.ctx with lc := { State.reset.ctx.lc with laneCount := .four } } }) (fun t =>
      t.op == .busy (.waiting 30 .idlePulse) && t.port.tpSel == .idle && t.port.enable) = true := by decide

/-- E-1: the TRAINING_LANE_SET bytes of the ten legal levels. -/
theorem test_lane_set_bytes :
    ([(0, 0), (0, 1), (0, 2), (0, 3), (1, 0), (1, 1), (1, 2), (2, 0), (2, 1), (3, 0)].map fun sp : Nat × Nat =>
        let l : Level := ⟨BitVec.ofNat 2 sp.1, BitVec.ofNat 2 sp.2⟩
        laneSetByte l (maxSwing l) (maxPre l))
      = [0x00, 0x08, 0x10, 0x38, 0x01, 0x09, 0x11, 0x02, 0x0A, 0x07] := by decide

/-- I-1 to I-8: the poll intervals at the values where the cases meet. -/
theorem test_poll_intervals :
    (intervalUs .clockRecovery 0 = 100 ∧ intervalUs .equalization 0 = 400 ∧ intervalUs .clockRecovery 1 = 4000
      ∧ intervalUs .equalization 4 = 16000) ∧ intervalUs .equalization 5 = 16000 ∧ intervalUs .clockRecovery 255 = 16000 := by
  decide

/-- C-1, R220, R221: the requests (1, 0) and (2, 3) give the maximum (2, 3), clamped to (2, 1). -/
theorem test_requested_level : requestedLevel 0x000000E1 .two = ⟨2, 1⟩ := by decide

/-! ## The opcode table's words -/

set_option maxRecDepth 8192 in
theorem test_table_word_command : decodeTableWord 32 0x80000000 = some (.nativeWrite 0 0 [0]) := by decide

theorem test_table_word_host_op : decodeTableWord 8 0x3 = some (.dpcdReadProbe 0 0) := by decide

theorem test_table_word_reply : decodeTableWord 8 0x0 = some (.replyAck []) := by decide

theorem test_table_word_reserved : decodeTableWord 32 0x20000000 = none ∧ decodeTableWord 8 0x7 = none := by decide

set_option maxRecDepth 8192 in
theorem test_placed_command_runs :
    next (step ((idle []).withFetchWord 32 0x90000000)) (fun t => t.aux.cmd == 0x90000000 && t.aux.ctl.busy) = true := by decide

theorem test_placed_reply_runs :
    next (step ((idle []).withFetchWord 8 0x0)) (fun t => t.host.result == some (.auxBytes (.ok []))) = true := by decide

/-! ## Witnesses: states and operands that meet the hypotheses of the obligations, clause by clause -/

/-- The state of a running operation at a position, the parameters and outcomes as above. -/
def at' (pos : Position) (outcomes : List AuxOutcome) : State := { idle outcomes with op := .busy pos }

/-- `awaiting` with a chosen lane count. -/
def awaitingLanes (m : LaneCount) (t : Txn) (site : AuxSite) (attempt : Nat) : State :=
  let s := awaiting t site attempt []
  { s with ctx := { s.ctx with lc := { s.ctx.lc with laneCount := m } } }

theorem awaiting_meets (t : Txn) (site : AuxSite) (k : Nat) (os : List AuxOutcome) : Awaiting t site (awaiting t site k os) :=
  ⟨rfl, rfl, rfl, rfl⟩

theorem awaitingLanes_meets (m : LaneCount) (t : Txn) (site : AuxSite) (k : Nat) : Awaiting t site (awaitingLanes m t site k) :=
  ⟨rfl, rfl, rfl, rfl⟩

theorem readTxn_ok : (readTxn 0x202 2).Ok ∧ (readTxn 0 1).Ok ∧ (readTxn 0xFFFFF 16).Ok := by
  refine ⟨⟨by decide, by decide, rfl⟩, ⟨by decide, by decide, rfl⟩, ⟨by decide, by decide, rfl⟩⟩

/-- A record whose `n` is 2^32 is an operation like any other: `InvalidLength`, with no attempt (R191). -/
theorem test_step_wide_count :
    next (step { idle [] with host := ⟨[⟨.hostOp, [0x02, 0x00, 0x80, 0x80, 0x80, 0x80, 0x10]⟩], none, false⟩ }) (fun t =>
      t.host.result == some (.value (.err .invalidLength)) && cmdWrites t.events == 0) = true := by decide

theorem witness_DecodeOfEncodeIsIdentity :
    (∀ i ∈ [Instr.nativeWrite 0xFFFFF 1 [1, 2], .nativeRead 0 255, .i2cWrite 0 0 [0], .i2cRead 0x50 15, .i2cWriteMot 0 0 [0],
      .i2cReadMot 0x50 0, .replyAck (List.replicate 16 0xFF), .replyNack [], .replyDefer [], .auxExecute 0x9 0xFFFFF 0xFFFFFFFF [],
      .dpcdRead 0xFFFFF (2 ^ 40), .dpcdReadProbe 0 0, .dpcdWrite 0xFFFFF 4 0xFFFFFFFF, .epcApply 3 3 4, .linkTrain 1 .hbr2 true],
      i.wellFormed = true) := by decide

theorem witness_DecodedBytesAreCanonical :
    ∃ i, decodeWhole .hostOp [0x05, 0x03, 0x00, 0x03] = .ok i := ⟨_, rfl⟩

theorem witness_ReservedEncodingsRejected :
    ((0x2 : BitVec 4) ∈ [0x2#4, 0x3, 0x6, 0x7, 0xA, 0xB, 0xC, 0xD, 0xE, 0xF]) ∧ ((0x07 : Byte).toNat < 16 ∧ 7 ≤ (0x07 : Byte).toNat)
      ∧ (0x00 : Byte).toNat = 0 ∧ 3 ≤ (0x3 : BitVec 4).toNat ∧ 3 ≤ (0xF : BitVec 4).toNat
      ∧ (List.replicate 16 (0 : Byte)).length ≤ 16 := by decide

theorem witness_MalformedInputsRefused :
    ((Instr.epcApply 1 0 3).format ≠ .auxReply ∧ (Instr.epcApply 1 0 3).wellFormed = false)
      ∧ decodeWhole .hostOp [0x07] = .error .reservedOpCode
      ∧ (∃ s : State, s.host.reset = false ∧ s.op = .idle ∧ s.host.program = [⟨.hostOp, [0x07]⟩])
      ∧ 16 < (List.replicate 17 (0 : Byte)).length ∧ (List.replicate 16 (0 : Byte)).length ≤ 16 ∧ (idle []).aux.ctl.busy = false :=
  ⟨by decide, rfl, ⟨{ idle [] with host := ⟨[⟨.hostOp, [0x07]⟩], none, false⟩ }, rfl, rfl, rfl⟩, by decide, by decide, rfl⟩

theorem witness_HostMovesOnlyWhileIdle :
    ((Instr.linkTrain 1 .rbr false).format ≠ .auxReply ∧ (Instr.linkTrain 1 .rbr false).wellFormed = true
      ∧ ∃ s : State, s.op = .busy (.waiting 1 .crPoll)) ∧ ((idle []).host.reset = false ∧ (idle []).op = .idle
      ∧ (idle []).host.program = []) :=
  ⟨⟨by decide, by decide, at' (.waiting 1 .crPoll) [], rfl⟩, rfl, rfl, rfl⟩

theorem witness_StepRunsDecodedInstruction :
    (∃ (s : State) (i : Instr), s.host.reset = false ∧ s.op = .idle
      ∧ s.host.program = [⟨.hostOp, [0x05, 0x01, 0x00, 0x03]⟩] ∧ decodeWhole .hostOp [0x05, 0x01, 0x00, 0x03] = .ok i)
    ∧ (∃ (s : State) (i : Instr), s.host.reset = false ∧ s.op = .busy (.awaitAux (readTxn 0x202 2) .dpcdRead)
      ∧ s.aux.ctl.busy = true ∧ s.chan.outcomes = [.reply 2 []] ∧ replyInstr? 2 [] = some i)
    ∧ (∀ os ∈ [[AuxOutcome.timeout], [.reply 3 []], []],
      ∃ s : State, s.host.reset = false ∧ s.op = .busy (.awaitAux (readTxn 0x202 2) .dpcdRead) ∧ s.aux.ctl.busy = true
        ∧ s.chan.outcomes = os) :=
  ⟨⟨{ idle [] with host := ⟨[⟨.hostOp, [0x05, 0x01, 0x00, 0x03]⟩], none, false⟩ }, _, rfl, rfl, rfl, rfl⟩,
    ⟨awaiting (readTxn 0x202 2) .dpcdRead 1 [.reply 2 []], _, rfl, rfl, rfl, rfl, rfl⟩,
    fun os _ => ⟨awaiting (readTxn 0x202 2) .dpcdRead 1 os, rfl, rfl, rfl, rfl⟩⟩

theorem witness_ResetInputRestoresResetValues :
    ∃ s : State, s.host.reset = true ∧ s.op = .busy (.waiting 1 .crPoll) :=
  ⟨{ at' (.waiting 1 .crPoll) [] with host := ⟨[], none, true⟩ }, rfl, rfl⟩

theorem witness_CommandsIssueRequest :
    (idle []).op = .idle ∧ (idle []).aux.ctl.busy = false ∧ (0x00 : Byte).toNat < 16 ∧ (0x0F : Byte).toNat < 16
      ∧ [(1 : Byte)].length = (0x00 : Byte).toNat + 1 ∧ (List.replicate 16 (1 : Byte)).length = (0x0F : Byte).toNat + 1
      ∧ 16 ≤ (0x10 : Byte).toNat ∧ (List.replicate 17 (1 : Byte)).length = (0x10 : Byte).toNat + 1 :=
  ⟨rfl, rfl, by decide, by decide, by decide, by decide, by decide, by decide⟩

theorem witness_AuxExecuteIssuesRequest :
    (0xFFFFF < 2 ^ 20 ∧ 1 ≤ 16 ∧ 16 ≤ 16) ∧ (if AuxCmd.nativeRead.isRead then ([] : List Byte) = [] else False)
      ∧ (if AuxCmd.i2cWrite.isRead then False else [(7 : Byte)].length = 1) := by decide

theorem witness_LengthOutsideRangeChangesNothing :
    (0 < 1 ∨ 16 < 0) ∧ (17 < 1 ∨ 16 < 17) ∧ (List.replicate 17 (0 : Byte)).length = 17 ∧ (idle []).op = .idle :=
  ⟨by decide, by decide, by decide, rfl⟩

theorem witness_AckEndsAuxExecute :
    (∃ s, Awaiting (readTxn 0x202 2) .auxExecute s ∧ (readTxn 0x202 2).len ≤ [(0 : Byte), 0].length)
      ∧ ∃ s, Awaiting (byteWriteTxn 0x100 0x0A) .auxExecute s ∧ (byteWriteTxn 0x100 0x0A).cmd.isRead = false :=
  ⟨⟨_, awaiting_meets _ _ 1 [], by decide⟩, _, awaiting_meets _ _ 1 [], rfl⟩

theorem witness_FailedAttemptIsRetried_sticky :
    ∃ s : State, s.op = .busy (.awaitAux (readTxn 0x202 2) .crStatus) ∧ s.aux.ctl.busy = true ∧ s.aux.ctl.errReceive = true
      ∧ (readTxn 0x202 2).Ok ∧ s.ctx.auxAttempt < 6 :=
  ⟨{ awaiting (readTxn 0x202 2) .crStatus 5 [] with
      aux := { State.reset.aux with ctl := { State.reset.aux.ctl with busy := true, errReceive := true } } },
    rfl, rfl, rfl, readTxn_ok.1, by decide⟩

theorem witness_FailedAttemptIsRetried :
    (∃ s, Awaiting (readTxn 0x202 2) .crStatus s ∧ s.ctx.auxAttempt < 6) ∧ (readTxn 0x202 2).Ok
      ∧ ∀ o ∈ [AuxOutcome.timeout, .receiveError, .reply 0 [0x11], .reply 1 [], .reply 2 (List.replicate 16 0), .reply 0xF []],
        o.possible = true ∧ o.fails (readTxn 0x202 2).cmd (readTxn 0x202 2).len = true :=
  ⟨⟨_, awaiting_meets _ _ 5 [], by decide⟩, readTxn_ok.1, by decide⟩

theorem witness_NackRetriesThenNoResponse :
    (∃ s, Awaiting (readTxn 0x202 2) .eqStatus s ∧ (readTxn 0x202 2).Ok ∧ s.ctx.auxAttempt < 6)
      ∧ ∃ s, Awaiting (readTxn 0x202 2) .auxExecute s ∧ 6 ≤ s.ctx.auxAttempt :=
  ⟨⟨_, awaiting_meets _ _ 5 [], readTxn_ok.1, by decide⟩, _, awaiting_meets _ _ 6 [], by decide⟩

theorem witness_DeferTreatedAsNack :
    (∃ s, Awaiting (readTxn 0x202 2) .crStatus s ∧ (readTxn 0x202 2).Ok ∧ s.ctx.auxAttempt < 6)
      ∧ ∃ s, Awaiting (readTxn 0x202 2) .crStatus s ∧ (readTxn 0x202 2).Ok ∧ 6 ≤ s.ctx.auxAttempt :=
  ⟨⟨_, awaiting_meets _ _ 5 [], readTxn_ok.1, by decide⟩, _, awaiting_meets _ _ 6 [], readTxn_ok.1, by decide⟩

theorem witness_SixthFailureIsNoResponse :
    ∃ s, Awaiting (readTxn 0x202 2) .auxExecute s ∧ s.ctx.auxAttempt = 6 ∧ (AuxOutcome.reply 1 []).possible = true
      ∧ (AuxOutcome.reply 1 []).fails .nativeRead 2 = true :=
  ⟨_, awaiting_meets _ _ 6 [], rfl, by decide, by decide⟩

theorem witness_RetryBoundIsSixAttempts :
    (∀ o ∈ List.replicate 5 (AuxOutcome.reply 2 []) ++ [.timeout], o.possible = true ∧ o.fails .nativeRead 1 = true)
      ∧ (AuxOutcome.reply 0 [0x00]).fails .nativeRead 1 = false ∧ (List.replicate 5 (AuxOutcome.reply 2 [])).length < 6
      ∧ (List.replicate 5 (AuxOutcome.reply 2 []) ++ [AuxOutcome.timeout]).length = 6
      ∧ ∃ s : State, s.op = .idle ∧ s.host.reset = false ∧ s.aux.ctl.busy = false
        ∧ s.chan.outcomes = List.replicate 5 (.reply 2 []) ++ .reply 0 [0x00] :: [] :=
  ⟨by decide, by decide, by decide, by decide, idle (List.replicate 5 (.reply 2 []) ++ .reply 0 [0x00] :: []), rfl, rfl, rfl, rfl⟩

theorem witness_TransactionAlwaysEnds :
    ∃ s : State, s.host.reset = false ∧ Awaiting (readTxn 0xFFFFF 16) .auxExecute s ∧ (readTxn 0xFFFFF 16).Ok
      ∧ 1 ≤ s.ctx.auxAttempt ∧ s.ctx.auxAttempt ≤ 6 ∧ ∀ o ∈ s.chan.outcomes, o.possible = true :=
  ⟨awaiting (readTxn 0xFFFFF 16) .auxExecute 1 [.reply 0 []], rfl, awaiting_meets _ _ _ _, readTxn_ok.2.2, by decide, by decide,
    by decide⟩

theorem witness_AuxDataPackingCancels :
    (List.replicate 16 (0 : Byte)).length ≤ 16 ∧ 4 * 3 < (List.replicate 16 (0 : Byte)).length ∧ 4 * 1 < [(1 : Byte), 2, 3, 4, 5].length
      ∧ 3 < 4 := by decide

theorem witness_DpcdReadAssemblesReply :
    ∃ s : State, s.op = .idle ∧ s.host.reset = false ∧ s.aux.ctl.busy = false
      ∧ s.chan.outcomes = .reply 0 [0x77, 0x77, 0x01] :: [] ∧ 0xFFFFF < 2 ^ 20 ∧ 1 ≤ 3 ∧ 3 ≤ 4
      ∧ 3 ≤ [(0x77 : Byte), 0x77, 0x01].length :=
  ⟨idle [.reply 0 [0x77, 0x77, 0x01]], rfl, rfl, rfl, rfl, by decide, by decide, by decide, by decide⟩

theorem witness_DpcdFailurePropagatesOrReadsZero :
    ∃ s : State, s.op = .idle ∧ s.host.reset = false ∧ s.aux.ctl.busy = false
      ∧ s.chan.outcomes = List.replicate 6 (.reply 1 []) ++ []
      ∧ ∀ o ∈ List.replicate 6 (AuxOutcome.reply 1 []), o.possible = true ∧ o.fails .nativeRead 1 = true
        ∧ o.fails .nativeWrite 1 = true :=
  ⟨idle (List.replicate 6 (.reply 1 []) ++ []), rfl, rfl, rfl, rfl, by decide⟩

theorem witness_DpcdWriteSendsLowBytes :
    ∃ s : State, s.op = .idle ∧ s.host.reset = false ∧ s.aux.ctl.busy = false ∧ s.chan.outcomes = .reply 0 [] :: []
      ∧ 0xFFFFFFFF < 2 ^ 32 :=
  ⟨idle [.reply 0 []], rfl, rfl, rfl, rfl, by decide⟩

theorem witness_DpcdByteCountChecked : (idle []).op = .idle ∧ ((0 = 0 ∨ 4 < 0) ∧ (5 = 0 ∨ 4 < 5)) := ⟨rfl, by decide⟩

theorem witness_StoreSinkRoundTrip : (idle []).op = .idle ∧ (idle []).host.reset = false ∧ (idle []).aux.ctl.busy = false :=
  ⟨rfl, rfl, rfl⟩

theorem witness_IllegalLevelChangesNothing : (idle []).op = .idle ∧ 1 ≤ 3 ∧ 3 ≤ 3 ∧ 3 < 1 + 3 := ⟨rfl, by decide⟩

theorem witness_EpcApplyCompletes :
    ∃ s : State, s.op = .idle ∧ s.host.reset = false ∧ s.aux.ctl.busy = false ∧ s.sb.busy = false
      ∧ s.chan.outcomes = .reply 0 [] :: [] ∧ (0x07 : Byte).toNat = 3 + (if 3 ≤ 3 then 4 else 0) + 8 * 0 + (if 3 ≤ 0 then 32 else 0)
      ∧ (0x38 : Byte).toNat = 0 + (if 3 ≤ 0 then 4 else 0) + 8 * 3 + (if 3 ≤ 3 then 32 else 0) :=
  ⟨idle [.reply 0 []], rfl, rfl, rfl, rfl, rfl, by decide, by decide⟩

/-- The ways a write's attempt fails. -/
theorem write_failures :
    ∀ o ∈ [AuxOutcome.timeout, .receiveError, .reply 1 [], .reply 2 [], .reply 0xF (List.replicate 16 0)],
      o.possible = true ∧ o.fails .nativeWrite 1 = true := by decide

theorem witness_EpcWriteErrorKeepsLevel : ∃ s, Awaiting (byteWriteTxn 0x103 0x0A) (.laneSet .host) s ∧ s.ctx.auxAttempt = 6
    ∧ ∀ o ∈ [AuxOutcome.timeout, .receiveError, .reply 1 [], .reply 2 [], .reply 0xF (List.replicate 16 0)],
      o.possible = true ∧ o.fails (byteWriteTxn 0x103 0x0A).cmd (byteWriteTxn 0x103 0x0A).len = true :=
  ⟨_, awaiting_meets _ _ 6 [], rfl, write_failures⟩

theorem witness_SidebandWriteReachesPhy :
    (∃ s : State, s.host.reset = false ∧ s.op = .busy (.sideband [⟨0x12, 0x34⟩] ⟨1, 0⟩ .four .host) ∧ s.sb.busy = false)
      ∧ (∀ site ∈ [ApplySite.host, .setup, .crAdjust ⟨3, 0⟩, .eqStart, .eqAdjust ⟨3, 0⟩], ∃ s : State,
        s.host.reset = false ∧ s.op = .busy (.sideband [] ⟨3, 0⟩ .four site) ∧ s.aux.ctl.busy = false)
      ∧ (0x07 : Byte).toNat = (3 : BitVec 2).toNat + 4 + 8 * (0 : BitVec 2).toNat :=
  ⟨⟨at' (.sideband [⟨0x12, 0x34⟩] ⟨1, 0⟩ .four .host) [], rfl, rfl, rfl⟩,
    fun site _ => ⟨at' (.sideband [] ⟨3, 0⟩ .four site) [], rfl, rfl, rfl⟩, rfl⟩

theorem witness_RequestedLevelIsLegalMaximum :
    ∃ swing : Nat → Nat, ∀ l, swing l = (0x000000E1 : Word).toNat / 2 ^ (8 * (l / 2) + 4 * (l % 2)) % 4 := ⟨_, fun _ => rfl⟩

theorem witness_LinkTrainBeginsWithProbe : (idle []).op = .idle ∧ (idle []).aux.ctl.busy = false := ⟨rfl, rfl⟩

theorem witness_SetupReconfiguresPort :
    (∃ s, Awaiting (readTxn 0x00E 1) .rdInterval s ∧ s.ctx.lc.laneCount ≠ .four ∧ s.ctx.auxAttempt = 6
      ∧ (0x02 : Byte).toNat = s.ctx.lc.laneCount.toNat + (if s.ctx.lc.enhancedFraming then 128 else 0))
      ∧ (∃ data : List Byte, AuxOutcome.reply 0 [0x04] = .reply 0 data ∧ data.head? = some 0x04)
      ∧ ∀ o ∈ [AuxOutcome.timeout, .receiveError, .reply 0 [], .reply 2 [], .reply 3 []],
        o.possible = true ∧ o.fails .nativeRead 1 = true :=
  ⟨⟨_, awaitingLanes_meets .two _ _ 6, by decide, rfl, by decide⟩, ⟨_, rfl, rfl⟩, by decide⟩

theorem witness_FourLaneIdlePulse :
    (∃ s, Awaiting (readTxn 0x00E 1) .rdInterval s ∧ s.ctx.lc.laneCount = .four ∧ s.ctx.auxAttempt = 6)
      ∧ (∃ data : List Byte, AuxOutcome.reply 0 [0x04] = .reply 0 data ∧ data.head? = some 0x04)
      ∧ (AuxOutcome.timeout.possible = true ∧ AuxOutcome.timeout.fails .nativeRead 1 = true)
      ∧ ∃ s : State, s.host.reset = false ∧ s.aux.ctl.busy = false ∧ s.op = .busy (.waiting 30 .idlePulse)
        ∧ (0x01 : Byte).toNat = s.ctx.lc.laneCount.toNat + (if s.ctx.lc.enhancedFraming then 128 else 0) :=
  ⟨⟨_, awaitingLanes_meets .four _ _ 6, rfl, rfl⟩, ⟨_, rfl, rfl⟩, by decide, at' (.waiting 30 .idlePulse) [], rfl, rfl, rfl,
    by decide⟩

theorem witness_SetupProgramsSinkInOrder :
    ∀ site ∈ [AuxSite.laneCountSet, .linkBwSet, .pattern1, .laneSet .setup],
      ∃ s, Awaiting (byteWriteTxn 0x101 1) site s ∧ (byteWriteTxn 0x101 1).cmd.isRead = false :=
  fun site _ => ⟨_, awaiting_meets _ site 1 [], rfl⟩

theorem witness_AuxErrorEndsTraining :
    ∀ site ∈ [AuxSite.laneCountSet, .laneSet (.crAdjust ⟨1, 0⟩), .pattern2, .laneSet (.eqAdjust ⟨1, 0⟩)],
      ∃ s, Awaiting (byteWriteTxn 0x101 1) site s ∧ s.ctx.auxAttempt = 6
        ∧ ∀ o ∈ [AuxOutcome.timeout, .receiveError, .reply 1 [], .reply 2 [], .reply 0xF (List.replicate 16 0)],
          o.possible = true ∧ o.fails (byteWriteTxn 0x101 1).cmd (byteWriteTxn 0x101 1).len = true :=
  fun site _ => ⟨_, awaiting_meets _ site 6 [], rfl, write_failures⟩

theorem witness_PollReadsStatusAfterWait :
    (∃ s : State, s.host.reset = false ∧ s.aux.ctl.busy = false ∧ s.op = .busy (.waiting 100 .crPoll))
      ∧ ∃ s : State, s.host.reset = false ∧ s.aux.ctl.busy = false ∧ s.op = .busy (.waiting 400 .eqPoll) :=
  ⟨⟨at' (.waiting 100 .crPoll) [], rfl, rfl, rfl⟩, at' (.waiting 400 .eqPoll) [], rfl, rfl, rfl⟩

theorem witness_ClockRecoveryGate :
    (∃ s, Awaiting (readTxn 0x202 2) .crStatus s ∧ s.ctx.lc.laneCount = .four)
      ∧ (∀ l < 4, (if l < 2 then (0x11 : Byte).getLsbD (4 * l) else (0x11 : Byte).getLsbD (4 * (l - 2))) = true)
      ∧ ¬∀ l < 4, (if l < 2 then (0x11 : Byte).getLsbD (4 * l) else (0x01 : Byte).getLsbD (4 * (l - 2))) = true :=
  ⟨⟨_, awaitingLanes_meets .four _ _ 1, rfl⟩, by decide, by decide⟩

theorem witness_AdjustReadAppliesRequestedLevel :
    ∀ site ∈ [AuxSite.crAdjust, .eqAdjust], ∃ s, Awaiting (readTxn 0x206 2) site s :=
  fun site _ => ⟨_, awaiting_meets _ site 1 []⟩

theorem witness_SameLevelCounterAndCaps :
    (∃ s, Awaiting (byteWriteTxn 0x103 0x01) (.laneSet (.crAdjust ⟨1, 0⟩)) s ∧ s.ctx.crRepeat = 4 ∧ s.ctx.applied = ⟨1, 0⟩)
      ∧ ∃ s, Awaiting (byteWriteTxn 0x103 0x01) (.laneSet (.crAdjust ⟨1, 0⟩)) s ∧ s.par.crOverallCap = some 3 ∧ s.ctx.crPolls = 3 :=
  ⟨⟨{ awaiting (byteWriteTxn 0x103 0x01) (.laneSet (.crAdjust ⟨1, 0⟩)) 1 [] with
      ctx := { State.reset.ctx with crRepeat := 4, applied := ⟨1, 0⟩ } }, ⟨rfl, rfl, rfl, rfl⟩, rfl, rfl⟩,
    { awaiting (byteWriteTxn 0x103 0x01) (.laneSet (.crAdjust ⟨1, 0⟩)) 1 [] with
      ctx := { State.reset.ctx with crPolls := 3 }
      par := { par with crOverallCap := some 3 } }, ⟨rfl, rfl, rfl, rfl⟩, rfl, rfl⟩

theorem witness_EqualizationStartsFromAppliedLevel :
    ∀ site ∈ [AuxSite.pattern2, .laneSet .eqStart, .laneSet (.eqAdjust ⟨3, 0⟩)],
      ∃ s, Awaiting (byteWriteTxn 0x103 0) site s ∧ s.ctx.applied.legal = true ∧ (byteWriteTxn 0x103 0).cmd.isRead = false :=
  fun site _ => ⟨_, awaiting_meets _ site 1 [], rfl, rfl⟩

theorem witness_EqualizationPollChecksInOrder :
    (∃ s, Awaiting (readTxn 0x202 3) .eqStatus s ∧ s.ctx.eqIter = 5)
      ∧ ∃ bit : Nat → Nat → Bool,
        ∀ l k, bit l k = if l < 2 then (0x77 : Byte).getLsbD (4 * l + k) else (0x77 : Byte).getLsbD (4 * (l - 2) + k) :=
  ⟨⟨{ awaiting (readTxn 0x202 3) .eqStatus 1 [] with ctx := { State.reset.ctx with eqIter := 5 } }, ⟨rfl, rfl, rfl, rfl⟩, rfl⟩,
    _, fun _ _ => rfl⟩

theorem witness_ExitStepTwoFollowsSettleDelay :
    ∃ s : State, s.host.reset = false ∧ s.aux.ctl.busy = false ∧ s.op = .busy (.waiting 20 (.exit none)) :=
  ⟨at' (.waiting 20 (.exit none)) [], rfl, rfl, rfl⟩

theorem witness_ExitIsTwoWritesWithDelayBetween : (idle []).host.reset = false ∧ (idle []).aux.ctl.busy = false := ⟨rfl, rfl⟩

theorem witness_ExitReturnsResult :
    ∀ err ∈ [none, some (TrainingError.clockRecoveryFailed .sameLevelCap)],
      ∃ s, Awaiting (byteWriteTxn 0x102 0x00) (.exitPattern err) s ∧ s.ctx.auxAttempt = 6
        ∧ (byteWriteTxn 0x102 0x00).cmd.isRead = false
        ∧ ∀ o ∈ [AuxOutcome.timeout, .receiveError, .reply 1 [], .reply 2 [], .reply 0xF (List.replicate 16 0)],
          o.possible = true ∧ o.fails (byteWriteTxn 0x102 0x00).cmd (byteWriteTxn 0x102 0x00).len = true :=
  fun err _ => ⟨_, awaiting_meets _ (.exitPattern err) 6 [], rfl, rfl, write_failures⟩

/-- A training sink's answers (95_test_vectors.md section 2) from reset's registers. -/
theorem witness_LinkTrainCompletes :
    ∃ s : State, s.op = .idle ∧ s.host.reset = false ∧ s.aux.ctl.busy = false ∧ s.sb.busy = false
      ∧ s.chan.outcomes = .reply 0 [0x00] :: .reply 0 [] :: .reply 0 [] :: .reply 0 [] :: .reply 0 [] :: .reply 0 [0x11, 0x11]
        :: .reply 0 [] :: .reply 0 [] :: .reply 0 [0x77, 0x77, 0x01] :: .reply 0 [] :: [] :=
  ⟨idle [.reply 0 [0x00], .reply 0 [], .reply 0 [], .reply 0 [], .reply 0 [], .reply 0 [0x11, 0x11], .reply 0 [], .reply 0 [],
    .reply 0 [0x77, 0x77, 0x01], .reply 0 []], rfl, rfl, rfl, rfl, rfl⟩

/-- A Clock Recovery status read in flight meets the invariant. -/
theorem witness_inv : Inv (awaiting (readTxn 0x202 2) .crStatus 1 [.reply 0 [0x11, 0x11]]) := by
  refine ⟨Memory.wf_nil _, ⟨fun k => by fin_cases k <;> decide, by decide⟩, ⟨by decide, by decide, by decide⟩, by
    rintro ⟨h, -⟩; exact absurd h (by decide), ?_⟩
  exact ⟨readTxn_ok.1, ⟨rfl, rfl, rfl, rfl, rfl, rfl, rfl⟩, rfl, by decide,
    ⟨rfl, fun i j _ _ => by fin_cases i <;> fin_cases j <;> rfl, rfl, by decide⟩, rfl⟩

/-- The gate's step (CR-7's shape): from Clock Recovery to Equalization; it meets the hypotheses of StepKeepsInvariant,
NoModelFaultFromInvariant, EqualizationOnlyThroughGate, LtsmTransitions, NoAccessWhileBusy (an attempt in flight),
LinkConfigFixedDuringOperation and ParametersAndPastEventsKept. -/
theorem witness_gate_step :
    ∃ s t : State, Inv s ∧ s.host.reset = false ∧ (∃ pos, s.op = .busy pos) ∧ step s = .next t
      ∧ s.ctx.ltsmState ≠ .equalization ∧ t.ctx.ltsmState = .equalization :=
  ⟨awaiting (readTxn 0x202 2) .crStatus 1 [.reply 0 [0x11, 0x11]], _, witness_inv, rfl, ⟨_, rfl⟩, rfl, by decide, rfl⟩

theorem witness_PhyWrittenOnlyBySidebandAndNeverRead :
    ∃ s t : State, s.host.reset = false ∧ step s = .next t
      ∧ Memory.read s.par.sbDataWidth t.phy 5 ≠ Memory.read s.par.sbDataWidth s.phy 5 :=
  ⟨{ at' (.awaitSb [] ⟨0, 0⟩ .one .host) [] with sb := ⟨5, 7, 1, true⟩, phy := [(5, 0)] }, _, rfl, rfl,
    fun h => absurd ((Memory.read_write_same par.sbDataWidth 5 7 [(5, 0)]).symm.trans h) (show ¬7 = 0 by decide)⟩

theorem witness_ResultOnlyAtEndOfOperation :
    ∃ s t : State, s.host.reset = false ∧ step s = .next t ∧ t.host.result ≠ s.host.result :=
  ⟨awaiting (byteWriteTxn 0x100 0x0A) .auxExecute 1 [.reply 0 []], _, rfl, rfl, by decide⟩

/-- The second clause of NoModelFaultFromInvariant, with no byte of the buffer written: idle, and with a read awaited. -/
theorem witness_NoModelFaultFromInvariant_unwritten :
    ∀ s ∈ [idle [], awaiting (readTxn 0x202 2) .crStatus 1 []],
      s.aux.buf = Vector.replicate 16 none ∧ ∀ t site, s.op = .busy (.awaitAux t site) → t.Ok := by
  intro s hs
  simp only [List.mem_cons, List.not_mem_nil, or_false] at hs
  rcases hs with rfl | rfl
  · exact ⟨rfl, fun _ _ h => OpState.noConfusion h⟩
  · refine ⟨rfl, fun t site h => ?_⟩
    obtain ⟨rfl, -⟩ := Position.awaitAux.inj (OpState.busy.inj h)
    exact readTxn_ok.1

/-- Steps that leave a busy bit 1, for the last clauses of NoAccessWhileBusy: the TRAINING_LANE_SET write and a tuning
write are issued. -/
theorem witness_NoAccessWhileBusy_begun :
    (∃ s t : State, Inv s ∧ s.host.reset = false ∧ step s = .next t ∧ t.aux.ctl.busy = true)
      ∧ ∃ s t : State, Inv s ∧ s.host.reset = false ∧ step s = .next t ∧ t.sb.busy = true := by
  refine ⟨⟨at' (.sideband [] ⟨1, 0⟩ .four .host) [], _, ?_, rfl, rfl, rfl⟩,
    at' (.sideband [⟨5, 7⟩] ⟨1, 0⟩ .four .host) [], _, ?_, rfl, rfl, rfl⟩
  all_goals
    refine ⟨Memory.wf_nil _, ⟨fun k => by fin_cases k <;> decide, by decide⟩, ⟨by decide, by decide, by decide⟩, by
      rintro ⟨h, -⟩; exact absurd h (by decide), ?_⟩
  all_goals exact ⟨⟨rfl, rfl⟩, rfl, by decide, rfl, fun h => absurd rfl h⟩

/-- A sideband write in flight meets the invariant and the second clause of NoAccessWhileBusy. -/
theorem witness_NoAccessWhileBusy_sideband :
    ∃ s t : State, Inv s ∧ s.host.reset = false ∧ s.sb.busy = true ∧ step s = .next t := by
  refine ⟨{ at' (.awaitSb [] ⟨1, 0⟩ .four .host) [] with sb := ⟨5, 7, 1, true⟩ }, _, ?_, rfl, rfl, rfl⟩
  refine ⟨Memory.wf_nil _, ⟨fun k => by fin_cases k <;> decide, by decide⟩, ⟨by decide, by decide, by decide⟩, by
    rintro ⟨h, -⟩; exact absurd h (by decide), ?_⟩
  exact ⟨⟨rfl, rfl⟩, rfl, by decide, rfl, fun h => absurd rfl h⟩

theorem witness_StatusReadOnlyAfterWait :
    (∃ s t : State, s.host.reset = false ∧ step s = .next t ∧ s.op = .busy (.waiting 100 .crPoll)
      ∧ t.op = .busy (.awaitAux (readTxn 0x202 2) .crStatus))
    ∧ ∃ s t : State, s.host.reset = false ∧ step s = .next t ∧ s.op = .busy (.waiting 400 .eqPoll)
      ∧ t.op = .busy (.awaitAux (readTxn 0x202 3) .eqStatus) :=
  ⟨⟨at' (.waiting 100 .crPoll) [], _, rfl, rfl, rfl, rfl⟩, at' (.waiting 400 .eqPoll) [], _, rfl, rfl, rfl, rfl⟩

theorem witness_OnlyTrainingTouchesTrainingState :
    (∃ t, exec (.epcApply 1 0 4) (idle []) = .next t)
      ∧ ∃ t, exec (.replyAck []) (awaiting (byteWriteTxn 0x103 0x01) (.laneSet .host) 1 []) = .next t :=
  ⟨⟨_, rfl⟩, _, rfl⟩

end Sys2Proof.Tests
end

/-! PROOF. The statements about the block's state (10_state.md), and the lemmas they need. -/

namespace Sys2Proof.Machine

/-! ## Which agent a step runs (R47, R51, R340) -/

theorem step_of_reset {s : State} (hr : s.host.reset = true) : step s = .next s.afterReset := by simp [step, hr]

theorem step_of_idle {s : State} (hr : s.host.reset = false) (hop : s.op = .idle) : step s = hostStep s := by
  simp [step, hr, hop]

theorem step_of_busy {s : State} {pos : Position} (hr : s.host.reset = false) (hop : s.op = .busy pos) :
    step s = busyStep pos s := by
  simp [step, hr, hop]

/-- A step takes the reset input, is the host's while Idle, or is another agent's while Busy. -/
theorem step_cases {s t : State} (h : step s = .next t) :
    (s.host.reset = true ∧ t = s.afterReset)
      ∨ (s.host.reset = false ∧ s.op = .idle ∧ hostStep s = .next t)
      ∨ (s.host.reset = false ∧ ∃ pos, s.op = .busy pos ∧ busyStep pos s = .next t) := by
  cases hr : s.host.reset with
  | true => exact .inl ⟨rfl, by simpa [step_of_reset hr] using h.symm⟩
  | false =>
    cases hop : s.op with
    | idle => exact .inr (.inl ⟨rfl, rfl, step_of_idle hr hop ▸ h⟩)
    | busy pos => exact .inr (.inr ⟨rfl, pos, rfl, step_of_busy hr hop ▸ h⟩)

/-- `s` with the first record of the host's program taken. -/
def State.withProgram (rest : List HostRecord) (s : State) : State := { s with host := { s.host with program := rest } }

/-- The host's step waits with no record left, or runs the instruction the next record decodes to. -/
theorem hostStep_cases {s t : State} (h : hostStep s = .next t) :
    (s.host.program = [] ∧ t = s)
      ∨ ∃ r rest i, s.host.program = r :: rest ∧ decodeWhole r.format r.bytes = .ok i
        ∧ exec i (s.withProgram rest) = .next t := by
  unfold hostStep at h
  split at h
  case h_1 hp => exact .inl ⟨hp, by simpa using h.symm⟩
  case h_2 r rest hp =>
    split at h
    case h_1 => simp at h
    case h_2 i hd => exact .inr ⟨r, rest, i, hp, hd, h⟩

/-! ## The invariant (R53, R312, R346) -/

/-- The reset state's registers meet the invariant, whatever canonical list the PHY keeps (R340, R343). -/
theorem inv_afterReset {s : State} (h : Memory.wf s.par.sbDataWidth s.phy) : Inv s.afterReset where
  memory := h
  levels := show LevelsLegal State.reset.ctx from ⟨by decide, by decide⟩
  counters := show CountersBounded State.reset.ctx from ⟨by decide, by decide, by decide⟩
  flags := show FlagsExclusive State.reset.ctx.lc from fun hm => Bool.noConfusion hm.1
  position := ⟨⟨rfl, rfl⟩, rfl, rfl, fun hne => absurd rfl hne⟩

/-- Taking a record from the host's program keeps the invariant of an idle block. -/
theorem inv_withProgram {s : State} (rest : List HostRecord) (hop : s.op = .idle) (i : Inv s) :
    Inv (s.withProgram rest) := by
  have hpos : PositionOk s .idle := hop ▸ i.position
  refine ⟨i.memory, i.levels, i.counters, i.flags, ?_⟩
  show PositionOk (s.withProgram rest) s.op
  rw [hop]
  exact hpos

theorem inv_hostStep {s t : State} (hop : s.op = .idle) (i : Inv s) (h : hostStep s = .next t) : Inv t := by
  rcases hostStep_cases h with ⟨-, rfl⟩ | ⟨r, rest, ins, -, -, hx⟩
  · exact i
  · exact inv_exec (inv_withProgram rest hop i) hx

/-- Settles O50: the reset, the host's step and the other agents' steps each keep the invariant. -/
theorem stepKeepsInvariant : Obligations.StepKeepsInvariant := by
  intro s t i h
  rcases step_cases h with ⟨-, rfl⟩ | ⟨-, hop, hs⟩ | ⟨-, pos, hop, hs⟩
  · exact inv_afterReset i.memory
  · exact inv_hostStep hop i hs
  · exact inv_busy i hop hs

/-! ## What a step leaves unchanged (R43, R47, R53) -/

theorem keeps_withProgram (rest : List HostRecord) (s : State) : Keeps s (s.withProgram rest) :=
  ⟨rfl, rfl, ⟨rfl, rfl, rfl⟩, ⟨[], rfl⟩, fun _ h => h, .inl rfl⟩

theorem keeps_at (pos : Position) (s : State) : Keeps s (s.at pos) :=
  ⟨rfl, rfl, ⟨rfl, rfl, rfl⟩, ⟨[], rfl⟩, fun _ h => h, .inl rfl⟩

/-- The host's step has the frame of `Keeps`, but for LINK_TRAIN, which sets the link configuration. -/
theorem hostStep_keeps {s t : State} (h : hostStep s = .next t) :
    Keeps s t ∨ (t.phy = s.phy ∧ t.host.result = s.host.result) := by
  rcases hostStep_cases h with ⟨-, rfl⟩ | ⟨r, rest, i, -, -, hx⟩
  · exact .inl ⟨rfl, rfl, ⟨rfl, rfl, rfl⟩, ⟨[], rfl⟩, fun _ h => h, .inl rfl⟩
  · by_cases hl : ∃ m rate ef, i = .linkTrain m rate ef
    · obtain ⟨m, rate, ef, rfl⟩ := hl
      obtain ⟨-, hphy, -, -, hres, -⟩ := linkTrain_keeps hx
      exact .inr ⟨hphy, hres⟩
    · exact .inl ((keeps_withProgram rest s).trans rfl (keeps_exec (fun m rate ef e => hl ⟨m, rate, ef, e⟩) hx))

/-- A step without the reset input: only the host's LINK_TRAIN and the PHY's completion of a sideband write are outside the
frame of `Keeps`. -/
theorem step_keeps {s t : State} (hr : s.host.reset = false) (h : step s = .next t) :
    Keeps s t
      ∨ (s.op = .idle ∧ t.phy = s.phy ∧ t.host.result = s.host.result)
      ∨ (s.sb.busy = true ∧ ∃ todo l m site, s.op = .busy (.awaitSb todo l m site)
        ∧ t = s.phyComplete.at (.sideband todo l m site)) := by
  rcases step_cases h with ⟨hr', -⟩ | ⟨-, hop, hs⟩ | ⟨-, pos, hop, hs⟩
  · exact absurd (hr.symm.trans hr') Bool.false_ne_true
  · exact (hostStep_keeps hs).imp_right fun hk => .inl ⟨hop, hk⟩
  · by_cases hp : ∃ todo l m site, pos = .awaitSb todo l m site
    · obtain ⟨todo, l, m, site, rfl⟩ := hp
      rcases awaitSb_cases hs with ⟨hb, ht⟩ | ⟨-, rfl⟩
      · exact .inr (.inr ⟨hb, todo, l, m, site, hop, ht⟩)
      · exact .inl (keeps_at _ s)
    · exact .inl (keeps_busyStep hs fun todo l m site e => hp ⟨todo, l, m, site, e⟩)

/-- Settles O57: in the frame of `Keeps` a new result comes with the end of the operation, and the steps outside it leave
the result alone. -/
theorem resultOnlyAtEndOfOperation : Obligations.ResultOnlyAtEndOfOperation := by
  intro s t hr h hne
  rcases step_keeps hr h with hk | ⟨-, -, hres⟩ | ⟨-, todo, l, m, site, -, rfl⟩
  · exact hk.hostRes.resolve_left hne
  · exact absurd hres hne
  · exact absurd rfl hne

/-- Settles O58: the one step that sets the configuration, LINK_TRAIN's, is made while Idle. -/
theorem linkConfigFixedDuringOperation : Obligations.LinkConfigFixedDuringOperation := by
  intro s t pos hr hop h
  rcases step_keeps hr h with hk | ⟨hidle, -⟩ | ⟨-, todo, l, m, site, -, rfl⟩
  · exact hk.lc
  · rw [hop] at hidle; exact OpState.noConfusion hidle
  · exact ⟨rfl, rfl, rfl⟩

/-! ## The PHY's registers are never read (R43) -/

/-- `s` with other PHY registers. -/
def State.withPhy (m : Memory) (s : State) : State := { s with phy := m }

/-- An answer with other PHY registers in the next state. -/
def Out.withPhy (m : Memory) : Out → Out
  | .next s => .next (s.withPhy m)
  | .fault f => .fault f
  | .refused r => .refused r

/-- A part of a step that never reads the PHY's registers and leaves them alone: from a state with other registers it
answers the same, with those registers. -/
def PhyBlind (f : State → Out) : Prop := ∀ ⦃m : Memory⦄ ⦃s u : State⦄, u = s.withPhy m → f u = (f s).withPhy m

theorem loadPayload_withPhy (m : Memory) (i : Nat) (payload : List Byte) (s : State) :
    (s.withPhy m).loadPayload i payload = (s.loadPayload i payload).withPhy m := by
  induction i, payload, s using State.loadPayload.induct with
  | case5 i s b0 b1 b2 b3 rest ih => exact ih
  | _ => rfl

theorem prepareAttempt_withPhy (m : Memory) (t : Txn) (s : State) :
    (s.withPhy m).prepareAttempt t = (s.prepareAttempt t).withPhy m := by
  unfold State.prepareAttempt
  cases t.cmd.isRead with
  | true => rfl
  | false =>
    exact loadPayload_withPhy m 0 t.payload
      { s with ctx := { s.ctx with auxAttempt := s.ctx.auxAttempt + 1 } }.clearAuxCtl

theorem phyBlind_issue (w : Word) : PhyBlind (issue w) := by
  rintro m s _ rfl
  show issue w { s with phy := m } = (issue w s).withPhy m
  unfold issue
  dsimp only
  split
  · rfl
  · split <;> rfl

theorem phyBlind_attempt (t : Txn) (site : AuxSite) : PhyBlind (attempt t site) := by
  rintro m s _ rfl
  unfold attempt
  exact phyBlind_issue _ (congrArg (State.at _) (prepareAttempt_withPhy m t s))

theorem phyBlind_beginTxn (t : Txn) (site : AuxSite) : PhyBlind (beginTxn t site) := by
  rintro m s _ rfl
  exact phyBlind_attempt t site rfl

theorem phyBlind_auxTransaction (cmd : AuxCmd) (addr : Addr) (len : Nat) (payload : List Byte) :
    PhyBlind (auxTransaction cmd addr len payload) := by
  rintro m s _ rfl
  unfold auxTransaction
  split
  · rfl
  · exact phyBlind_beginTxn _ _ rfl

theorem phyBlind_applyLevel (l : Level) (lanes : LaneCount) (site : ApplySite) : PhyBlind (applyLevel l lanes site) := by
  rintro m s _ rfl
  unfold applyLevel
  split
  · rfl
  · split <;> rfl

theorem phyBlind_setupPort : PhyBlind setupPort := by
  rintro m s _ rfl
  exact phyBlind_beginTxn _ _ rfl

theorem applyDone_withPhy (site : ApplySite) (r : Result (List Byte) AuxError) (m : Memory) (s : State) :
    applyDone site r (s.withPhy m) = (applyDone site r s).withPhy m := by
  cases site with
  | crAdjust new =>
    cases r with
    | err e => rfl
    | ok bytes =>
      show crAdjusted new (.ok bytes) { s with phy := m } = (crAdjusted new (.ok bytes) s).withPhy m
      unfold crAdjusted
      dsimp only
      split
      · rfl
      · split <;> rfl
  | _ => cases r <;> rfl

theorem phyBlind_deliver (site : AuxSite) (r : Result (List Byte) AuxError) : PhyBlind (deliver site r) := by
  rintro m s _ rfl
  cases site with
  | laneSet site => exact congrArg _ (applyDone_withPhy site r m s)
  | rdInterval =>
    show setupInterval r { s with phy := m } = (setupInterval r s).withPhy m
    unfold setupInterval
    dsimp only
    split
    · rfl
    · exact phyBlind_setupPort rfl
  | laneCountSet | linkBwSet =>
    cases r with
    | err e => rfl
    | ok bytes => exact phyBlind_beginTxn _ _ rfl
  | pattern1 | crAdjust | pattern2 | eqAdjust =>
    cases r with
    | err e => rfl
    | ok bytes =>
      simp only [deliver, setupLevel, crAdjust, eqReapply, eqAdjust]
      exact phyBlind_applyLevel _ _ _ rfl
  | crStatus =>
    cases r with
    | err e => rfl
    | ok bytes =>
      show crCheck (.ok bytes) { s with phy := m } = (crCheck (.ok bytes) s).withPhy m
      unfold crCheck
      dsimp only
      split <;> exact phyBlind_beginTxn _ _ rfl
  | eqStatus =>
    cases r with
    | err e => rfl
    | ok bytes =>
      show eqCheck (.ok bytes) { s with phy := m } = (eqCheck (.ok bytes) s).withPhy m
      unfold eqCheck
      dsimp only
      split
      · rfl
      · split
        · rfl
        · split
          · rfl
          · exact phyBlind_beginTxn _ _ rfl
  | auxExecute | dpcdRead | dpcdReadProbe | dpcdWrite | exitPattern err => rfl

theorem phyBlind_verdict (t : Txn) (site : AuxSite) : PhyBlind (verdict t site) := by
  rintro m s _ rfl
  show verdict t site { s with phy := m } = (verdict t site s).withPhy m
  unfold verdict
  simp only [replyBytes_eq, State.log_aux]
  split
  · split
    · split
      · rfl
      · exact phyBlind_deliver _ _ rfl
    · exact phyBlind_deliver _ _ rfl
  · by_cases hn : s.ctx.auxAttempt < Config.auxMaxAttempts
    · rw [if_pos (by exact hn), if_pos (by exact hn)]
      exact phyBlind_attempt _ _ rfl
    · rw [if_neg (by exact hn), if_neg (by exact hn)]
      exact phyBlind_deliver _ _ rfl

theorem phyBlind_answer (o : AuxOutcome) : PhyBlind (answer o) := by
  rintro m s _ rfl
  show answer o { s with phy := m } = (answer o s).withPhy m
  unfold answer resume
  simp only [State.complete_op]
  split
  · rfl
  · split
    · split
      · exact phyBlind_verdict _ _ rfl
      · rfl
    · rfl

theorem phyBlind_hostOp (i : Instr) {body : State → Out} (hb : PhyBlind body) : PhyBlind fun s => hostOp i s body := by
  rintro m s _ rfl
  show hostOp i { s with phy := m } body = Out.withPhy m (hostOp i s body)
  unfold hostOp
  dsimp only
  split
  · rfl
  · split
    · rfl
    · exact hb rfl

theorem phyBlind_exec (i : Instr) : PhyBlind (exec i) := by
  intro m s u e
  cases i with
  | nativeWrite | nativeRead | i2cWrite | i2cRead | i2cWriteMot | i2cReadMot =>
    simp only [exec, execNativeWrite, execNativeRead, execI2cWrite, execI2cRead, execI2cWriteMot, execI2cReadMot]
    exact phyBlind_hostOp _ (phyBlind_auxTransaction _ _ _ _) e
  | replyAck | replyNack | replyDefer => exact phyBlind_answer _ e
  | auxExecute cmd addr len payload =>
    simp only [exec, execAuxExecute]
    refine phyBlind_hostOp _ (fun m s u e => ?_) e
    cases AuxCmd.ofNibble? cmd with
    | none => rfl
    | some c => exact phyBlind_auxTransaction c _ len payload e
  | dpcdRead addr n | dpcdReadProbe addr n | dpcdWrite addr n value =>
    simp only [exec, execDpcdRead, execDpcdReadProbe, execDpcdWrite]
    refine phyBlind_hostOp _ (fun m s u e => ?_) e
    cases badCount n with
    | true => subst e; rfl
    | false => exact phyBlind_beginTxn _ _ e
  | epcApply swing pre laneCount =>
    simp only [exec, execEpcApply]
    refine phyBlind_hostOp _ (fun m s u e => ?_) e
    cases LaneCount.ofNat? laneCount with
    | none => rfl
    | some m => exact phyBlind_applyLevel _ _ _ e
  | linkTrain laneCount rate ef =>
    simp only [exec, execLinkTrain]
    refine phyBlind_hostOp _ (fun m s u e => ?_) e
    subst e
    cases LaneCount.ofNat? laneCount with
    | none => rfl
    | some m => exact phyBlind_beginTxn _ _ rfl

theorem phyBlind_hostStep : PhyBlind hostStep := by
  rintro m s _ rfl
  show hostStep { s with phy := m } = (hostStep s).withPhy m
  unfold hostStep
  dsimp only
  split
  · rfl
  · split
    · rfl
    · exact phyBlind_exec _ rfl

theorem nextOutcome_withPhy (m : Memory) (s : State) :
    (s.withPhy m).nextOutcome = (s.nextOutcome.1, s.nextOutcome.2.withPhy m) := by
  show State.nextOutcome { s with phy := m } = _
  unfold State.nextOutcome
  dsimp only
  split <;> rfl

theorem phyBlind_channelStep : PhyBlind channelStep := by
  rintro m s _ rfl
  rw [channelStep_eq, channelStep_eq, nextOutcome_withPhy]
  exact phyBlind_answer _ rfl

theorem phyBlind_timerStep (site : WaitSite) : PhyBlind (timerStep site) := by
  rintro m s _ rfl
  cases site with
  | idlePulse => exact phyBlind_setupPort rfl
  | crPoll | eqPoll | exit err => exact phyBlind_beginTxn _ _ rfl

theorem phyBlind_sidebandHead (todo : List SbWrite) (l : Level) (lanes : LaneCount) (site : ApplySite) :
    PhyBlind (sidebandHead todo l lanes site) := by
  rintro m s _ rfl
  cases todo with
  | nil => exact phyBlind_beginTxn _ _ rfl
  | cons w rest =>
    show sidebandWrite w { s with phy := m, op := _ } = (sidebandWrite w { s with op := _ }).withPhy m
    unfold sidebandWrite
    dsimp only
    split <;> rfl

theorem busyStep_awaitSb_busy {todo : List SbWrite} {l : Level} {lanes : LaneCount} {site : ApplySite} {s : State}
    (hb : s.sb.busy = true) :
    busyStep (.awaitSb todo l lanes site) s = .next (s.phyComplete.at (.sideband todo l lanes site)) := by
  simp [busyStep, sidebandAwait, hb]

theorem busyStep_awaitSb_clear {todo : List SbWrite} {l : Level} {lanes : LaneCount} {site : ApplySite} {s : State}
    (hb : s.sb.busy = false) :
    busyStep (.awaitSb todo l lanes site) s = .next (s.at (.sideband todo l lanes site)) := by
  simp [busyStep, sidebandAwait, hb]

/-- Of the parts of a step only the PHY's completion reads or writes its registers. -/
theorem phyBlind_busyStep {pos : Position} (hp : ∀ todo l lanes site, pos ≠ .awaitSb todo l lanes site) :
    PhyBlind (busyStep pos) := by
  rintro m s _ rfl
  cases pos with
  | awaitAux t site =>
    show (if s.aux.ctl.busy then channelStep (s.withPhy m) else verdict t site (s.withPhy m)) = _
    unfold busyStep
    dsimp only
    split
    · exact phyBlind_channelStep rfl
    · exact phyBlind_verdict t site rfl
  | sideband todo l lanes site => exact phyBlind_sidebandHead todo l lanes site rfl
  | awaitSb todo l lanes site => exact absurd rfl (hp todo l lanes site)
  | waiting us site => exact phyBlind_timerStep site rfl

/-- With other PHY registers a step answers the same but for those registers. -/
theorem step_withPhy {s t : State} (m : Memory) (h : step s = .next t) :
    ∃ m', step (s.withPhy m) = .next (t.withPhy m') := by
  rcases step_cases h with ⟨hr, rfl⟩ | ⟨hr, hop, hs⟩ | ⟨hr, pos, hop, hs⟩
  · exact ⟨m, step_of_reset hr⟩
  · refine ⟨m, ?_⟩
    rw [step_of_idle (s := s.withPhy m) hr hop, phyBlind_hostStep rfl, hs]
    rfl
  · rw [step_of_busy (s := s.withPhy m) hr hop]
    by_cases hp : ∃ todo l lanes site, pos = .awaitSb todo l lanes site
    · obtain ⟨todo, l, lanes, site, rfl⟩ := hp
      rcases awaitSb_cases hs with ⟨hb, rfl⟩ | ⟨hb, rfl⟩
      · exact ⟨_, by rw [busyStep_awaitSb_busy (s := s.withPhy m) hb]; rfl⟩
      · exact ⟨m, by rw [busyStep_awaitSb_clear (s := s.withPhy m) hb]; rfl⟩
    · refine ⟨m, ?_⟩
      rw [phyBlind_busyStep (fun todo l lanes site e => hp ⟨todo, l, lanes, site, e⟩) rfl, hs]
      rfl

/-- Settles O56: only the PHY's completion of a sideband write is outside the frame of `Keeps`, and it writes the addressed
register alone; and every other part of a step is blind to the PHY's registers. -/
theorem phyWrittenOnlyBySidebandAndNeverRead : Obligations.PhyWrittenOnlyBySidebandAndNeverRead := by
  refine ⟨fun s t a hr h hne => ?_, fun s t phy h => step_withPhy phy h⟩
  rcases step_keeps hr h with hk | ⟨-, hphy, -⟩ | ⟨hb, todo, l, m, site, hop, rfl⟩
  · exact absurd (by rw [hk.phy]) hne
  · exact absurd (by rw [hphy]) hne
  · simp only [State.at_phy, State.phyComplete_phy] at hne ⊢
    have ha : a = s.sb.addr := by
      by_contra hna
      exact hne (Memory.read_write_other _ _ _ hna)
    subst ha
    exact ⟨hb, rfl, rfl, Memory.read_write_same .., todo, l, m, site, hop⟩

/-! ## The host interface and the replies (R44, R47, R49) -/

/-- An instruction of the host's, not a reply of the AUX channel's, goes through the host interface's check. -/
theorem exec_eq_hostOp {i : Instr} (hi : i.format ≠ .auxReply) :
    ∃ body : State → Out, ∀ s, exec i s = hostOp i s body := by
  cases i with
  | replyAck | replyNack | replyDefer => exact absurd rfl hi
  | _ =>
    simp only [exec, execNativeWrite, execNativeRead, execI2cWrite, execI2cRead, execI2cWriteMot, execI2cReadMot,
      execAuxExecute, execDpcdRead, execDpcdReadProbe, execDpcdWrite, execEpcApply, execLinkTrain]
    exact ⟨_, fun _ => rfl⟩

/-- Settles O6: the host interface refuses malformed operands and records, and the AUX channel's step the two kinds of
reply. -/
theorem malformedInputsRefused : Obligations.MalformedInputsRefused := by
  refine ⟨fun i s hi hw => ?_, fun s r rest e hr hop hp hd => ?_, fun s data i hi => ?_⟩
  · obtain ⟨body, hb⟩ := exec_eq_hostOp hi
    rw [hb, hostOp_illFormed s body hw]
  · rw [step_of_idle hr hop]
    simp [hostStep, hp, hd]
  · obtain ⟨status, hx⟩ : ∃ status, exec i s = answer (.reply status data) s := by
      simp only [List.mem_cons, List.not_mem_nil, or_false] at hi
      rcases hi with rfl | rfl | rfl <;> exact ⟨_, rfl⟩
    rw [hx]
    exact ⟨fun hl => by simp [answer, AuxOutcome.possible, hl],
      fun hl hb => by simp [answer, AuxOutcome.possible, hl, hb]⟩

/-- Settles O7: the host interface refuses an operation while Busy, and the host's step waits with no record left. -/
theorem hostMovesOnlyWhileIdle : Obligations.HostMovesOnlyWhileIdle := by
  refine ⟨fun i s pos hi hw hop => ?_, fun s hr hop hp => ?_⟩
  · obtain ⟨body, hb⟩ := exec_eq_hostOp hi
    rw [hb, hostOp_busy body hw hop]
  · rw [step_of_idle hr hop]
    simp [hostStep, hp]

/-- A reply with a named status is the instruction of that name (R125). -/
theorem exec_of_replyInstr {status : BitVec 4} {data : List Byte} {i : Instr} (h : replyInstr? status data = some i)
    (s : State) : exec i s = answer (.reply status data) s := by
  unfold replyInstr? at h
  split_ifs at h with h0 h1 h2 <;> obtain rfl := Option.some.inj h <;> subst status <;> rfl

/-- What the channel's oracle draws can be produced (R44). -/
theorem drawOutcome_possible (n : Nat) : (drawOutcome n).possible = true := by
  unfold drawOutcome
  split
  · rfl
  · rfl
  · simpa [AuxOutcome.possible] using Nat.le_of_lt_succ (Config.drawLen n).isLt

/-- A listed outcome is the AUX channel's next. -/
theorem step_of_listed {s : State} {t : Txn} {site : AuxSite} {o : AuxOutcome} {rest : List AuxOutcome}
    (hr : s.host.reset = false) (hop : s.op = .busy (.awaitAux t site)) (hb : s.aux.ctl.busy = true)
    (hl : s.chan.outcomes = o :: rest) : step s = answer o { s with chan := { s.chan with outcomes := rest } } := by
  rw [step_awaitAux hr hop hb]
  simp [State.nextOutcome, hl]

/-- Settles O8: a step takes the record or the reply from its list and runs what it decodes to; with no outcome listed it
does what it would with the drawn one listed. -/
theorem stepRunsDecodedInstruction : Obligations.StepRunsDecodedInstruction := by
  refine ⟨fun s r rest i hr hop hp hd => ?_, fun s t site status data rest i hr hop hb hl hi => ?_,
    fun s t site hr hop hb => ⟨fun o rest hl _ => step_of_listed hr hop hb hl, fun hnil => ?_⟩⟩
  · rw [step_of_idle hr hop]
    simp [hostStep, hp, hd]
  · rw [step_of_listed hr hop hb hl, exec_of_replyInstr hi]
  · refine ⟨drawOutcome s.chan.draws, drawOutcome_possible _, ?_⟩
    rw [step_of_listed (s := { s with chan := ⟨[_], _⟩ }) hr hop hb rfl, step_awaitAux hr hop hb]
    simp [State.nextOutcome, hnil]

/-! ## The answer to an awaited attempt (R44, R167 to R169) -/

/-- Taking the next outcome changes the AUX channel's side alone. -/
theorem nextOutcome_state (s : State) : s.nextOutcome.2 = { s with chan := s.nextOutcome.2.chan } := by
  unfold State.nextOutcome
  split <;> rfl

theorem awaiting_nextOutcome {t : Txn} {site : AuxSite} {s : State} (h : Awaiting t site s) :
    Awaiting t site s.nextOutcome.2 := by
  rw [nextOutcome_state]
  exact h

/-- Whether listed or drawn, the next outcome can be produced, and so can those listed after it. -/
theorem nextOutcome_possible {s : State} (h : ∀ o ∈ s.chan.outcomes, o.possible = true) :
    s.nextOutcome.1.possible = true ∧ ∀ o ∈ s.nextOutcome.2.chan.outcomes, o.possible = true := by
  unfold State.nextOutcome
  split
  case h_1 o rest hl => exact ⟨h o (by simp [hl]), fun o' ho' => h o' (by simp [hl, ho'])⟩
  case h_2 hl => exact ⟨drawOutcome_possible _, h⟩

/-- The state in which the engine has read `AUX_CTL` after an outcome (R166, R167). -/
def State.answered (o : AuxOutcome) (s : State) : State := (s.complete o).log (.auxCtlRead (s.complete o).aux.ctl)

/-- An outcome that can be produced makes the engine retry the attempt, give up, or deliver the reply's bytes. -/
theorem answer_cases {t : Txn} {site : AuxSite} {s : State} {o : AuxOutcome} (aw : Awaiting t site s) (ok : t.Ok)
    (ho : o.possible = true) :
    (s.ctx.auxAttempt < Config.auxMaxAttempts ∧ answer o s = .next ((s.answered o).issued t site))
      ∨ (Config.auxMaxAttempts ≤ s.ctx.auxAttempt ∧ answer o s = deliver site (.err .noResponse) (s.answered o))
      ∨ ∃ status data, o = .reply status data ∧ o.fails t.cmd t.len = false
        ∧ answer o s = deliver site (.ok (txnResult t data)) (s.accepted t o) := by
  obtain ⟨hop, hb, ht, hr⟩ := aw
  cases hf : o.fails t.cmd t.len with
  | true =>
    rcases Nat.lt_or_ge s.ctx.auxAttempt Config.auxMaxAttempts with hn | hn
    · exact .inl ⟨hn, answer_retries hop hb ok ho hf hn⟩
    · exact .inr (.inl ⟨hn, answer_exhausts hop hb ho hf hn⟩)
  | false =>
    cases o with
    | timeout | receiveError => exact absurd hf Bool.noConfusion
    | reply status data =>
      refine .inr (.inr ⟨status, data, rfl, rfl, ?_⟩)
      rw [answer_awaiting ho hop hb, verdict_success site (by simpa [AuxOutcome.possible] using ho) hf ht hr]

/-! ## A transaction ends (R45, R353) -/

/-- The host's transaction has ended with a result. -/
def AuxExecuted (u : State) : Prop := u.op = .idle ∧ ∃ r, u.host.result = some (.auxBytes r)

/-- A transaction of the host's runs: its attempt is awaited, and the listed outcomes can be produced. -/
structure AuxRunning (t : Txn) (s : State) : Prop where
  reset : s.host.reset = false
  awaiting : Awaiting t .auxExecute s
  possible : ∀ o ∈ s.chan.outcomes, o.possible = true

theorem deliver_auxExecute (r : Result (List Byte) AuxError) (s : State) :
    ∃ u, deliver .auxExecute r s = .next u ∧ AuxExecuted u :=
  ⟨_, rfl, rfl, r, rfl⟩

/-- A step of a running transaction ends it, or is one of at most six attempts. -/
theorem auxRunning_step {t : Txn} {s : State} (h : AuxRunning t s) (ok : t.Ok) :
    ∃ u, step s = .next u ∧ (AuxExecuted u
      ∨ (s.ctx.auxAttempt < Config.auxMaxAttempts ∧ AuxRunning t u ∧ u.ctx.auxAttempt = s.ctx.auxAttempt + 1)) := by
  obtain ⟨hr, aw, hp⟩ := h
  obtain ⟨ho, hp'⟩ := nextOutcome_possible hp
  have hs := nextOutcome_state s
  rw [step_awaitAux hr aw.1 aw.2.1]
  rcases answer_cases (awaiting_nextOutcome aw) ok ho with ⟨hn, ha⟩ | ⟨-, ha⟩ | ⟨status, data, -, -, ha⟩
  · have sp := issued_spec t .auxExecute (s.nextOutcome.2.answered s.nextOutcome.1)
    obtain ⟨iop, ibusy, -, itimeout, ireceive, -⟩ := sp.inFlight
    refine ⟨_, ha, .inr ⟨by rw [hs] at hn; exact hn, ⟨?_, ⟨iop, ibusy, itimeout, ireceive⟩, ?_⟩, ?_⟩⟩
    · rw [sp.host, hs]; exact hr
    · rw [sp.chan]; exact hp'
    · rw [sp.attempts, hs]; rfl
  · obtain ⟨u, hu, hx⟩ := deliver_auxExecute (.err .noResponse) (s.nextOutcome.2.answered s.nextOutcome.1)
    exact ⟨u, ha.trans hu, .inl hx⟩
  · obtain ⟨u, hu, hx⟩ := deliver_auxExecute (.ok (txnResult t data)) (s.nextOutcome.2.accepted t s.nextOutcome.1)
    exact ⟨u, ha.trans hu, .inl hx⟩

theorem run_succ {n : Nat} {s u : State} (h : step s = .next u) : run (n + 1) s = run n u := by simp [run, h]

/-- With `k` attempts left after the one awaited, a running transaction ends within `k + 1` steps. -/
theorem auxRunning_ends {t : Txn} (ok : t.Ok) (k : Nat) : ∀ {s : State}, AuxRunning t s →
    s.ctx.auxAttempt + k = Config.auxMaxAttempts → ∃ n u, n ≤ k + 1 ∧ run n s = .next u ∧ AuxExecuted u := by
  induction k with
  | zero =>
    intro s h hk
    obtain ⟨u, hu, hx | ⟨hn, -⟩⟩ := auxRunning_step h ok
    · exact ⟨1, u, le_refl 1, run_succ hu, hx⟩
    · omega
  | succ k ih =>
    intro s h hk
    obtain ⟨u, hu, hx | ⟨-, h', hc⟩⟩ := auxRunning_step h ok
    · exact ⟨1, u, by omega, run_succ hu, hx⟩
    · obtain ⟨n, v, hn, hv, hx⟩ := ih h' (by omega)
      exact ⟨n + 1, v, by omega, (run_succ hu).trans hv, hx⟩

/-- Settles O21, by induction on the attempts left. -/
theorem transactionAlwaysEnds : Obligations.TransactionAlwaysEnds := by
  intro s t hr ok aw _ h6 hp
  have hk : s.ctx.auxAttempt + (6 - s.ctx.auxAttempt) = Config.auxMaxAttempts := Nat.add_sub_cancel' h6
  obtain ⟨n, u, hn, hu, hx⟩ := auxRunning_ends ok (6 - s.ctx.auxAttempt) ⟨hr, aw, hp⟩ hk
  exact ⟨n, u, by omega, hu, hx⟩

/-! ## Where a payload stands in `AUX_DATA` (R39, R164, R168) -/

/-- The value of register `j` for a payload, 0x00 past its end (R164). -/
def payloadWord (p : Packing) (payload : List Byte) (j : Nat) : Word :=
  packWord p (payload.getD (4 * j) 0) (payload.getD (4 * j + 1) 0) (payload.getD (4 * j + 2) 0) (payload.getD (4 * j + 3) 0)

/-- Byte `k` in buffer order of a packed register is in its place of the word (R39). -/
theorem packWord_byte (p : Packing) (a b c d : Byte) {k : Nat} (hk : k < 4) :
    (packWord p a b c d).extractLsb' (if p = .bigEndian then 24 - 8 * k else 8 * k) 8 = [a, b, c, d].getD k 0 := by
  rw [← unpackWord_packWord p a b c d]
  cases p <;> interval_cases k <;> rfl

/-- Four bytes in buffer order that hold a value make the register's value (R39). -/
theorem auxData_eq_packWord {p : Packing} {buf : Vector (Option Byte) 16} {i : Nat} {a b c d : Byte}
    (h : (buf.toList.drop (4 * i)).take 4 = [some a, some b, some c, some d]) :
    auxData p buf i = some (packWord p a b c d) := by
  cases p <;> simp [auxData, auxDataLanes, h, packWord]

/-- Loading from register `i` on leaves the bytes below it alone. -/
theorem loadPayload_below (i : Nat) (payload : List Byte) (s : State) (h : 4 * i + payload.length ≤ 16) :
    (s.loadPayload i payload).aux.buf.toList.take (4 * i) = s.aux.buf.toList.take (4 * i) := by
  have ht := congrArg (List.take (4 * i)) (loadPayload_take i payload s h)
  simpa [List.take_take, List.take_append, show min (4 * i) 16 = 4 * i by omega] using ht

/-- A register's value depends on the buffer up to its last byte. -/
theorem auxData_congr {p : Packing} {buf buf' : Vector (Option Byte) 16} {i : Nat}
    (h : buf.toList.take (4 * i + 4) = buf'.toList.take (4 * i + 4)) : auxData p buf i = auxData p buf' i := by
  simp only [auxData, auxDataLanes, List.take_drop, h]

/-- The register `j` of `s` has been written with `v` and holds it. -/
def RegisterHolds (j : Nat) (v : Word) (s : State) : Prop :=
  .auxDataWrite j v ∈ s.events ∧ auxData s.par.packing s.aux.buf j = some v

theorem writeAuxData_holds (i : Nat) (a b c d : Byte) (s : State) (h : 4 * i + 4 ≤ 16) :
    RegisterHolds i (packWord s.par.packing a b c d) (s.writeAuxData i (packWord s.par.packing a b c d)) := by
  refine ⟨List.mem_cons_self, auxData_eq_packWord ?_⟩
  rw [List.take_drop, writeAuxData_take i a b c d s h, List.drop_left' (by simp; omega)]

/-- Loading the registers from `i + 1` on leaves what register `i` holds. -/
theorem registerHolds_loadPayload {i : Nat} {v : Word} {s : State} (payload : List Byte)
    (hl : 4 * (i + 1) + payload.length ≤ 16) (h : RegisterHolds i v s) :
    RegisterHolds i v (s.loadPayload (i + 1) payload) := by
  obtain ⟨hev, hv⟩ := h
  obtain ⟨new, he, -⟩ := loadPayload_events (i + 1) payload s
  refine ⟨by rw [he]; exact List.mem_append_right _ hev, ?_⟩
  rw [(loadPayload_only (i + 1) payload s).par, auxData_congr (loadPayload_below (i + 1) payload s hl), hv]

theorem payloadWord_succ (p : Packing) (b0 b1 b2 b3 : Byte) (rest : List Byte) (j : Nat) :
    payloadWord p (b0 :: b1 :: b2 :: b3 :: rest) (j + 1) = payloadWord p rest j := rfl

/-- Every register a loaded payload reaches has been written with the payload's word and holds it. -/
theorem loadPayload_holds (i : Nat) (payload : List Byte) (s : State) (h : 4 * i + payload.length ≤ 16) :
    ∀ j, 4 * j < payload.length →
      RegisterHolds (i + j) (payloadWord s.par.packing payload j) (s.loadPayload i payload) := by
  induction i, payload, s using State.loadPayload.induct with
  | case1 i s => intro j hj; exact absurd hj (Nat.not_lt_zero _)
  | case2 i s b0 =>
    intro j hj
    simp only [List.length_cons, List.length_nil] at h hj
    obtain rfl : j = 0 := by omega
    exact writeAuxData_holds i b0 0 0 0 s (by omega)
  | case3 i s b0 b1 =>
    intro j hj
    simp only [List.length_cons, List.length_nil] at h hj
    obtain rfl : j = 0 := by omega
    exact writeAuxData_holds i b0 b1 0 0 s (by omega)
  | case4 i s b0 b1 b2 =>
    intro j hj
    simp only [List.length_cons, List.length_nil] at h hj
    obtain rfl : j = 0 := by omega
    exact writeAuxData_holds i b0 b1 b2 0 s (by omega)
  | case5 i s b0 b1 b2 b3 rest ih =>
    intro j hj
    simp only [List.length_cons] at h hj
    cases j with
    | zero => exact registerHolds_loadPayload rest (by omega) (writeAuxData_holds i b0 b1 b2 b3 s (by omega))
    | succ j =>
      rw [payloadWord_succ, ← Nat.succ_add_eq_add_succ]
      exact ih (by omega) j (by omega)

/-- Settles O22: the payload is the buffer's first bytes, and each register it reaches holds its word. -/
theorem auxDataPackingCancels : Obligations.AuxDataPackingCancels := by
  intro s payload hl
  refine ⟨?_, fun i hi => ?_⟩
  · have ht := loadPayload_take 0 payload s (by omega)
    simp only [Nat.mul_zero, Nat.zero_add, List.take_zero, List.nil_append] at ht
    rw [replyBytes_eq, ht, allSome_map_some]
  · have hh := loadPayload_holds 0 payload s (by omega) i hi
    rw [Nat.zero_add] at hh
    obtain ⟨hev, hv⟩ := hh
    rw [(loadPayload_only 0 payload s).par] at hv
    refine ⟨_, hev, hv, fun k hk => ?_⟩
    rw [payloadWord, packWord_byte _ _ _ _ _ hk]
    interval_cases k <;> rfl

/-! ## Which bits a read's value holds (R96, R144, R192) -/

theorem leNat_testBit (bytes : List Byte) (k : Nat) {i : Nat} (hi : i < 8) :
    (leNat bytes).testBit (8 * k + i) = (bytes.getD k 0).getLsbD i := by
  induction bytes generalizing k with
  | nil => simp [leNat]
  | cons b rest ih =>
    have hsplit := Nat.testBit_two_pow_mul_add (leNat rest) (i := 8) b.isLt (8 * k + i)
    rw [leNat, Nat.add_comm, show 256 = 2 ^ 8 by rfl, hsplit]
    cases k with
    | zero => simp [hi, BitVec.getLsbD]
    | succ k => rw [if_neg (by omega), show 8 * (k + 1) + i - 8 = 8 * k + i by omega, ih k, List.getD_cons_succ]

/-- Bit `i` of byte `k` of a read's bytes is bit `8k+i` of its value. -/
theorem leValue_getLsbD (bytes : List Byte) {k i : Nat} (hk : k < 4) (hi : i < 8) :
    (leValue bytes).getLsbD (8 * k + i) = (bytes.getD k 0).getLsbD i := by
  rw [leValue, BitVec.getLsbD_ofNat, leNat_testBit bytes k hi, decide_eq_true (by omega), Bool.true_and]

theorem allLanes_eq_true {m : Nat} {f : Nat → Bool} (h : allLanes m f = true) : ∀ l < m, f l = true := by
  induction m with
  | zero => intro l hl; exact absurd hl (Nat.not_lt_zero l)
  | succ m ih =>
    obtain ⟨hm, hf⟩ := Bool.and_eq_true_iff.mp h
    intro l hl
    rcases Nat.lt_succ_iff_lt_or_eq.mp hl with hlt | rfl
    · exact ih hm l hlt
    · exact hf

/-- The gate's test reads `clock_recovery_done` of each active lane, two lanes a byte (R144, R252). -/
theorem allCrDone_bits {data : List Byte} {m : LaneCount} (h : allCrDone (leValue (data.take 2)) m = true) :
    ∀ l < m.toNat, (data.getD (l / 2) 0).getLsbD (4 * (l % 2)) = true := by
  intro l hl
  have hm := m.toNat_bounds
  have hbit : (leValue (data.take 2)).getLsbD (8 * (l / 2) + 4 * (l % 2)) = true := allLanes_eq_true h l hl
  rw [leValue_getLsbD _ (by omega) (by omega)] at hbit
  rwa [List.getD_eq_getElem?_getD, List.getElem?_take_of_lt (by omega), ← List.getD_eq_getElem?_getD] at hbit

/-! ## Where Equalization is entered (R53, R252) -/

/-- This part of a step does not enter Equalization. -/
def NoEntry (s u : State) : Prop := u.ctx.ltsmState = .equalization → s.ctx.ltsmState = .equalization

theorem noEntry_beginTxn {t : Txn} {site : AuxSite} {s b u : State} (h : beginTxn t site b = .next u)
    (hb : NoEntry s b) : NoEntry s u := by
  obtain ⟨-, -, -, hc, -⟩ := keeps_begin h
  intro hu
  rw [hc] at hu
  exact hb hu

theorem noEntry_applyLevel {l : Level} {lanes : LaneCount} {site : ApplySite} {s u : State}
    (h : applyLevel l lanes site s = .next u) : NoEntry s u := by
  unfold applyLevel at h
  split at h
  · obtain rfl := Host.Outcome.next.inj h; exact id
  · split at h
    · obtain rfl := Host.Outcome.next.inj h; exact id
    · nomatch h

theorem noEntry_applyDone (site : ApplySite) (r : Result (List Byte) AuxError) (s : State) :
    NoEntry s (applyDone site r s) := by
  cases site with
  | crAdjust new =>
    cases r with
    | err e => exact id
    | ok bytes =>
      simp only [applyDone, crAdjusted]
      split
      · exact id
      · split <;> exact id
  | _ => cases r <;> exact id

/-- Only the delivery of a Clock Recovery status with every active lane's bit set enters Equalization. -/
theorem deliver_entry {site : AuxSite} {r : Result (List Byte) AuxError} {s u : State} (h : deliver site r s = .next u) :
    NoEntry s u
      ∨ (site = .crStatus ∧ ∃ bytes, r = .ok bytes ∧ allCrDone (leValue bytes) s.ctx.lc.laneCount = true) := by
  cases site with
  | auxExecute | dpcdRead | dpcdReadProbe | dpcdWrite => obtain rfl := Host.Outcome.next.inj h; exact .inl id
  | laneSet site => obtain rfl := Host.Outcome.next.inj h; exact .inl (noEntry_applyDone site r s)
  | exitPattern err =>
    obtain rfl := Host.Outcome.next.inj h
    refine .inl fun hu => absurd hu ?_
    simp only [exitDone, State.endOp_ctx]
    split <;> exact LtsmState.noConfusion
  | rdInterval =>
    refine .inl ?_
    simp only [deliver, setupInterval] at h
    split at h
    · obtain rfl := Host.Outcome.next.inj h; exact id
    · exact noEntry_beginTxn h id
  | crStatus =>
    cases r with
    | err e => obtain rfl := Host.Outcome.next.inj h; exact .inl id
    | ok bytes =>
      simp only [deliver, crCheck] at h
      split at h
      case isTrue hg => exact .inr ⟨rfl, bytes, rfl, hg⟩
      case isFalse => exact .inl (noEntry_beginTxn h id)
  | laneCountSet | linkBwSet =>
    cases r with
    | err e => obtain rfl := Host.Outcome.next.inj h; exact .inl id
    | ok bytes =>
      simp only [deliver, setupBandwidth, setupPattern] at h
      exact .inl (noEntry_beginTxn h id)
  | pattern1 | crAdjust | pattern2 | eqAdjust =>
    cases r with
    | err e => obtain rfl := Host.Outcome.next.inj h; exact .inl id
    | ok bytes =>
      simp only [deliver, setupLevel, crAdjust, eqReapply, eqAdjust] at h
      exact .inl (noEntry_applyLevel h)
  | eqStatus =>
    cases r with
    | err e => obtain rfl := Host.Outcome.next.inj h; exact .inl id
    | ok bytes =>
      refine .inl ?_
      simp only [deliver, eqCheck] at h
      split_ifs at h
      · obtain rfl := Host.Outcome.next.inj h; exact id
      · obtain rfl := Host.Outcome.next.inj h; exact id
      · obtain rfl := Host.Outcome.next.inj h; exact id
      · exact noEntry_beginTxn h id

theorem noEntry_auxTransaction {cmd : AuxCmd} {addr : Addr} {len : Nat} {payload : List Byte} {s u : State}
    (h : auxTransaction cmd addr len payload s = .next u) : NoEntry s u := by
  unfold auxTransaction at h
  split at h
  · obtain rfl := Host.Outcome.next.inj h; exact id
  · exact noEntry_beginTxn h id

theorem noEntry_hostOp {i : Instr} {s u : State} {body : State → Out} (h : hostOp i s body = .next u)
    (hb : ∀ v, body v = .next u → NoEntry v u) : NoEntry s u :=
  hb (s.log (.opStart i)) (hostOp_next h).2.2

/-- No instruction of the host's enters Equalization. -/
theorem noEntry_exec {i : Instr} {s u : State} (hi : i.format ≠ .auxReply) (h : exec i s = .next u) : NoEntry s u := by
  cases i with
  | replyAck | replyNack | replyDefer => exact absurd rfl hi
  | nativeWrite | nativeRead | i2cWrite | i2cRead | i2cWriteMot | i2cReadMot =>
    simp only [exec, execNativeWrite, execNativeRead, execI2cWrite, execI2cRead, execI2cWriteMot, execI2cReadMot] at h
    exact noEntry_hostOp h fun v hv => noEntry_auxTransaction hv
  | auxExecute cmd addr len payload =>
    simp only [exec, execAuxExecute] at h
    refine noEntry_hostOp h fun v hv => ?_
    split at hv
    · nomatch hv
    · exact noEntry_auxTransaction hv
  | dpcdRead | dpcdReadProbe | dpcdWrite =>
    simp only [exec, execDpcdRead, execDpcdReadProbe, execDpcdWrite] at h
    refine noEntry_hostOp h fun v hv => ?_
    split at hv
    · obtain rfl := Host.Outcome.next.inj hv; exact id
    · exact noEntry_beginTxn hv id
  | epcApply =>
    simp only [exec, execEpcApply] at h
    refine noEntry_hostOp h fun v hv => ?_
    split at hv
    · nomatch hv
    · exact noEntry_applyLevel hv
  | linkTrain =>
    simp only [exec, execLinkTrain] at h
    refine noEntry_hostOp h fun v hv => ?_
    split at hv
    · nomatch hv
    · exact noEntry_beginTxn hv LtsmState.noConfusion

/-- A reply is refused while no attempt is in flight. -/
theorem answer_ne_next {o : AuxOutcome} {s u : State} (hb : s.aux.ctl.busy = false) : answer o s ≠ .next u := by
  simp only [answer, hb]
  split <;> nofun

/-- No step of the host's enters Equalization. -/
theorem noEntry_hostStep {s t : State} (hb : s.aux.ctl.busy = false) (h : hostStep s = .next t) : NoEntry s t := by
  rcases hostStep_cases h with ⟨-, rfl⟩ | ⟨r, rest, i, -, -, hx⟩
  · exact id
  · by_cases hi : i.format = .auxReply
    · cases i with
      | replyAck | replyNack | replyDefer => exact absurd hx (answer_ne_next hb)
      | _ => exact Format.noConfusion hi
    · have hn : NoEntry (s.withProgram rest) t := noEntry_exec hi hx
      exact hn

/-- Between two awaits only the AUX channel's answer can enter Equalization. -/
theorem noEntry_busyStep {pos : Position} {s u : State} (hp : ∀ t site, pos ≠ .awaitAux t site)
    (h : busyStep pos s = .next u) : NoEntry s u := by
  cases pos with
  | awaitAux t site => exact absurd rfl (hp t site)
  | sideband todo l lanes site =>
    cases todo with
    | nil =>
      simp only [busyStep, sidebandHead, laneSetWrite] at h
      exact noEntry_beginTxn h id
    | cons w rest =>
      simp only [busyStep, sidebandHead, sidebandWrite] at h
      split at h
      · nomatch h
      · obtain rfl := Host.Outcome.next.inj h; exact id
  | awaitSb todo l lanes site => rcases awaitSb_cases h with ⟨-, rfl⟩ | ⟨-, rfl⟩ <;> exact id
  | waiting us site =>
    cases site <;> simp only [busyStep, timerStep] at h <;> exact noEntry_beginTxn h id

theorem answer_possible {o : AuxOutcome} {s u : State} (h : answer o s = .next u) : o.possible = true := by
  unfold answer at h
  split at h
  · nomatch h
  case isFalse ho => exact Bool.of_not_eq_false ho

/-- An answer that enters Equalization is a reply to the Clock Recovery status read that passes the gate. -/
theorem answer_entry {t : Txn} {site : AuxSite} {s u : State} {o : AuxOutcome} (aw : Awaiting t site s) (ok : t.Ok)
    (h : answer o s = .next u) :
    NoEntry s u ∨ (site = .crStatus ∧ ∃ status data, o = .reply status data ∧ o.fails t.cmd t.len = false
      ∧ allCrDone (leValue (txnResult t data)) s.ctx.lc.laneCount = true) := by
  rcases answer_cases aw ok (answer_possible h) with ⟨-, ha⟩ | ⟨-, ha⟩ | ⟨status, data, ho, hf, ha⟩
  · obtain rfl := Host.Outcome.next.inj (ha.symm.trans h)
    refine .inl fun hu => ?_
    rw [(issued_spec t site (s.answered o)).attempts] at hu
    exact hu
  · refine .inl ?_
    rcases deliver_entry (ha.symm.trans h) with hn | ⟨-, bytes, hb, -⟩
    · exact hn
    · nomatch hb
  · have hc := (accepted_spec t o s).ctx
    rcases deliver_entry (ha.symm.trans h) with hn | ⟨hsite, bytes, hb, hg⟩
    · rw [NoEntry, hc] at hn
      exact .inl hn
    · obtain rfl := Result.ok.inj hb
      rw [hc] at hg
      exact .inr ⟨hsite, status, data, ho, hf, hg⟩

/-- A reply that does not fail a read is an ACK with the bytes asked for (R167). -/
theorem reply_of_not_fails {status : BitVec 4} {data : List Byte} {a : Addr} {n : Nat}
    (h : (AuxOutcome.reply status data).fails (readTxn a n).cmd (readTxn a n).len = false) :
    status = 0 ∧ n ≤ data.length := by
  obtain ⟨hs, hl⟩ := Bool.or_eq_false_iff.mp h
  exact ⟨by simpa using hs, Nat.le_of_not_lt (of_decide_eq_false hl)⟩

/-- Settles O52: Equalization is entered in the delivery of a Clock Recovery status alone, and the invariant says which
transaction that call awaits. -/
theorem equalizationOnlyThroughGate : Obligations.EqualizationOnlyThroughGate := by
  intro s t iv h hs ht
  have hentry : ¬NoEntry s t := fun hn => hs (hn ht)
  have hpos := iv.position
  rcases step_cases h with ⟨-, rfl⟩ | ⟨-, hop, hh⟩ | ⟨hr, pos, hop, hx⟩
  · exact absurd ht LtsmState.noConfusion
  · rw [hop] at hpos
    obtain ⟨⟨hb, -⟩, -⟩ := hpos
    exact absurd (noEntry_hostStep hb hh) hentry
  · by_cases hp : ∃ x site, pos = .awaitAux x site
    · obtain ⟨x, site, rfl⟩ := hp
      rw [hop] at hpos
      obtain ⟨ok, ⟨-, hb, -, hto, hre, -⟩, -, -, -, htx⟩ := hpos
      rw [step_awaitAux hr hop hb] at h
      have hctx : s.nextOutcome.2.ctx = s.ctx := by rw [nextOutcome_state]
      rcases answer_entry (awaiting_nextOutcome ⟨hop, hb, hto, hre⟩) ok h with hn | ⟨rfl, status, data, ho, hf, hg⟩
      · rw [NoEntry, hctx] at hn
        exact absurd hn hentry
      · obtain rfl : x = readTxn 0x202 2 := htx
        rw [ho] at hf
        rw [hctx] at hg
        obtain ⟨rfl, hlen⟩ := reply_of_not_fails hf
        exact ⟨data, hop, ho, hlen, allCrDone_bits hg⟩
    · exact absurd (noEntry_busyStep (fun x site e => hp ⟨x, site, e⟩) hx) hentry

end Sys2Proof.Machine

/-! PROOF. The statements about memory and events (20_memory.md), and the lemmas they need. -/

namespace Sys2Proof.Machine

/-! ## Parameters and past events (R11, R100, R105) -/

/-- `t` has the parameters of `s` and every event of it. -/
def RecordKept (s t : State) : Prop := t.par = s.par ∧ ∃ new, t.events = new ++ s.events

theorem Keeps.recordKept {s t : State} (h : Keeps s t) : RecordKept s t := ⟨h.par, h.ev⟩

/-- Every instruction keeps the record, LINK_TRAIN among them, which the frame of `Keeps` leaves out. -/
theorem exec_recordKept {i : Instr} {s t : State} (h : exec i s = .next t) : RecordKept s t := by
  by_cases hl : ∃ m rate ef, i = .linkTrain m rate ef
  · obtain ⟨m, rate, ef, rfl⟩ := hl
    obtain ⟨hpar, -, hev, -⟩ := linkTrain_keeps h
    exact ⟨hpar, hev⟩
  · exact (keeps_exec (fun m rate ef e => hl ⟨m, rate, ef, e⟩) h).recordKept

theorem hostStep_recordKept {s t : State} (h : hostStep s = .next t) : RecordKept s t := by
  rcases hostStep_cases h with ⟨-, rfl⟩ | ⟨r, rest, i, -, -, hx⟩
  · exact ⟨rfl, [], rfl⟩
  · have hk : RecordKept (s.withProgram rest) t := exec_recordKept hx
    exact hk

theorem busyStep_recordKept {pos : Position} {s t : State} (h : busyStep pos s = .next t) : RecordKept s t := by
  by_cases hp : ∃ todo l lanes site, pos = .awaitSb todo l lanes site
  · obtain ⟨todo, l, lanes, site, rfl⟩ := hp
    rcases awaitSb_cases h with ⟨-, rfl⟩ | ⟨-, rfl⟩
    · exact ⟨rfl, [.sbDone], rfl⟩
    · exact ⟨rfl, [], rfl⟩
  · exact (keeps_busyStep h fun todo l lanes site e => hp ⟨todo, l, lanes, site, e⟩).recordKept

/-- Settles O60: the reset, the host's step and the other agents' steps each keep the record. -/
theorem parametersAndPastEventsKept : Obligations.ParametersAndPastEventsKept := by
  intro s t h
  rcases step_cases h with ⟨-, rfl⟩ | ⟨-, -, hs⟩ | ⟨-, pos, -, hs⟩
  · exact ⟨rfl, [], rfl⟩
  · exact hostStep_recordKept hs
  · exact busyStep_recordKept hs

/-! ## A poll's status read (R102, R250, R251, R283) -/

/-- A read begun records the clear and the `AUX_CMD` write alone, and changes the context's attempt count alone. -/
theorem memRead_issued {a : Addr} {n : Nat} (site : AuxSite) {s : State} (h1 : 1 ≤ n) (h16 : n ≤ 16)
    (hb : s.aux.ctl.busy = false) :
    ∃ u, memRead a n site s = .next u ∧ InFlight (readTxn a n) site u ∧ u.ctx = { s.ctx with auxAttempt := 1 }
      ∧ u.port = s.port ∧ u.sb = s.sb ∧ u.phy = s.phy
      ∧ u.events = .auxCmdWrite (readTxn a n).word :: .auxCtlClear :: s.events := by
  obtain ⟨u, hu, b⟩ := memRead_begun (a := a) site h1 h16 hb
  obtain ⟨new, hev, -, -, hnew⟩ := b.events
  obtain rfl : new = [.auxCtlClear] := hnew rfl
  exact ⟨u, hu, b.inFlight, b.ctx, b.port, b.sb, b.phy, hev⟩

/-- Settles O38: the timer's step of each poll's `Wait` counts the poll and begins its read. -/
theorem pollReadsStatusAfterWait : Obligations.PollReadsStatusAfterWait := by
  intro s us hr hb
  constructor <;> intro hop <;> rw [step_of_busy hr hop]
  · exact memRead_issued .crStatus
      (s := { s.log .waitEnd with ctx := { s.ctx with crPolls := s.ctx.crPolls + 1 } }) (by decide) (by decide) hb
  · exact memRead_issued .eqStatus
      (s := { s.log .waitEnd with ctx := { s.ctx with eqIter := s.ctx.eqIter + 1 } }) (by decide) (by decide) hb

theorem busy_false_of_issue {w : Word} {s u : State} (h : issue w s = .next u) : s.aux.ctl.busy = false := by
  unfold issue at h
  split at h
  · nomatch h
  case isFalse hb => exact Bool.of_not_eq_true hb

theorem busy_false_of_attempt {t : Txn} {site : AuxSite} {s u : State} (h : attempt t site s = .next u) :
    s.aux.ctl.busy = false := by
  have hb := busy_false_of_issue h
  rwa [State.at_aux, (prepareAttempt_spec t s).ctl] at hb

/-- A transaction that begins finds `BUSY = 0` (R38). -/
theorem busy_false_of_beginTxn {t : Txn} {site : AuxSite} {s u : State} (h : beginTxn t site s = .next u) :
    s.aux.ctl.busy = false :=
  busy_false_of_attempt (s := { s with ctx := { s.ctx with auxAttempt := 0 } }) h

theorem memRead_events {a : Addr} {n : Nat} {site : AuxSite} {s u : State} (h : memRead a n site s = .next u)
    (h1 : 1 ≤ n) (h16 : n ≤ 16) : u.events = .auxCmdWrite (readTxn a n).word :: .auxCtlClear :: s.events := by
  obtain ⟨v, hv, -, -, -, -, -, hev⟩ := memRead_issued (a := a) site h1 h16 (busy_false_of_beginTxn h)
  obtain rfl := Host.Outcome.next.inj (hv.symm.trans h)
  exact hev

/-! ## Where a status read begins (R102)

Of the parts of a step only the timer's, at the end of a poll's `Wait`, begins a status read; every other part leaves none
awaited, or the engine where it stood. -/

/-- The `Wait` of the poll whose status a call reads (R250, R251, R283). -/
def AuxSite.poll? : AuxSite → Option WaitSite
  | .crStatus => some .crPoll
  | .eqStatus => some .eqPoll
  | _ => none

/-- The poll whose status read is awaited. -/
def State.awaitedPoll (s : State) : Option WaitSite :=
  match s.op with
  | .busy (.awaitAux _ site) => site.poll?
  | _ => none

theorem awaitedPoll_of_awaitAux {s : State} {t : Txn} {site : AuxSite} (h : s.op = .busy (.awaitAux t site)) :
    s.awaitedPoll = site.poll? := by
  simp [State.awaitedPoll, h]

theorem beginTxn_awaitedPoll {t : Txn} {site : AuxSite} {s u : State} (h : beginTxn t site s = .next u) :
    u.awaitedPoll = site.poll? := by
  obtain ⟨-, -, -, -, hop⟩ := keeps_begin h
  exact awaitedPoll_of_awaitAux hop

theorem applyLevel_awaitedPoll {l : Level} {lanes : LaneCount} {site : ApplySite} {s u : State}
    (h : applyLevel l lanes site s = .next u) : u.awaitedPoll = none := by
  unfold applyLevel at h
  split at h
  · obtain rfl := Host.Outcome.next.inj h; rfl
  · split at h
    · obtain rfl := Host.Outcome.next.inj h; rfl
    · nomatch h

theorem applyDone_awaitedPoll (site : ApplySite) (r : Result (List Byte) AuxError) (s : State) :
    (applyDone site r s).awaitedPoll = none := by
  cases site with
  | crAdjust new =>
    cases r with
    | err e => rfl
    | ok bytes =>
      simp only [applyDone, crAdjusted]
      split
      · rfl
      · split <;> rfl
  | _ => cases r <;> rfl

/-- No transaction's result begins a status read: a poll's `Wait` comes first. -/
theorem deliver_awaitedPoll {site : AuxSite} {r : Result (List Byte) AuxError} {s u : State}
    (h : deliver site r s = .next u) : u.awaitedPoll = none := by
  cases site with
  | auxExecute | dpcdRead | dpcdReadProbe | dpcdWrite | exitPattern err => obtain rfl := Host.Outcome.next.inj h; rfl
  | laneSet site => obtain rfl := Host.Outcome.next.inj h; exact applyDone_awaitedPoll site r s
  | rdInterval =>
    simp only [deliver, setupInterval] at h
    split at h
    · obtain rfl := Host.Outcome.next.inj h; rfl
    · exact beginTxn_awaitedPoll h
  | laneCountSet | linkBwSet =>
    cases r with
    | err e => obtain rfl := Host.Outcome.next.inj h; rfl
    | ok bytes =>
      simp only [deliver, setupBandwidth, setupPattern] at h
      exact beginTxn_awaitedPoll h
  | pattern1 | crAdjust | pattern2 | eqAdjust =>
    cases r with
    | err e => obtain rfl := Host.Outcome.next.inj h; rfl
    | ok bytes =>
      simp only [deliver, setupLevel, crAdjust, eqReapply, eqAdjust] at h
      exact applyLevel_awaitedPoll h
  | crStatus =>
    cases r with
    | err e => obtain rfl := Host.Outcome.next.inj h; rfl
    | ok bytes =>
      simp only [deliver, crCheck] at h
      split at h <;> exact beginTxn_awaitedPoll h
  | eqStatus =>
    cases r with
    | err e => obtain rfl := Host.Outcome.next.inj h; rfl
    | ok bytes =>
      simp only [deliver, eqCheck] at h
      split_ifs at h
      · obtain rfl := Host.Outcome.next.inj h; rfl
      · obtain rfl := Host.Outcome.next.inj h; rfl
      · obtain rfl := Host.Outcome.next.inj h; rfl
      · exact beginTxn_awaitedPoll h

/-- After this part of a step no status read is awaited, or the engine stands where it stood. -/
def NoNewStatusRead (s u : State) : Prop := u.awaitedPoll = none ∨ u.op = s.op

/-- The engine's verdict retries the attempt it awaits or delivers a result. -/
theorem verdict_noNewStatusRead {t : Txn} {site : AuxSite} {s u : State} (hop : s.op = .busy (.awaitAux t site))
    (h : verdict t site s = .next u) : NoNewStatusRead s u := by
  simp only [verdict] at h
  split at h
  · refine .inl ?_
    split at h
    · split at h
      · nomatch h
      · exact deliver_awaitedPoll h
    · exact deliver_awaitedPoll h
  · split at h
    · obtain ⟨-, -, -, -, huop⟩ := keeps_attempt h
      exact .inr (huop.trans hop.symm)
    · exact .inl (deliver_awaitedPoll h)

theorem answer_noNewStatusRead {o : AuxOutcome} {s u : State} (h : answer o s = .next u) : NoNewStatusRead s u := by
  unfold answer resume at h
  rw [State.complete_op] at h
  split at h
  · nomatch h
  · split at h
    · split at h
      case h_1 t site hop =>
        have hn : NoNewStatusRead (s.complete o) u := verdict_noNewStatusRead hop h
        exact hn
      case h_2 => obtain rfl := Host.Outcome.next.inj h; exact .inr rfl
    · nomatch h

theorem auxTransaction_awaitedPoll {cmd : AuxCmd} {addr : Addr} {len : Nat} {payload : List Byte} {s u : State}
    (h : auxTransaction cmd addr len payload s = .next u) : u.awaitedPoll = none := by
  unfold auxTransaction at h
  split at h
  · obtain rfl := Host.Outcome.next.inj h; rfl
  · exact beginTxn_awaitedPoll h

/-- No instruction of the host's begins a status read. -/
theorem exec_awaitedPoll {i : Instr} {s u : State} (hi : i.format ≠ .auxReply) (h : exec i s = .next u) :
    u.awaitedPoll = none := by
  cases i with
  | replyAck | replyNack | replyDefer => exact absurd rfl hi
  | nativeWrite | nativeRead | i2cWrite | i2cRead | i2cWriteMot | i2cReadMot =>
    simp only [exec, execNativeWrite, execNativeRead, execI2cWrite, execI2cRead, execI2cWriteMot, execI2cReadMot] at h
    obtain ⟨-, -, hb⟩ := hostOp_next h
    exact auxTransaction_awaitedPoll hb
  | auxExecute =>
    simp only [exec, execAuxExecute] at h
    obtain ⟨-, -, hb⟩ := hostOp_next h
    split at hb
    · nomatch hb
    · exact auxTransaction_awaitedPoll hb
  | dpcdRead | dpcdReadProbe | dpcdWrite =>
    simp only [exec, execDpcdRead, execDpcdReadProbe, execDpcdWrite] at h
    obtain ⟨-, -, hb⟩ := hostOp_next h
    split at hb
    · obtain rfl := Host.Outcome.next.inj hb; rfl
    · exact beginTxn_awaitedPoll hb
  | epcApply =>
    simp only [exec, execEpcApply] at h
    obtain ⟨-, -, hb⟩ := hostOp_next h
    split at hb
    · nomatch hb
    · exact applyLevel_awaitedPoll hb
  | linkTrain =>
    simp only [exec, execLinkTrain] at h
    obtain ⟨-, -, hb⟩ := hostOp_next h
    split at hb
    · nomatch hb
    · exact beginTxn_awaitedPoll hb

theorem exec_noNewStatusRead {i : Instr} {s u : State} (h : exec i s = .next u) : NoNewStatusRead s u := by
  by_cases hi : i.format = .auxReply
  · cases i with
    | replyAck | replyNack | replyDefer => exact answer_noNewStatusRead h
    | _ => exact Format.noConfusion hi
  · exact .inl (exec_awaitedPoll hi h)

theorem hostStep_noNewStatusRead {s t : State} (h : hostStep s = .next t) : NoNewStatusRead s t := by
  rcases hostStep_cases h with ⟨-, rfl⟩ | ⟨r, rest, i, -, -, hx⟩
  · exact .inr rfl
  · have hn : NoNewStatusRead (s.withProgram rest) t := exec_noNewStatusRead hx
    exact hn

theorem channelStep_noNewStatusRead {s u : State} (h : channelStep s = .next u) : NoNewStatusRead s u := by
  rw [channelStep_eq] at h
  have hn := answer_noNewStatusRead h
  rw [nextOutcome_state] at hn
  exact hn

/-- The events of a step that ends a `Wait` and then issues one attempt (R46, R165). -/
def IssuedAfterWait (s t : State) : Prop := ∃ issue, t.events = issue ++ .waitEnd :: s.events ∧ cmdWrites issue = 1

/-- The timer's step begins no status read, or that of the poll whose `Wait` it ends. -/
theorem timerStep_awaitedPoll {wait : WaitSite} {s u : State} (h : timerStep wait s = .next u) :
    u.awaitedPoll = none ∨ (u.awaitedPoll = some wait ∧ IssuedAfterWait s u) := by
  cases wait with
  | idlePulse | exit err => exact .inl (beginTxn_awaitedPoll h)
  | crPoll | eqPoll =>
    have hev := memRead_events h (by decide) (by decide)
    exact .inr ⟨beginTxn_awaitedPoll h, [_, _], hev, rfl⟩

/-- Any other step of an operation leaves no status read awaited, or goes on with the one it awaits. -/
theorem busyStep_noNewStatusRead {pos : Position} {s u : State} (hop : s.op = .busy pos)
    (hp : ∀ us wait, pos ≠ .waiting us wait) (h : busyStep pos s = .next u) : NoNewStatusRead s u := by
  cases pos with
  | awaitAux t site =>
    simp only [busyStep] at h
    split at h
    · exact channelStep_noNewStatusRead h
    · exact verdict_noNewStatusRead hop h
  | sideband todo l lanes site =>
    cases todo with
    | nil => exact .inl (beginTxn_awaitedPoll h)
    | cons w rest =>
      simp only [busyStep, sidebandHead, sidebandWrite] at h
      split at h
      · nomatch h
      · obtain rfl := Host.Outcome.next.inj h; exact .inl rfl
  | awaitSb todo l lanes site => rcases awaitSb_cases h with ⟨-, rfl⟩ | ⟨-, rfl⟩ <;> exact .inl rfl
  | waiting us wait => exact absurd rfl (hp us wait)

/-- A step begins a poll's status read only where it ends that poll's `Wait`. -/
theorem step_awaitedPoll {s t : State} (h : step s = .next t) :
    NoNewStatusRead s t
      ∨ ∃ us wait, s.op = .busy (.waiting us wait) ∧ t.awaitedPoll = some wait ∧ IssuedAfterWait s t := by
  rcases step_cases h with ⟨-, rfl⟩ | ⟨-, -, hs⟩ | ⟨-, pos, hop, hs⟩
  · exact .inl (.inl rfl)
  · exact .inl (hostStep_noNewStatusRead hs)
  · by_cases hp : ∃ us wait, pos = .waiting us wait
    · obtain ⟨us, wait, rfl⟩ := hp
      rcases timerStep_awaitedPoll hs with hnone | ⟨hpoll, hev⟩
      · exact .inl (.inl hnone)
      · exact .inr ⟨us, wait, hop, hpoll, hev⟩
    · exact .inl (busyStep_noNewStatusRead hop (fun us wait e => hp ⟨us, wait, e⟩) hs)

/-- Settles O55: a status read in flight after a step was begun at the end of its poll's `Wait`, or was awaited before the
step. -/
theorem statusReadOnlyAfterWait : Obligations.StatusReadOnlyAfterWait := by
  intro s t txn site poll hmem _ h htop
  have hsite : site.poll? = some poll := by
    simp only [List.mem_cons, List.not_mem_nil, or_false, Prod.mk.injEq] at hmem
    rcases hmem with ⟨rfl, rfl⟩ | ⟨rfl, rfl⟩ <;> rfl
  have hpoll : t.awaitedPoll = some poll := (awaitedPoll_of_awaitAux htop).trans hsite
  rcases step_awaitedPoll h with (hnone | hop) | ⟨us, wait, hop, hwait, issue, hev, hone⟩
  · exact absurd (hnone.symm.trans hpoll) nofun
  · exact .inr (hop.symm.trans htop)
  · obtain rfl := Option.some.inj (hwait.symm.trans hpoll)
    exact .inl ⟨us, issue, hop, hev, hone⟩

end Sys2Proof.Machine

/-! PROOF. The statements about the encodings (30_encoding.md) and the operands' checks, and the lemmas they need. -/

namespace Sys2Proof

/-! ## The decoder's parts -/

/-- A bind succeeds where both of its parts do; the decoders bind what is read and the bytes left. -/
theorem bind_eq_ok {α β : Type} {x : Except DecodeError (α × List Byte)} {f : α × List Byte → Except DecodeError β} {b : β} :
    x >>= f = .ok b ↔ ∃ a rest, x = .ok (a, rest) ∧ f (a, rest) = .ok b := by
  cases x with
  | error e => exact ⟨nofun, nofun⟩
  | ok p => exact ⟨fun h => ⟨p.1, p.2, rfl, h⟩, fun ⟨_, _, hp, h⟩ => Except.ok.inj hp ▸ h⟩

theorem takeByte_eq_ok {bytes rest : List Byte} {b : Byte} : takeByte bytes = .ok (b, rest) ↔ bytes = b :: rest := by
  cases bytes <;> simp [takeByte]

theorem takeNat_eq_ok {bytes rest : List Byte} {n : Nat} : takeNat bytes = .ok (n, rest) ↔ bytes = natBytes n ++ rest :=
  ⟨natBytes_of_takeNat, fun h => h ▸ takeNat_natBytes n rest⟩

theorem takeBytes_eq_ok {n : Nat} {bytes payload rest : List Byte} :
    takeBytes n bytes = .ok (payload, rest) ↔ bytes = payload ++ rest ∧ payload.length = n := by
  unfold takeBytes
  constructor
  · intro h
    split at h
    · nomatch h
    case isFalse hn =>
      obtain ⟨rfl, rfl⟩ := Prod.mk.inj (Except.ok.inj h)
      exact ⟨(List.take_append_drop n bytes).symm, List.length_take_of_le (by omega)⟩
  · rintro ⟨rfl, rfl⟩
    simp

/-- Bytes are one instruction exactly where none is left after it (R134). -/
theorem decodeWhole_eq_ok {f : Format} {bytes : List Byte} {i : Instr} :
    decodeWhole f bytes = .ok i ↔ decode f bytes = .ok (i, []) := by
  unfold decodeWhole
  split
  case h_1 e he => simp [he]
  case h_2 j hj => simp [hj]
  case h_3 j b rest hj => simp [hj]

/-! ## Request frames (R121 to R123, R126, R127) -/

/-- The header bytes give back the fields of the command word. -/
theorem decodeRequest_header (cmd : BitVec 4) (addr : Addr) (lm1 : Byte) (rest : List Byte) :
    decodeRequest (headerBytes (commandWord cmd addr lm1) ++ rest) =
      (AuxCmd.ofNibble? cmd).elim (.error .reservedCommand) fun c =>
        if c.isRead then .ok (c.toInstr addr lm1 [], rest)
        else takeBytes (lm1.toNat + 1) rest >>= fun p => .ok (c.toInstr addr lm1 p.1, p.2) := by
  simp only [headerBytes, List.cons_append, List.nil_append, decodeRequest, word_of_header, cmd_commandWord, addr_commandWord,
    lm1_commandWord]
  cases AuxCmd.ofNibble? cmd <;> rfl

theorem decodeRequest_reserved {cmd : BitVec 4} (addr : Addr) (lm1 : Byte) (rest : List Byte)
    (h : AuxCmd.ofNibble? cmd = none) :
    decodeRequest (headerBytes (commandWord cmd addr lm1) ++ rest) = .error .reservedCommand := by
  rw [decodeRequest_header, h, Option.elim_none]

theorem decodeRequest_read {c : AuxCmd} (addr : Addr) (lm1 : Byte) (rest : List Byte) (hc : c.isRead = true) :
    decodeRequest (encodeRequest c addr lm1 [] ++ rest) = .ok (c.toInstr addr lm1 [], rest) := by
  simp only [encodeRequest, List.append_nil, decodeRequest_header, AuxCmd.ofNibble_nibble, Option.elim_some, hc, if_true]

theorem decodeRequest_write {c : AuxCmd} (addr : Addr) {lm1 : Byte} {payload : List Byte} (rest : List Byte)
    (hc : c.isRead = false) (hl : payload.length = lm1.toNat + 1) :
    decodeRequest (encodeRequest c addr lm1 payload ++ rest) = .ok (c.toInstr addr lm1 payload, rest) := by
  simp only [encodeRequest, List.append_assoc, decodeRequest_header, AuxCmd.ofNibble_nibble, Option.elim_some, hc,
    Bool.false_eq_true, if_false, takeBytes_eq_ok.mpr ⟨rfl, hl⟩]
  rfl

theorem encode_toInstr {c : AuxCmd} (addr : Addr) (lm1 : Byte) {payload : List Byte} (h : c.isRead = true → payload = []) :
    encode (c.toInstr addr lm1 payload) = encodeRequest c addr lm1 payload := by
  cases c with
  | nativeWrite | i2cWrite | i2cWriteMot => rfl
  | nativeRead | i2cRead | i2cReadMot => rw [h rfl]; rfl

theorem format_toInstr (c : AuxCmd) (addr : Addr) (lm1 : Byte) (payload : List Byte) :
    (c.toInstr addr lm1 payload).format = .auxRequest := by
  cases c <;> rfl

/-- Four bytes are the header of the command word they spell. -/
theorem header_eq_commandWord (h0 h1 h2 h3 : Byte) : ∃ cmd addr lm1, [h0, h1, h2, h3] = headerBytes (commandWord cmd addr lm1) :=
  ⟨_, _, _, by rw [commandWord_fields (h0 ++ h1 ++ h2 ++ h3), headerBytes_of_append]⟩

theorem encode_of_decodeRequest {bytes rest : List Byte} {i : Instr} (h : decodeRequest bytes = .ok (i, rest)) :
    bytes = encode i ++ rest ∧ i.format = .auxRequest := by
  match bytes with
  | [] | [_] | [_, _] | [_, _, _] => nomatch h
  | h0 :: h1 :: h2 :: h3 :: tail =>
    obtain ⟨cmd, addr, lm1, hw⟩ := header_eq_commandWord h0 h1 h2 h3
    have hb : h0 :: h1 :: h2 :: h3 :: tail = headerBytes (commandWord cmd addr lm1) ++ tail := by rw [← hw]; rfl
    rw [hb] at h ⊢
    rw [decodeRequest_header] at h
    cases hc : AuxCmd.ofNibble? cmd with
    | none => rw [hc] at h; nomatch h
    | some c =>
      rw [hc, Option.elim_some] at h
      obtain rfl := AuxCmd.nibble_of_ofNibble hc
      split at h
      case isTrue hr =>
        obtain ⟨rfl, rfl⟩ := Prod.mk.inj (Except.ok.inj h)
        simp [encode_toInstr, format_toInstr, encodeRequest]
      case isFalse hr =>
        obtain ⟨payload, r, ht, h⟩ := bind_eq_ok.mp h
        obtain ⟨rfl, rfl⟩ := Prod.mk.inj (Except.ok.inj h)
        obtain ⟨rfl, -⟩ := takeBytes_eq_ok.mp ht
        simp [encode_toInstr _ _ fun hc => absurd hc hr, format_toInstr, encodeRequest]

/-! ## Reply frames (R124, R125) -/

theorem status_encodeReply (status : BitVec 4) :
    (status ++ (0 : BitVec 4)).extractLsb' 0 4 = 0 ∧ (status ++ (0 : BitVec 4)).extractLsb' 4 4 = status := by
  revert status; decide

/-- A byte with a zero low nibble is its high nibble before a zero. -/
theorem byte_of_status {b : Byte} (h : b.extractLsb' 0 4 = 0) : b.extractLsb' 4 4 ++ (0 : BitVec 4) = b := by
  revert b; decide

theorem replyInstr_of_unnamed {status : BitVec 4} (data : List Byte) (h : 3 ≤ status.toNat) : replyInstr? status data = none := by
  have hne : ∀ c : BitVec 4, c.toNat < 3 → status ≠ c := by
    rintro c hc rfl
    omega
  rw [replyInstr?, if_neg (hne _ (by decide)), if_neg (hne _ (by decide)), if_neg (hne _ (by decide))]

theorem encode_of_replyInstr {status : BitVec 4} {data : List Byte} {i : Instr} (h : replyInstr? status data = some i) :
    encode i = encodeReply status data ∧ i.format = .auxReply := by
  unfold replyInstr? at h
  split_ifs at h <;> (obtain rfl := Option.some.inj h; subst_vars; exact ⟨rfl, rfl⟩)

theorem decodeReply_encodeReply (status : BitVec 4) {data : List Byte} (h : data.length ≤ 16) :
    decodeReply (encodeReply status data) =
      (replyInstr? status data).elim (.error .unnamedStatus) fun i => .ok (i, []) := by
  obtain ⟨hlow, hhigh⟩ := status_encodeReply status
  rw [encodeReply, decodeReply, if_neg (not_not.mpr hlow), if_neg (by omega), hhigh]
  cases replyInstr? status data <;> rfl

theorem encode_of_decodeReply {bytes rest : List Byte} {i : Instr} (h : decodeReply bytes = .ok (i, rest)) :
    bytes = encode i ++ rest ∧ i.format = .auxReply := by
  cases bytes with
  | nil => nomatch h
  | cons b data =>
    simp only [decodeReply] at h
    split at h
    · nomatch h
    case isFalse hlow =>
      split at h
      · nomatch h
      · split at h
        · nomatch h
        case h_2 j hj =>
          obtain ⟨rfl, rfl⟩ := Prod.mk.inj (Except.ok.inj h)
          obtain ⟨he, hf⟩ := encode_of_replyInstr hj
          rw [he, encodeReply, byte_of_status (not_not.mp hlow), List.append_nil]
          exact ⟨rfl, hf⟩

/-! ## Host records (R130; layout: log entry 3) -/

theorem nibble_of_low (c : BitVec 4) :
    ((0 : BitVec 4) ++ c).extractLsb' 4 4 = 0 ∧ ((0 : BitVec 4) ++ c).extractLsb' 0 4 = c := by
  revert c; decide

/-- A byte with a zero high nibble is a zero before its low nibble. -/
theorem byte_of_low {b : Byte} (h : b.extractLsb' 4 4 = 0) : (0 : BitVec 4) ++ b.extractLsb' 0 4 = b := by
  revert b; decide

@[simp] theorem LinkRate.ofCode_code (r : LinkRate) : LinkRate.ofCode? r.code = some r := by
  cases r <;> rfl

theorem LinkRate.code_of_ofCode {b : Byte} {r : LinkRate} (h : LinkRate.ofCode? b = some r) : r.code = b := by
  unfold LinkRate.ofCode? at h
  split_ifs at h <;> (obtain rfl := Option.some.inj h; subst_vars; rfl)

/-- The byte of the framing bit. -/
theorem framing_byte (ef : Bool) :
    (if ef then 1 else 0 : Byte).extractLsb' 1 7 = 0 ∧ (if ef then 1 else 0 : Byte).getLsbD 0 = ef := by
  revert ef; decide

theorem byte_of_framing {b : Byte} (h : b.extractLsb' 1 7 = 0) : (if b.getLsbD 0 then 1 else 0 : Byte) = b := by
  revert b; decide

section Records

variable {bytes rest : List Byte} {i : Instr}

theorem decodeAuxExecute_eq_ok :
    decodeAuxExecute bytes = .ok (i, rest) ↔ ∃ cmd addr len payload, bytes =
      ((0 : BitVec 4) ++ cmd) :: (natBytes addr ++ (natBytes len ++ (natBytes payload.length ++ (payload ++ rest))))
      ∧ .auxExecute cmd addr len payload = i := by
  simp only [decodeAuxExecute, bind_eq_ok, takeByte_eq_ok]
  constructor
  · rintro ⟨b, r, rfl, h⟩
    split at h
    · nomatch h
    case isFalse hu =>
      simp only [bind_eq_ok, takeNat_eq_ok, takeBytes_eq_ok] at h
      obtain ⟨addr, _, rfl, len, _, rfl, _, _, rfl, payload, _, ⟨rfl, rfl⟩, h⟩ := h
      obtain ⟨rfl, rfl⟩ := Prod.mk.inj (Except.ok.inj h)
      exact ⟨_, addr, len, payload, by rw [byte_of_low (not_not.mp hu)], rfl⟩
  · rintro ⟨cmd, addr, len, payload, rfl, rfl⟩
    obtain ⟨hhigh, hlow⟩ := nibble_of_low cmd
    refine ⟨_, _, rfl, ?_⟩
    rw [if_neg (not_not.mpr hhigh), hlow]
    simp only [bind_eq_ok, takeNat_eq_ok, takeBytes_eq_ok]
    exact ⟨addr, _, rfl, len, _, rfl, _, _, rfl, payload, rest, ⟨rfl, rfl⟩, rfl⟩

theorem decodeAddrCount_eq_ok {make : Nat → Nat → Instr} :
    decodeAddrCount make bytes = .ok (i, rest) ↔ ∃ addr n, bytes = natBytes addr ++ (natBytes n ++ rest) ∧ make addr n = i := by
  simp [decodeAddrCount, bind_eq_ok, takeNat_eq_ok]

theorem decodeDpcdWrite_eq_ok :
    decodeDpcdWrite bytes = .ok (i, rest) ↔
      ∃ addr n value, bytes = natBytes addr ++ (natBytes n ++ (natBytes value ++ rest)) ∧ .dpcdWrite addr n value = i := by
  simp [decodeDpcdWrite, bind_eq_ok, takeNat_eq_ok]

theorem decodeEpcApply_eq_ok :
    decodeEpcApply bytes = .ok (i, rest) ↔ ∃ swing pre lanes,
      bytes = natBytes swing ++ (natBytes pre ++ (natBytes lanes ++ rest)) ∧ .epcApply swing pre (lanes + 1) = i := by
  simp [decodeEpcApply, bind_eq_ok, takeNat_eq_ok]

theorem decodeLinkTrain_eq_ok :
    decodeLinkTrain bytes = .ok (i, rest) ↔ ∃ lanes rate ef,
      bytes = natBytes lanes ++ (rate.code :: (if ef then 1 else 0) :: rest) ∧ .linkTrain (lanes + 1) rate ef = i := by
  simp only [decodeLinkTrain, bind_eq_ok, takeNat_eq_ok, takeByte_eq_ok]
  constructor
  · rintro ⟨lanes, _, rfl, b, _, rfl, ef, _, rfl, h⟩
    split at h
    · nomatch h
    case isFalse hu =>
      split at h
      · nomatch h
      case h_2 rate hrate =>
        obtain ⟨rfl, rfl⟩ := Prod.mk.inj (Except.ok.inj h)
        exact ⟨lanes, rate, _, by rw [LinkRate.code_of_ofCode hrate, byte_of_framing (not_not.mp hu)], rfl⟩
  · rintro ⟨lanes, rate, ef, rfl, rfl⟩
    obtain ⟨hunused, hbit⟩ := framing_byte ef
    refine ⟨lanes, _, rfl, _, _, rfl, _, _, rfl, ?_⟩
    rw [if_neg (not_not.mpr hunused), LinkRate.ofCode_code, hbit]

end Records

/-- A lane count is its record's number and one. -/
theorem laneCount_sub_one_add_one {m : Nat} (h : (LaneCount.ofNat? m).isSome = true) : m - 1 + 1 = m := by
  obtain ⟨l, hl⟩ := Option.isSome_iff_exists.mp h
  have := LaneCount.toNat_of_ofNat hl
  have := l.toNat_bounds
  omega

theorem decodeHostOp_encode {i : Instr} (hf : i.format = .hostOp) (hw : i.wellFormed = true) (rest : List Byte) :
    decodeHostOp (encode i ++ rest) = .ok (i, rest) := by
  cases i with
  | auxExecute cmd addr len payload =>
    exact decodeAuxExecute_eq_ok.mpr ⟨cmd, addr, len, payload, by simp, rfl⟩
  | dpcdRead addr n => exact decodeAddrCount_eq_ok.mpr ⟨addr, n, by simp, rfl⟩
  | dpcdReadProbe addr n => exact decodeAddrCount_eq_ok.mpr ⟨addr, n, by simp, rfl⟩
  | dpcdWrite addr n value => exact decodeDpcdWrite_eq_ok.mpr ⟨addr, n, value, by simp, rfl⟩
  | epcApply swing pre lanes =>
    obtain ⟨-, hl⟩ := Bool.and_eq_true_iff.mp hw
    exact decodeEpcApply_eq_ok.mpr ⟨swing, pre, lanes - 1, by simp, by rw [laneCount_sub_one_add_one hl]⟩
  | linkTrain lanes rate ef =>
    exact decodeLinkTrain_eq_ok.mpr ⟨lanes - 1, rate, ef, by simp, by rw [laneCount_sub_one_add_one hw]⟩
  | _ => exact Format.noConfusion hf

theorem encode_of_decodeHostOp {bytes rest : List Byte} {i : Instr} (h : decodeHostOp bytes = .ok (i, rest)) :
    bytes = encode i ++ rest ∧ i.format = .hostOp := by
  cases bytes with
  | nil => nomatch h
  | cons b tail =>
    simp only [decodeHostOp] at h
    split_ifs at h with h1 h2 h3 h4 h5 h6
    · obtain ⟨cmd, addr, len, payload, rfl, rfl⟩ := decodeAuxExecute_eq_ok.mp h
      simp [encode, Instr.format, h1]
    · obtain ⟨addr, n, rfl, rfl⟩ := decodeAddrCount_eq_ok.mp h
      simp [encode, Instr.format, h2]
    · obtain ⟨addr, n, rfl, rfl⟩ := decodeAddrCount_eq_ok.mp h
      simp [encode, Instr.format, h3]
    · obtain ⟨addr, n, value, rfl, rfl⟩ := decodeDpcdWrite_eq_ok.mp h
      simp [encode, Instr.format, h4]
    · obtain ⟨swing, pre, lanes, rfl, rfl⟩ := decodeEpcApply_eq_ok.mp h
      simp [encode, Instr.format, h5]
    · obtain ⟨lanes, rate, ef, rfl, rfl⟩ := decodeLinkTrain_eq_ok.mp h
      simp [encode, Instr.format, h6]

/-- Op code 0 and every byte from 7 on begin no record. -/
theorem decodeHostOp_reserved {b : Byte} (rest : List Byte) (h : b.toNat = 0 ∨ 7 ≤ b.toNat) :
    decodeHostOp (b :: rest) = .error .reservedOpCode := by
  have hne : ∀ c : Byte, 1 ≤ c.toNat → c.toNat ≤ 6 → b ≠ c := by
    rintro c h1 h6 rfl
    omega
  rw [decodeHostOp, if_neg (hne _ (by decide) (by decide)), if_neg (hne _ (by decide) (by decide)),
    if_neg (hne _ (by decide) (by decide)), if_neg (hne _ (by decide) (by decide)), if_neg (hne _ (by decide) (by decide)),
    if_neg (hne _ (by decide) (by decide))]

/-! ## The statements -/

/-- Settles O2: each format's decoder reads back the encoding of its own instructions. -/
theorem decodeOfEncodeIsIdentity : Obligations.DecodeOfEncodeIsIdentity := by
  intro i hw
  rw [decodeWhole_eq_ok, ← List.append_nil (encode i)]
  cases i with
  | nativeRead addr lm1 => exact decodeRequest_read (c := .nativeRead) addr lm1 [] rfl
  | i2cRead addr lm1 => exact decodeRequest_read (c := .i2cRead) addr lm1 [] rfl
  | i2cReadMot addr lm1 => exact decodeRequest_read (c := .i2cReadMot) addr lm1 [] rfl
  | nativeWrite addr lm1 payload => exact decodeRequest_write (c := .nativeWrite) addr [] rfl (eq_of_beq hw)
  | i2cWrite addr lm1 payload => exact decodeRequest_write (c := .i2cWrite) addr [] rfl (eq_of_beq hw)
  | i2cWriteMot addr lm1 payload => exact decodeRequest_write (c := .i2cWriteMot) addr [] rfl (eq_of_beq hw)
  | replyAck data => rw [List.append_nil]; exact decodeReply_encodeReply 0 (of_decide_eq_true hw)
  | replyNack data => rw [List.append_nil]; exact decodeReply_encodeReply 1 (of_decide_eq_true hw)
  | replyDefer data => rw [List.append_nil]; exact decodeReply_encodeReply 2 (of_decide_eq_true hw)
  | _ => exact decodeHostOp_encode rfl hw []

/-- Settles O3: what each format's decoder takes is the encoding of what it answers, and nothing is left after it. -/
theorem decodedBytesAreCanonical : Obligations.DecodedBytesAreCanonical := by
  intro f bytes i h
  rw [decodeWhole_eq_ok] at h
  have hcanonical : bytes = encode i ++ [] ∧ i.format = f := by
    cases f with
    | auxRequest => exact encode_of_decodeRequest h
    | auxReply => exact encode_of_decodeReply h
    | hostOp => exact encode_of_decodeHostOp h
  obtain ⟨hbytes, hformat⟩ := hcanonical
  exact ⟨by rw [hbytes, List.append_nil], hformat⟩

/-- A command row's table word stands for its fields, a write-class one with the zero bytes behind the word as payload
(R121, R126). -/
theorem decodeTableWord_commandWord (c : AuxCmd) (addr : Addr) (lm1 : Byte) :
    decodeTableWord 32 (commandWord c.nibble addr lm1).toNat =
      some (c.toInstr addr lm1 (if c.isRead then [] else List.replicate (lm1.toNat + 1) 0)) := by
  have hpayload : takeBytes (lm1.toNat + 1) (List.replicate 256 0) =
      .ok (List.replicate (lm1.toNat + 1) 0, List.replicate (255 - lm1.toNat) 0) := by
    rw [takeBytes_eq_ok, List.replicate_append_replicate]
    exact ⟨congrArg (List.replicate · 0) (by omega), List.length_replicate⟩
  simp only [decodeTableWord, decodeTable, tableBytes, Nat.reduceLT, if_true, BitVec.ofNat_toNat, BitVec.setWidth_eq,
    decodeRequest_header, AuxCmd.ofNibble_nibble, Option.elim_some]
  cases hc : c.isRead with
  | true => rfl
  | false => simp only [Bool.false_eq_true, if_false, hpayload]; rfl

/-- Settles O1: the table's words by their fields, the frames and records by running the decoder. -/
theorem manualWordsDecode : Obligations.ManualWordsDecode :=
  ⟨decodeTableWord_commandWord .nativeWrite 0x00101 0x00, decodeTableWord_commandWord .nativeRead 0x00202 0x01,
    decodeTableWord_commandWord .i2cWrite 0x00050 0x00, decodeTableWord_commandWord .i2cRead 0x00050 0x0F,
    decodeTableWord_commandWord .i2cWriteMot 0x00050 0x00, decodeTableWord_commandWord .i2cReadMot 0x00050 0x00,
    rfl, rfl, rfl, rfl, rfl, rfl, rfl⟩

/-- The nibbles of R127. -/
theorem ofNibble_reserved {c : BitVec 4} (h : c ∈ [0x2, 0x3, 0x6, 0x7, 0xA, 0xB, 0xC, 0xD, 0xE, 0xF]) :
    AuxCmd.ofNibble? c = none := by
  revert c; decide

/-- Settles O4: each decoder's table has no entry for the reserved codes. -/
theorem reservedEncodingsRejected : Obligations.ReservedEncodingsRejected := by
  refine ⟨fun c addr lm1 rest hc => ?_, fun b rest _ hb => ?_, fun status data hs hl => ?_⟩
  · exact decodeRequest_reserved addr lm1 rest (ofNibble_reserved hc)
  · exact decodeHostOp_reserved rest hb
  · rw [decodeReply_encodeReply status hl, replyInstr_of_unnamed data hs]
    rfl

/-! ## The operands' checks (R131) -/

theorem mem_writeNibbles {cmd : BitVec 4} :
    cmd ∈ [0x8, 0x0, 0x4] ↔ (AuxCmd.ofNibble? cmd).map AuxCmd.isRead = some false := by
  revert cmd; decide

theorem mem_readNibbles {cmd : BitVec 4} :
    cmd ∈ [0x9, 0x1, 0x5] ↔ (AuxCmd.ofNibble? cmd).map AuxCmd.isRead = some true := by
  revert cmd; decide

theorem laneCount_isSome {m : Nat} : (LaneCount.ofNat? m).isSome = true ↔ m ∈ [1, 2, 4] := by
  unfold LaneCount.ofNat?
  split_ifs <;> simp [*]

theorem auxExecute_wellFormed {cmd : BitVec 4} {addr len : Nat} {payload : List Byte} :
    (Instr.auxExecute cmd addr len payload).wellFormed = true ↔
      addr < 2 ^ 20 ∧ ((cmd ∈ [0x8, 0x0, 0x4] ∧ payload.length = len) ∨ (cmd ∈ [0x9, 0x1, 0x5] ∧ payload = [])) := by
  rw [mem_writeNibbles, mem_readNibbles, Instr.wellFormed]
  cases AuxCmd.ofNibble? cmd with
  | none => simp
  | some c => cases hc : c.isRead <;> simp [hc]

/-- Settles O5: the check of each row, with the nibbles by class and the lane counts by number. -/
theorem operandChecksOfHostInterface : Obligations.OperandChecksOfHostInterface := by
  refine ⟨fun _ _ _ _ => auxExecute_wellFormed, fun _ _ => decide_eq_true_iff, fun _ _ => decide_eq_true_iff, fun _ _ _ => ?_,
    fun _ _ _ => ?_, fun _ _ _ => laneCount_isSome⟩
  · rw [Instr.wellFormed, Bool.and_eq_true, decide_eq_true_iff, decide_eq_true_iff]
  · rw [Instr.wellFormed, Bool.and_eq_true, Bool.and_eq_true, decide_eq_true_iff, decide_eq_true_iff, laneCount_isSome,
      Nat.lt_succ_iff, Nat.lt_succ_iff, and_assoc]

end Sys2Proof

/-! PROOF. The statements about the AUX Transaction Engine (41_aux_engine.md), and the lemmas they need. -/

namespace Sys2Proof.Machine

/-! ## The data buffer of an attempt (R39, R164) -/

/-- A payload filled up with 0x00 to whole registers (R164). -/
def padded (payload : List Byte) : List Byte :=
  payload ++ List.replicate (4 * auxDataCount payload.length - payload.length) 0

theorem auxDataCount_add_four (n : Nat) : auxDataCount (n + 4) = auxDataCount n + 1 := by
  unfold auxDataCount
  omega

theorem padded_register (b0 b1 b2 b3 : Byte) (rest : List Byte) :
    padded (b0 :: b1 :: b2 :: b3 :: rest) = b0 :: b1 :: b2 :: b3 :: padded rest := by
  have hn : 4 * auxDataCount (rest.length + 4) - (rest.length + 4) = 4 * auxDataCount rest.length - rest.length := by
    rw [auxDataCount_add_four]
    omega
  simp [padded, hn]

theorem writeAuxData_toList (i : Nat) (a b c d : Byte) (s : State) (h : 4 * i + 4 ≤ 16) :
    (s.writeAuxData i (packWord s.par.packing a b c d)).aux.buf.toList
      = s.aux.buf.toList.take (4 * i) ++ [some a, some b, some c, some d] ++ s.aux.buf.toList.drop (4 * i + 4) := by
  rw [State.writeAuxData_aux, unpackWord_packWord]
  exact storeBytes_toList [a, b, c, d] (4 * i) s.aux.buf h

/-- The whole buffer after a load: the registers below, the payload padded, the registers after it. -/
theorem loadPayload_toList (i : Nat) (payload : List Byte) (s : State) (h : 4 * i + payload.length ≤ 16) :
    (s.loadPayload i payload).aux.buf.toList
      = s.aux.buf.toList.take (4 * i) ++ (padded payload).map some
        ++ s.aux.buf.toList.drop (4 * i + 4 * auxDataCount payload.length) := by
  induction i, payload, s using State.loadPayload.induct with
  | case1 i s => simp [State.loadPayload, padded, auxDataCount]
  | case2 i s b0 =>
    simp only [List.length_cons, List.length_nil] at h
    simpa [State.loadPayload, padded, auxDataCount] using writeAuxData_toList i b0 0 0 0 s (by omega)
  | case3 i s b0 b1 =>
    simp only [List.length_cons, List.length_nil] at h
    simpa [State.loadPayload, padded, auxDataCount] using writeAuxData_toList i b0 b1 0 0 s (by omega)
  | case4 i s b0 b1 b2 =>
    simp only [List.length_cons, List.length_nil] at h
    simpa [State.loadPayload, padded, auxDataCount] using writeAuxData_toList i b0 b1 b2 0 s (by omega)
  | case5 i s b0 b1 b2 b3 rest ih =>
    simp only [List.length_cons] at h
    have hw := writeAuxData_toList i b0 b1 b2 b3 s (by omega)
    have hlow := writeAuxData_take i b0 b1 b2 b3 s (by omega)
    have hhigh : (s.writeAuxData i (packWord s.par.packing b0 b1 b2 b3)).aux.buf.toList.drop (4 * i + 4)
        = s.aux.buf.toList.drop (4 * i + 4) := by
      rw [hw, List.drop_left' (by simp; omega)]
    rw [State.loadPayload, ih (by omega), Nat.mul_succ, hlow, ← List.drop_drop, hhigh, List.drop_drop, padded_register]
    simp only [List.length_cons, auxDataCount_add_four, Nat.mul_succ, List.map_cons, List.append_assoc, List.cons_append,
      List.nil_append, Nat.add_assoc, Nat.add_comm 4]

theorem issued_buf_of_read {t : Txn} (site : AuxSite) (s : State) (hr : t.cmd.isRead = true) :
    (s.issued t site).aux.buf = s.aux.buf :=
  (prepareAttempt_spec t s).kept hr

theorem issued_buf_of_write {t : Txn} (site : AuxSite) (s : State) (hr : t.cmd.isRead = false) (hl : t.payload.length ≤ 16) :
    (s.issued t site).aux.buf.toList
      = (padded t.payload).map some ++ s.aux.buf.toList.drop (4 * auxDataCount t.payload.length) := by
  have h := loadPayload_toList 0 t.payload
    { s with ctx := { s.ctx with auxAttempt := s.ctx.auxAttempt + 1 } }.clearAuxCtl (by omega)
  simpa [State.issued, State.prepareAttempt, hr] using h

/-! ## The start of a transaction by the host (R47, R160 to R162, R170 to R175, R180) -/

/-- A length outside 1 to 16 ends the operation at once (R161). -/
theorem auxTransaction_invalidLength (c : AuxCmd) (addr : Addr) {len : Nat} (payload : List Byte) (s : State)
    (h : len < 1 ∨ 16 < len) :
    auxTransaction c addr len payload s = .next (s.endOp (.auxBytes (.err .invalidLength))) :=
  if_pos h

/-- The state in which the first attempt of a host instruction's transaction has just been issued. -/
def State.started (t : Txn) (i : Instr) (s : State) : State :=
  State.issued t .auxExecute { s.log (.opStart i) with ctx := { s.ctx with auxAttempt := 0 } }

theorem auxTransaction_started {t : Txn} (i : Instr) {s : State} (ok : t.Ok) (hb : s.aux.ctl.busy = false) :
    auxTransaction t.cmd t.addr t.len t.payload (s.log (.opStart i)) = .next (s.started t i) := by
  have ⟨h1, h16, _⟩ := ok
  exact (if_neg (not_or.mpr ⟨Nat.not_lt.mpr h1, Nat.not_lt.mpr h16⟩)).trans (beginTxn_eq .auxExecute ok hb)

theorem issued_sameButAux (t : Txn) (site : AuxSite) (s : State) : SameButAux s (s.issued t site) := by
  have sp := issued_spec t site s
  exact ⟨sp.port, sp.sb, sp.phy, sp.par, by rw [sp.attempts]⟩

/-- What the start of a transaction looks like from the state the host finds, and what it leaves alone (R162, R180). -/
structure StartedSpec (t : Txn) (s u : State) : Prop where
  inFlight : InFlight t .auxExecute u
  attempts : u.ctx.auxAttempt = 1
  replyStatus : u.aux.ctl.replyStatus = s.aux.ctl.replyStatus
  replyLen : u.aux.ctl.replyLen = s.aux.ctl.replyLen
  frame : SameButAux s u
  inputs : SameInputs s u
  writes : cmdWrites u.events = cmdWrites s.events + 1

theorem cmdWrites_issued (t : Txn) (site : AuxSite) (s : State) :
    cmdWrites (s.issued t site).events = cmdWrites s.events + 1 := by
  obtain ⟨new, hev, hnew, -⟩ := prepareAttempt_events t s
  rw [State.issued, hev, cmdWrites, cmdWrites_append, hnew, Nat.zero_add]

theorem started_spec (t : Txn) (i : Instr) (s : State) : StartedSpec t s (s.started t i) := by
  have sp := issued_spec t .auxExecute { s.log (.opStart i) with ctx := { s.ctx with auxAttempt := 0 } }
  exact ⟨sp.inFlight, by rw [State.started, sp.attempts], sp.replyStatus, sp.replyLen,
    issued_sameButAux .., ⟨sp.host, sp.chan⟩, cmdWrites_issued ..⟩

/-- An AUX command from Idle is a transaction with its row's command and `LM1 + 1` bytes (R170 to R175). -/
theorem exec_toInstr (c : AuxCmd) (addr : Addr) (lm1 : Byte) {payload : List Byte} {s : State} (hop : s.op = .idle)
    (hp : if c.isRead then payload = [] else payload.length = lm1.toNat + 1) :
    exec (c.toInstr addr lm1 payload) s
      = auxTransaction c addr (lm1.toNat + 1) payload (s.log (.opStart (c.toInstr addr lm1 payload))) := by
  have hw : (c.toInstr addr lm1 payload).wellFormed = true := by
    cases c with
    | nativeWrite | i2cWrite | i2cWriteMot => exact beq_iff_eq.mpr hp
    | nativeRead | i2cRead | i2cReadMot => rfl
  cases c with
  | nativeWrite | i2cWrite | i2cWriteMot => exact hostOp_idle _ hw hop
  | nativeRead | i2cRead | i2cReadMot =>
    obtain rfl : payload = [] := hp
    exact hostOp_idle _ hw hop

/-- AUX_EXECUTE from Idle is the transaction of its operands (R160). -/
theorem exec_auxExecute {c : AuxCmd} {addr len : Nat} {payload : List Byte} {s : State} (hop : s.op = .idle)
    (ha : addr < 2 ^ 20) (hp : if c.isRead then payload = [] else payload.length = len) :
    exec (.auxExecute c.nibble addr len payload) s
      = auxTransaction c (BitVec.ofNat 20 addr) len payload
          (s.log (.opStart (.auxExecute c.nibble addr len payload))) := by
  have hw : (Instr.auxExecute c.nibble addr len payload).wellFormed = true := by
    cases hc : c.isRead <;> simp_all [Instr.wellFormed]
  change execAuxExecute c.nibble addr len payload s = _
  rw [execAuxExecute, hostOp_idle _ hw hop]
  simp only [AuxCmd.ofNibble_nibble]

/-- The transaction of an AUX command. -/
abbrev commandTxn (c : AuxCmd) (addr : Addr) (lm1 : Byte) (payload : List Byte) : Txn := ⟨c, addr, lm1.toNat + 1, payload⟩

theorem frame_commandTxn {c : AuxCmd} (addr : Addr) (lm1 : Byte) {payload : List Byte} (h : c.isRead = true → payload = []) :
    AuxRequest.frame ⟨(commandTxn c addr lm1 payload).word, payload⟩ = encode (c.toInstr addr lm1 payload) := by
  rw [encode_toInstr addr lm1 h, encodeRequest, AuxRequest.frame, Txn.word, Nat.add_sub_cancel, BitVec.ofNat_toNat,
    BitVec.setWidth_eq]

theorem exec_command_started (c : AuxCmd) (addr : Addr) {lm1 : Byte} {payload : List Byte} {s : State} (hop : s.op = .idle)
    (hb : s.aux.ctl.busy = false) (hp : if c.isRead then payload = [] else payload.length = lm1.toNat + 1)
    (hl : lm1.toNat < 16) :
    exec (c.toInstr addr lm1 payload) s
      = .next (s.started (commandTxn c addr lm1 payload) (c.toInstr addr lm1 payload)) := by
  rw [exec_toInstr c addr lm1 hop hp]
  exact auxTransaction_started (t := commandTxn c addr lm1 payload) _ ⟨Nat.succ_pos _, hl, hp⟩ hb

theorem exec_command_invalidLength (c : AuxCmd) (addr : Addr) {lm1 : Byte} {payload : List Byte} {s : State}
    (hop : s.op = .idle) (hp : if c.isRead then payload = [] else payload.length = lm1.toNat + 1) (hl : 16 ≤ lm1.toNat) :
    exec (c.toInstr addr lm1 payload) s
      = .next (onlyReturned (c.toInstr addr lm1 payload) (.auxBytes (.err .invalidLength)) s) := by
  rw [exec_toInstr c addr lm1 hop hp]
  exact auxTransaction_invalidLength _ _ _ _ (.inr (Nat.lt_succ_of_le hl))

/-- Settles O11: each read row starts its transaction, and a read loads no payload. -/
theorem readCommandsIssueRequest : Obligations.ReadCommandsIssueRequest := by
  intro s addr lm1 hop hb ci hci
  obtain ⟨c, hc, rfl⟩ : ∃ c : AuxCmd, c.isRead = true ∧ ci = (c, c.toInstr addr lm1 []) := by
    simp only [List.mem_cons, List.not_mem_nil, or_false] at hci
    rcases hci with rfl | rfl | rfl <;> exact ⟨_, rfl, rfl⟩
  have hp : if c.isRead then ([] : List Byte) = [] else ([] : List Byte).length = lm1.toNat + 1 := by rw [if_pos hc]
  have sp := started_spec (commandTxn c addr lm1 []) (c.toInstr addr lm1 []) s
  exact ⟨fun hl => ⟨_, exec_command_started c addr hop hb hp hl, sp.inFlight,
      ⟨_, rfl, frame_commandTxn addr lm1 fun _ => rfl⟩, sp.attempts, issued_buf_of_read _ _ hc,
      sp.replyStatus, sp.replyLen, sp.frame, sp.inputs⟩,
    exec_command_invalidLength c addr hop hp⟩

/-- Settles O12: each write row starts its transaction, with its payload loaded and padded. -/
theorem writeCommandsIssueRequest : Obligations.WriteCommandsIssueRequest := by
  intro s addr lm1 payload hop hb hlen ci hci
  obtain ⟨c, hc, rfl⟩ : ∃ c : AuxCmd, c.isRead = false ∧ ci = (c, c.toInstr addr lm1 payload) := by
    simp only [List.mem_cons, List.not_mem_nil, or_false] at hci
    rcases hci with rfl | rfl | rfl <;> exact ⟨_, rfl, rfl⟩
  have hp : if c.isRead then payload = [] else payload.length = lm1.toNat + 1 := by rwa [hc]
  have sp := started_spec (commandTxn c addr lm1 payload) (c.toInstr addr lm1 payload) s
  refine ⟨fun hl => ⟨_, exec_command_started c addr hop hb hp hl, sp.inFlight,
      ⟨_, rfl, frame_commandTxn addr lm1 fun h => absurd h (hc ▸ Bool.false_ne_true)⟩, sp.attempts, ?_,
      sp.replyStatus, sp.replyLen, sp.frame, sp.inputs⟩, exec_command_invalidLength c addr hop hp⟩
  have hbuf := issued_buf_of_write (t := commandTxn c addr lm1 payload) .auxExecute
    { s.log (.opStart (c.toInstr addr lm1 payload)) with ctx := { s.ctx with auxAttempt := 0 } } hc (hlen.trans_le hl)
  rwa [padded, List.map_append, List.map_replicate] at hbuf

theorem commandWord_toNat (cmd : BitVec 4) (addr : Addr) (lm1 : Byte) :
    (commandWord cmd addr lm1).toNat = cmd.toNat * 2 ^ 28 + addr.toNat * 2 ^ 8 + lm1.toNat := by
  rw [commandWord, BitVec.toNat_append, BitVec.toNat_append, ← Nat.shiftLeft_add_eq_or_of_lt addr.isLt,
    ← Nat.shiftLeft_add_eq_or_of_lt lm1.isLt, Nat.shiftLeft_eq, Nat.shiftLeft_eq]
  ring

theorem exec_auxExecute_started {c : AuxCmd} {addr len : Nat} {payload : List Byte} {s : State} (hop : s.op = .idle)
    (hb : s.aux.ctl.busy = false) (ha : addr < 2 ^ 20) (ok : Txn.Ok ⟨c, BitVec.ofNat 20 addr, len, payload⟩) :
    exec (.auxExecute c.nibble addr len payload) s
      = .next (s.started ⟨c, BitVec.ofNat 20 addr, len, payload⟩ (.auxExecute c.nibble addr len payload)) := by
  rw [exec_auxExecute hop ha ok.2.2]
  exact auxTransaction_started (t := ⟨c, BitVec.ofNat 20 addr, len, payload⟩) _ ok hb

/-- Settles O13: AUX_EXECUTE starts its transaction, whose word is the sum of its fields in place. -/
theorem auxExecuteIssuesRequest : Obligations.AuxExecuteIssuesRequest := by
  intro s c addr len payload hop hb ha h1 h16 hp
  have sp := started_spec ⟨c, BitVec.ofNat 20 addr, len, payload⟩ (.auxExecute c.nibble addr len payload) s
  refine ⟨_, exec_auxExecute_started hop hb ha ⟨h1, h16, hp⟩, sp.inFlight, ?_, sp.attempts, sp.frame, sp.inputs⟩
  show (commandWord _ _ _).toNat = _
  rw [commandWord_toNat, BitVec.toNat_ofNat, BitVec.toNat_ofNat, Nat.mod_eq_of_lt ha,
    Nat.mod_eq_of_lt (show len - 1 < 2 ^ 8 by omega)]

/-- Settles O14: the length check ends AUX_EXECUTE before anything but its start. -/
theorem lengthOutsideRangeChangesNothing : Obligations.LengthOutsideRangeChangesNothing := by
  intro s c addr len payload hop ha hp hl
  rw [exec_auxExecute hop ha hp]
  exact auxTransaction_invalidLength _ _ _ _ hl

/-! ## The end of a transaction of the host's (R44, R168, R169, R176) -/

theorem possible_reply (status : BitVec 4) {data : List Byte} (h : data.length ≤ 16) :
    (AuxOutcome.reply status data).possible = true :=
  decide_eq_true h

/-- An AUX controller as a reply leaves it is one that has taken the reply (R44). -/
theorem replyTaken_of_aux {status : BitVec 4} {data : List Byte} {s u : State} (h16 : data.length ≤ 16)
    (h : u.aux = (s.complete (.reply status data)).aux) : ReplyTaken status data s u := by
  rw [ReplyTaken, h]
  refine ⟨?_, ?_, rfl, rfl⟩
  · rfl
  · have hbuf := storeBytes_toList data 0 s.aux.buf (by omega)
    simpa [State.complete] using hbuf

/-- Settles O15: the ACK is accepted, and its bytes are returned. -/
theorem ackEndsAuxExecute : Obligations.AckEndsAuxExecute := by
  intro s t data aw h16 hl
  have sp := accepted_spec t (.reply 0 data) s
  refine ⟨_, replyAck_delivers aw h16 hl, rfl, ?_, replyTaken_of_aux h16 sp.aux, ⟨sp.port, sp.sb, sp.phy, sp.par, ?_⟩,
    sp.ctx, sp.chan⟩
  · rw [State.endOp_host, sp.host]; rfl
  · rw [State.endOp_ctx, sp.ctx]

/-- Settles O19: the exhausted transaction returns `NoResponse`, and nothing touches `AUX_CTL` after the outcome. -/
theorem sixthFailureIsNoResponse : Obligations.SixthFailureIsNoResponse := by
  intro s t o ⟨hop, hb, _, _⟩ h6 ho hf
  obtain ⟨ha, hx⟩ := answerGives (answer_exhausts hop hb ho hf h6.ge)
  exact ⟨_, ha, hx, rfl, rfl, rfl, State.complete_done s o, ⟨rfl, rfl, rfl, rfl, rfl⟩, rfl, rfl⟩

/-! ## A failed attempt is retried (R167, R169, R176 to R179, R307) -/

/-- The attempt is issued again: in flight, counted, and nothing outside R180's registers changed. -/
structure Retried (t : Txn) (site : AuxSite) (s u : State) : Prop where
  inFlight : InFlight t site u
  ctx : u.ctx = { s.ctx with auxAttempt := s.ctx.auxAttempt + 1 }
  frame : SameButAux s u
  inputs : SameInputs s u

theorem retried_issued (t : Txn) (site : AuxSite) (o : AuxOutcome) (s : State) :
    Retried t site s ((s.answered o).issued t site) :=
  have sp := issued_spec t site (s.answered o)
  ⟨sp.inFlight, sp.attempts, issued_sameButAux .., sp.host, sp.chan⟩

/-- A sticky error bit fails the attempt whatever reply comes (R167, R307). -/
theorem attemptOk_sticky {c : AuxCtl} (h : c.errTimeout = true ∨ c.errReceive = true) (status : BitVec 4) (data : List Byte)
    (cmd : AuxCmd) (len : Nat) : attemptOk (c.complete (.reply status data)) cmd len = false := by
  rcases h with h | h <;> simp [attemptOk, AuxCtl.complete, h]

theorem answer_retries_of_sticky {s : State} {t : Txn} {site : AuxSite} {status : BitVec 4} {data : List Byte}
    (hop : s.op = .busy (.awaitAux t site)) (hb : s.aux.ctl.busy = true)
    (hs : s.aux.ctl.errTimeout = true ∨ s.aux.ctl.errReceive = true) (ok : t.Ok) (hn : s.ctx.auxAttempt < Config.auxMaxAttempts)
    (h16 : data.length ≤ 16) :
    answer (.reply status data) s = .next ((s.answered (.reply status data)).issued t site) := by
  have hf : attemptOk (s.complete (.reply status data)).aux.ctl t.cmd t.len = false := attemptOk_sticky hs ..
  rw [answer_awaiting (possible_reply _ h16) hop hb, verdict, hf, if_neg Bool.false_ne_true]
  exact (if_pos hn).trans (attempt_eq site ok rfl)

/-- Settles O16: a failing outcome, or a sticky error before the ACK, has the engine issue the request again. -/
theorem failedAttemptIsRetried : Obligations.FailedAttemptIsRetried := by
  refine ⟨fun s t site o aw ok hn ho hf => ?_, fun s t site data hop hb hs ok hn h16 => ?_⟩
  · obtain ⟨hop, hb, -, -⟩ := aw
    obtain ⟨ha, hx⟩ := answerGives (answer_retries hop hb ok ho hf hn)
    have r := retried_issued t site o s
    exact ⟨_, ha, hx, r.inFlight, congrArg Context.auxAttempt r.ctx, r.frame, r.inputs⟩
  · have r := retried_issued t site (.reply 0 data) s
    exact ⟨_, answer_retries_of_sticky hop hb hs ok hn h16, r.inFlight, congrArg Context.auxAttempt r.ctx, r.frame, r.inputs⟩

/-- Settles O17: a NACK is a failing outcome, retried below six attempts and the transaction's end from six on. -/
theorem nackRetriesThenNoResponse : Obligations.NackRetriesThenNoResponse := by
  intro s t data h16
  have ho : (AuxOutcome.reply 1 data).possible = true := possible_reply _ h16
  have hf : (AuxOutcome.reply 1 data).fails t.cmd t.len = true := rfl
  have exhausted : ∀ site, Awaiting t site s → 6 ≤ s.ctx.auxAttempt →
      exec (.replyNack data) s = deliver site (.err .noResponse) (s.answered (.reply 1 data)) :=
    fun site ⟨hop, hb, _, _⟩ hn => answer_exhausts hop hb ho hf hn
  refine ⟨fun site ⟨hop, hb, _, _⟩ ok hn => ?_, fun aw hn => ?_, exhausted⟩
  · have sp := issued_spec t site (s.answered (.reply 1 data))
    refine ⟨_, answer_retries hop hb ok ho hf hn, sp.inFlight, sp.replyStatus, ?_, sp.attempts, sp.port, sp.sb, sp.phy, sp.par,
      sp.host, sp.chan⟩
    exact (congrArg BitVec.toNat sp.replyLen).trans (replyLen_toNat h16)
  · exact ⟨_, exhausted _ aw hn, rfl, rfl, replyTaken_of_aux h16 rfl, ⟨rfl, rfl, rfl, rfl, rfl⟩, rfl, rfl⟩

/-! ## DEFER is treated as NACK (R178) -/

/-- The two states differ in the record of events and in `REPLY_STATUS` at most, which is DEFER's in the second. -/
def AlikeButStatus (u v : State) : Prop :=
  ∃ events, v = { u with aux := { u.aux with ctl := { u.aux.ctl with replyStatus := 2 } }, events := events }

/-- Every field but the record of events, side by side. -/
theorem AlikeButStatus.fields {u v : State} (h : AlikeButStatus u v) :
    v.aux = { u.aux with ctl := { u.aux.ctl with replyStatus := 2 } } ∧ v.op = u.op ∧ v.ctx = u.ctx ∧ v.port = u.port
      ∧ v.sb = u.sb ∧ v.phy = u.phy ∧ v.par = u.par ∧ SameInputs u v := by
  obtain ⟨events, rfl⟩ := h
  exact ⟨rfl, rfl, rfl, rfl, rfl, rfl, rfl, rfl, rfl⟩

theorem alike_loadPayload (i : Nat) (payload : List Byte) {u v : State} (h : AlikeButStatus u v) :
    AlikeButStatus (u.loadPayload i payload) (v.loadPayload i payload) := by
  obtain ⟨events, rfl⟩ := h
  induction i, payload, u using State.loadPayload.induct generalizing events with
  | case1 i u => exact ⟨events, rfl⟩
  | case2 i u b0 | case3 i u b0 b1 | case4 i u b0 b1 b2 => exact ⟨_, rfl⟩
  | case5 i u b0 b1 b2 b3 rest ih => exact ih _

theorem alike_prepareAttempt (t : Txn) {u v : State} (h : AlikeButStatus u v) :
    AlikeButStatus (u.prepareAttempt t) (v.prepareAttempt t) := by
  obtain ⟨events, rfl⟩ := h
  unfold State.prepareAttempt
  split
  · exact ⟨_, rfl⟩
  · exact alike_loadPayload 0 t.payload ⟨_, rfl⟩

theorem alike_issued (t : Txn) (site : AuxSite) {u v : State} (h : AlikeButStatus u v) :
    AlikeButStatus (u.issued t site) (v.issued t site) := by
  obtain ⟨events, hp⟩ := alike_prepareAttempt t h
  exact ⟨.auxCmdWrite t.word :: events, by simp only [State.issued, hp]⟩

/-- Both answers are next states, alike but for the status, and in neither does this call await an attempt. -/
def EndAlike (site : AuxSite) (a b : Out) : Prop :=
  ∃ u v, a = .next u ∧ b = .next v ∧ AlikeButStatus u v ∧ ∀ t, v.op ≠ .busy (.awaitAux t site)

theorem endAlike_setupPort {u v : State} (h : AlikeButStatus u v) (hb : u.aux.ctl.busy = false) :
    EndAlike .rdInterval (setupPort u) (setupPort v) := by
  obtain ⟨events, rfl⟩ := h
  have ok : ∀ v, Txn.Ok ⟨.nativeWrite, 0x101, 1, leBytes 1 v⟩ :=
    fun v => ⟨le_refl 1, show 1 ≤ 16 by decide, leBytes_length 1 v⟩
  exact ⟨_, _, beginTxn_eq .laneCountSet (ok _) hb, beginTxn_eq .laneCountSet (ok _) hb, alike_issued _ _ ⟨_, rfl⟩, nofun⟩

/-- `NoResponse` ends the call alike, whatever `REPLY_STATUS` is: no call reads it, and none issues its own request again. -/
theorem endAlike_deliver (site : AuxSite) {u v : State} (h : AlikeButStatus u v) (hb : u.aux.ctl.busy = false) :
    EndAlike site (deliver site (.err .noResponse) u) (deliver site (.err .noResponse) v) := by
  obtain ⟨events, rfl⟩ := h
  cases site with
  | rdInterval =>
    cases hm : u.ctx.lc.laneCount <;> simp only [deliver, setupInterval, hm]
    case four => exact ⟨_, _, rfl, rfl, ⟨_, rfl⟩, nofun⟩
    all_goals exact endAlike_setupPort ⟨_, rfl⟩ hb
  | laneSet site => cases site <;> exact ⟨_, _, rfl, rfl, ⟨_, rfl⟩, nofun⟩
  | _ => exact ⟨_, _, rfl, rfl, ⟨_, rfl⟩, nofun⟩

theorem alike_answered (data : List Byte) (s : State) :
    AlikeButStatus (s.answered (.reply 1 data)) (s.answered (.reply 2 data)) :=
  ⟨_, rfl⟩

/-- Settles O18: the states after the two replies are alike, and so are the retry and the end that follow. -/
theorem deferTreatedAsNack : Obligations.DeferTreatedAsNack := by
  intro s t site data ⟨hop, hb, _, _⟩ ok h16
  have ho : ∀ status, (AuxOutcome.reply status data).possible = true := fun _ => possible_reply _ h16
  have nackFails : (AuxOutcome.reply 1 data).fails t.cmd t.len = true := rfl
  have deferFails : (AuxOutcome.reply 2 data).fails t.cmd t.len = true := rfl
  rcases Nat.lt_or_ge s.ctx.auxAttempt Config.auxMaxAttempts with hn | hn
  · have r := retried_issued t site (.reply 2 data) s
    obtain ⟨haux, hop', hctx, hport, hsb, hphy, hpar, hin⟩ := (alike_issued t site (alike_answered data s)).fields
    exact ⟨_, _, answer_retries hop hb ok (ho 1) nackFails hn, answer_retries hop hb ok (ho 2) deferFails hn, haux, hop', hctx,
      hport, hsb, hphy, hpar, hin, fun _ => ⟨r.inFlight, congrArg Context.auxAttempt r.ctx⟩,
      fun h => absurd hn (Nat.not_lt.mpr h)⟩
  · obtain ⟨u, v, hu, hv, alike, hne⟩ := endAlike_deliver site (alike_answered data s) rfl
    obtain ⟨haux, hop', hctx, hport, hsb, hphy, hpar, hin⟩ := alike.fields
    exact ⟨u, v, (answer_exhausts hop hb (ho 1) nackFails hn).trans hu, (answer_exhausts hop hb (ho 2) deferFails hn).trans hv,
      haux, hop', hctx, hport, hsb, hphy, hpar, hin, fun h => absurd h (Nat.not_lt.mpr hn), fun _ => hne t⟩

/-! ## The retry bound (R169) -/

/-- The host's transaction awaits its attempt `k`, its `AUX_CMD` writes counted from `w` on, and these outcomes to come. -/
structure AttemptOf (t : Txn) (w k : Nat) (outcomes : List AuxOutcome) (s : State) : Prop where
  reset : s.host.reset = false
  awaiting : Awaiting t .auxExecute s
  attempt : s.ctx.auxAttempt = k
  writes : cmdWrites s.events = w + k
  outcomes : s.chan.outcomes = outcomes

/-- The host's transaction has ended with this result after `k` attempts, these outcomes left. -/
structure EndedAfter (w k : Nat) (outcomes : List AuxOutcome) (r : Result (List Byte) AuxError) (u : State) : Prop where
  op : u.op = .idle
  result : u.host.result = some (.auxBytes r)
  writes : cmdWrites u.events = w + k
  attempt : u.ctx.auxAttempt = k
  outcomes : u.chan.outcomes = outcomes

theorem attemptOf_started {t : Txn} {i : Instr} {s : State} (hr : s.host.reset = false) :
    AttemptOf t (cmdWrites s.events) 1 s.chan.outcomes (s.started t i) := by
  have sp := started_spec t i s
  obtain ⟨hop, hb, -, ht, he, -⟩ := sp.inFlight
  obtain ⟨hhost, hchan⟩ := sp.inputs
  exact ⟨by rw [hhost, hr], ⟨hop, hb, ht, he⟩, sp.attempts, sp.writes, by rw [hchan]⟩

/-- The AUX channel takes the next listed outcome. -/
def State.withOutcomes (rest : List AuxOutcome) (s : State) : State := { s with chan := { s.chan with outcomes := rest } }

theorem AttemptOf.step {t : Txn} {w k : Nat} {o : AuxOutcome} {rest : List AuxOutcome} {s : State}
    (h : AttemptOf t w k (o :: rest) s) : Machine.step s = answer o (s.withOutcomes rest) :=
  step_of_listed h.reset h.awaiting.1 h.awaiting.2.1 h.outcomes

theorem AttemptOf.step_failed {t : Txn} {w k : Nat} {o : AuxOutcome} {rest : List AuxOutcome} {s : State} (ok : t.Ok)
    (h : AttemptOf t w k (o :: rest) s) (ho : o.possible = true) (hf : o.fails t.cmd t.len = true) (hk : k < 6) :
    ∃ u, Machine.step s = .next u ∧ AttemptOf t w (k + 1) rest u := by
  obtain ⟨hop, hb, -, -⟩ := h.awaiting
  have hn : (s.withOutcomes rest).ctx.auxAttempt < Config.auxMaxAttempts := h.attempt.trans_lt hk
  have r := retried_issued t .auxExecute o (s.withOutcomes rest)
  obtain ⟨hop', hb', -, ht, he, -⟩ := r.inFlight
  obtain ⟨hhost, hchan⟩ := r.inputs
  refine ⟨_, h.step.trans (answer_retries hop hb ok ho hf hn), ?_, ⟨hop', hb', ht, he⟩, ?_, ?_, ?_⟩
  · exact (congrArg HostPort.reset hhost).trans h.reset
  · rw [← h.attempt]; exact congrArg Context.auxAttempt r.ctx
  · rw [← Nat.add_assoc, ← h.writes]; exact cmdWrites_issued ..
  · exact congrArg Channel.outcomes hchan

theorem AttemptOf.step_exhausted {t : Txn} {w : Nat} {o : AuxOutcome} {rest : List AuxOutcome} {s : State}
    (h : AttemptOf t w 6 (o :: rest) s) (ho : o.possible = true) (hf : o.fails t.cmd t.len = true) :
    ∃ u, Machine.step s = .next u ∧ EndedAfter w 6 rest (.err .noResponse) u := by
  obtain ⟨hop, hb, -, -⟩ := h.awaiting
  exact ⟨_, h.step.trans (answer_exhausts (s := s.withOutcomes rest) hop hb ho hf h.attempt.ge),
    rfl, rfl, h.writes, h.attempt, rfl⟩

theorem cmdWrites_auxDataReads (l : List Nat) : cmdWrites (l.map Event.auxDataRead) = 0 := by
  induction l with
  | nil => rfl
  | cons i l ih => exact ih

theorem cmdWrites_accepted (t : Txn) (o : AuxOutcome) (s : State) : cmdWrites (s.accepted t o).events = cmdWrites s.events := by
  unfold State.accepted
  split
  · rw [State.logReplyReads_events, cmdWrites_append, ← List.map_reverse, cmdWrites_auxDataReads, Nat.zero_add]; rfl
  · rfl

theorem AttemptOf.step_acked {t : Txn} {w k : Nat} {bytes : List Byte} {rest : List AuxOutcome} {s : State}
    (h : AttemptOf t w k (.reply 0 bytes :: rest) s) (h16 : bytes.length ≤ 16)
    (hf : (AuxOutcome.reply 0 bytes).fails t.cmd t.len = false) :
    ∃ u, Machine.step s = .next u ∧ EndedAfter w k rest (.ok (txnResult t bytes)) u := by
  obtain ⟨hop, hb, ht, he⟩ := h.awaiting
  have sp := accepted_spec t (.reply 0 bytes) (s.withOutcomes rest)
  refine ⟨_, (h.step.trans (answer_awaiting (possible_reply _ h16) hop hb)).trans (verdict_success .auxExecute h16 hf ht he),
    rfl, rfl, (cmdWrites_accepted ..).trans h.writes, ?_, ?_⟩
  · exact (congrArg Context.auxAttempt sp.ctx).trans h.attempt
  · exact congrArg Channel.outcomes sp.chan

/-- Failures in a row are as many attempts more, while no more than six are made. -/
theorem AttemptOf.run_failures {t : Txn} {w : Nat} (ok : t.Ok) {failures rest : List AuxOutcome} {k : Nat} {s : State}
    (h : AttemptOf t w k (failures ++ rest) s) (hfail : ∀ o ∈ failures, o.possible = true ∧ o.fails t.cmd t.len = true)
    (hk : k + failures.length ≤ 6) :
    ∃ u, AttemptOf t w (k + failures.length) rest u ∧ ∀ n, run (failures.length + n) s = run n u := by
  induction failures generalizing k s with
  | nil => exact ⟨s, h, fun n => by rw [List.length_nil, Nat.zero_add]⟩
  | cons o failures ih =>
    rw [List.length_cons] at hk ⊢
    obtain ⟨⟨ho, hf⟩, hfail⟩ := List.forall_mem_cons.mp hfail
    obtain ⟨v, hv, h'⟩ := h.step_failed ok ho hf (by omega)
    obtain ⟨u, hu, hrun⟩ := ih h' hfail (by omega)
    refine ⟨u, by rwa [Nat.add_right_comm] at hu, fun n => ?_⟩
    rw [Nat.add_right_comm, run_succ hv, hrun]

/-- Settles O20: the failures are run through, and the attempt after them ends the transaction; of six failures the last
does. -/
theorem retryBoundIsSixAttempts : Obligations.RetryBoundIsSixAttempts := by
  intro s c addr len payload failures rest hop hr hb ha h1 h16 hp hfail
  have ok : Txn.Ok ⟨c, BitVec.ofNat 20 addr, len, payload⟩ := ⟨h1, h16, hp⟩
  have started := attemptOf_started (t := ⟨c, BitVec.ofNat 20 addr, len, payload⟩)
    (i := .auxExecute c.nibble addr len payload) hr
  refine ⟨fun bytes hl hok hlt hout => ?_, fun h6 hout => ?_⟩ <;> rw [hout] at started
  · obtain ⟨v, hv, hrun⟩ := started.run_failures ok hfail (by omega)
    obtain ⟨u, hu, e⟩ := hv.step_acked hl hok
    rw [Nat.add_comm 1] at e
    exact ⟨_, u, exec_auxExecute_started hop hb ha ok, (hrun 1).trans (run_succ hu), e.op, e.result, e.writes, e.attempt,
      e.outcomes⟩
  · obtain ⟨init, last, rfl⟩ : ∃ init last, failures = init ++ [last] :=
      ⟨_, _, (List.dropLast_append_getLast (List.ne_nil_of_length_pos (by omega))).symm⟩
    have hlen : init.length = 5 := by simpa using h6
    obtain ⟨hinit, hlast⟩ := List.forall_mem_append.mp hfail
    obtain ⟨ho, hf⟩ := hlast last List.mem_cons_self
    rw [List.append_assoc] at started
    obtain ⟨v, hv, hrun⟩ := started.run_failures ok hinit (by omega)
    rw [hlen] at hv hrun
    obtain ⟨u, hu, e⟩ := hv.step_exhausted ho hf
    exact ⟨_, u, exec_auxExecute_started hop hb ha ok, (hrun 1).trans (run_succ hu), e.op, e.result, e.writes, e.attempt,
      e.outcomes⟩

end Sys2Proof.Machine

/-! PROOF. The statements about the DPCD Accessor (42_dpcd_accessor.md), and the lemmas they need. -/

namespace Sys2Proof.Machine

/-! ## The DPCD operations from Idle (R190, R191, R194, R195) -/

theorem exec_dpcdRead {addr : Nat} (n : Nat) {s : State} (hop : s.op = .idle) (ha : addr < 2 ^ 20) :
    exec (.dpcdRead addr n) s
      = if badCount n then .next ((s.log (.opStart (.dpcdRead addr n))).endOp (.value (.err .invalidLength)))
        else memRead (BitVec.ofNat 20 addr) n .dpcdRead (s.log (.opStart (.dpcdRead addr n))) := by
  rw [exec, execDpcdRead, hostOp_idle (i := .dpcdRead addr n) _ (decide_eq_true ha) hop]

theorem exec_dpcdReadProbe {addr : Nat} (n : Nat) {s : State} (hop : s.op = .idle) (ha : addr < 2 ^ 20) :
    exec (.dpcdReadProbe addr n) s
      = if badCount n then .next ((s.log (.opStart (.dpcdReadProbe addr n))).endOp (.value (.ok 0)))
        else memRead (BitVec.ofNat 20 addr) n .dpcdReadProbe (s.log (.opStart (.dpcdReadProbe addr n))) := by
  rw [exec, execDpcdReadProbe, hostOp_idle (i := .dpcdReadProbe addr n) _ (decide_eq_true ha) hop]

theorem exec_dpcdWrite {addr : Nat} (n : Nat) {value : Nat} {s : State} (hop : s.op = .idle) (ha : addr < 2 ^ 20)
    (hv : value < 2 ^ 32) :
    exec (.dpcdWrite addr n value) s
      = if badCount n then .next ((s.log (.opStart (.dpcdWrite addr n value))).endOp (.written (.err .invalidLength)))
        else memWrite (BitVec.ofNat 20 addr) n (BitVec.ofNat 32 value) .dpcdWrite
          (s.log (.opStart (.dpcdWrite addr n value))) := by
  have hw : (Instr.dpcdWrite addr n value).wellFormed = true :=
    Bool.and_eq_true_iff.mpr ⟨decide_eq_true ha, decide_eq_true hv⟩
  rw [exec, execDpcdWrite, hostOp_idle _ hw hop]

theorem badCount_eq_true {n : Nat} : badCount n = true ↔ n = 0 ∨ 4 < n := by
  rw [badCount, Bool.or_eq_true, decide_eq_true_iff, decide_eq_true_iff, Nat.lt_one_iff, Config.dpcdMaxN]

/-- Settles O26: a bad count ends each operation before anything but its start. -/
theorem dpcdByteCountChecked : Obligations.DpcdByteCountChecked := by
  intro s addr n value hop ha hv hn
  have hbad := badCount_eq_true.mpr hn
  exact ⟨(exec_dpcdRead n hop ha).trans (if_pos hbad), (exec_dpcdReadProbe n hop ha).trans (if_pos hbad),
    (exec_dpcdWrite n hop ha hv).trans (if_pos hbad)⟩

/-! ## A DPCD operation is one transaction (R190, R193 to R195) -/

/-- From Idle the operation `i` is the transaction `t`, whose result goes to the host as `result` gives it. -/
structure MakesTxn (i : Instr) (t : Txn) (site : AuxSite) (result : Result (List Byte) AuxError → OpResult) : Prop where
  ok : t.Ok
  begins : ∀ s : State, s.op = .idle → exec i s = beginTxn t site (s.log (.opStart i))
  returns : ∀ (r : Result (List Byte) AuxError) (s : State), deliver site r s = .next (s.endOp (result r))

section
variable {addr n : Nat} (ha : addr < 2 ^ 20) (h1 : 1 ≤ n) (h4 : n ≤ 4)
include ha h1 h4

theorem dpcdRead_makesTxn :
    MakesTxn (.dpcdRead addr n) (readTxn (BitVec.ofNat 20 addr) n) .dpcdRead fun r => .value (readValue r) where
  ok := ⟨h1, h4.trans (by decide), rfl⟩
  begins _ hop := (exec_dpcdRead n hop ha).trans (if_neg (by rw [badCount_eq_true]; omega))
  returns _ _ := rfl

theorem dpcdReadProbe_makesTxn :
    MakesTxn (.dpcdReadProbe addr n) (readTxn (BitVec.ofNat 20 addr) n) .dpcdReadProbe
      fun r => .value (.ok (probeValue r)) where
  ok := ⟨h1, h4.trans (by decide), rfl⟩
  begins _ hop := (exec_dpcdReadProbe n hop ha).trans (if_neg (by rw [badCount_eq_true]; omega))
  returns _ _ := rfl

theorem dpcdWrite_makesTxn {value : Nat} (hv : value < 2 ^ 32) :
    MakesTxn (.dpcdWrite addr n value) ⟨.nativeWrite, BitVec.ofNat 20 addr, n, leBytes n (BitVec.ofNat 32 value)⟩ .dpcdWrite
      fun r => .written (writeDone r) where
  ok := ⟨h1, h4.trans (by decide), leBytes_length n _⟩
  begins _ hop := (exec_dpcdWrite n hop ha hv).trans (if_neg (by rw [badCount_eq_true]; omega))
  returns _ _ := rfl

end

/-! ## Its attempts (R162, R167 to R169, R180) -/

theorem SameButAux.trans {a b c : State} (h : SameButAux a b) (g : SameButAux b c) : SameButAux a c := by
  obtain ⟨hport, hsb, hphy, hpar, hctx⟩ := h
  obtain ⟨gport, gsb, gphy, gpar, gctx⟩ := g
  exact ⟨gport.trans hport, gsb.trans hsb, gphy.trans hphy, gpar.trans hpar, by rw [gctx, hctx]⟩

/-- Attempt `k` of the transaction that an operation started in `s₀` is awaited, these outcomes to come and no
reset asked for. -/
structure CallAwaits (t : Txn) (site : AuxSite) (s₀ : State) (k : Nat) (outcomes : List AuxOutcome) (s : State) : Prop where
  reset : s₀.host.reset = false
  awaiting : Awaiting t site s
  attempt : s.ctx.auxAttempt = k
  outcomes : s.chan.outcomes = outcomes
  host : s.host = s₀.host
  frame : SameButAux s₀ s

/-- The operation started in `s₀` has ended with this result after `k` attempts, these outcomes left. -/
structure CallEnded (s₀ : State) (k : Nat) (outcomes : List AuxOutcome) (r : OpResult) (u : State) : Prop where
  op : u.op = .idle
  busy : u.aux.ctl.busy = false
  attempt : u.ctx.auxAttempt = k
  outcomes : u.chan.outcomes = outcomes
  host : u.host = { s₀.host with result := some r }
  frame : SameButAux s₀ u

section
variable {i : Instr} {t : Txn} {site : AuxSite} {result : Result (List Byte) AuxError → OpResult} {k : Nat}
  {o : AuxOutcome} {rest : List AuxOutcome} {s₀ s : State}

theorem Awaiting.of_inFlight (h : InFlight t site s) : Awaiting t site s := by
  obtain ⟨hop, hb, -, ht, he, -⟩ := h
  exact ⟨hop, hb, ht, he⟩

/-- The first attempt of an operation's transaction is issued at once. -/
theorem MakesTxn.exec_issues (h : MakesTxn i t site result) (hop : s.op = .idle) (hr : s.host.reset = false)
    (hb : s.aux.ctl.busy = false) :
    ∃ u, exec i s = .next u ∧ InFlight t site u ∧ SameInputs s u ∧ CallAwaits t site s 1 s.chan.outcomes u := by
  obtain ⟨u, hu, b⟩ := beginTxn_begun (s := s.log (.opStart i)) site h.ok hb
  have hctx : u.ctx = { s.ctx with auxAttempt := 1 } := b.ctx
  exact ⟨u, (h.begins s hop).trans hu, b.inFlight, ⟨b.host, b.chan⟩, hr, .of_inFlight b.inFlight, by rw [hctx],
    congrArg Channel.outcomes b.chan, b.host, b.port, b.sb, b.phy, b.par, by rw [hctx]⟩

theorem CallAwaits.step (h : CallAwaits t site s₀ k (o :: rest) s) :
    Machine.step s = answer o (s.withOutcomes rest) := by
  obtain ⟨hop, hb, -, -⟩ := h.awaiting
  exact step_of_listed (by rw [h.host, h.reset]) hop hb h.outcomes

theorem CallAwaits.step_failed (h : CallAwaits t site s₀ k (o :: rest) s) (ok : t.Ok) (ho : o.possible = true)
    (hf : o.fails t.cmd t.len = true) (hk : k < 6) :
    ∃ u, Machine.step s = .next u ∧ CallAwaits t site s₀ (k + 1) rest u := by
  obtain ⟨hop, hb, -, -⟩ := h.awaiting
  have hn : (s.withOutcomes rest).ctx.auxAttempt < Config.auxMaxAttempts := h.attempt.trans_lt hk
  have r := retried_issued t site o (s.withOutcomes rest)
  obtain ⟨hhost, hchan⟩ := r.inputs
  refine ⟨_, h.step.trans (answer_retries hop hb ok ho hf hn), h.reset, .of_inFlight r.inFlight, ?_,
    congrArg Channel.outcomes hchan, hhost.trans h.host, h.frame.trans r.frame⟩
  rw [← h.attempt]
  exact congrArg Context.auxAttempt r.ctx

theorem CallAwaits.step_exhausted (h : CallAwaits t site s₀ 6 (o :: rest) s) (m : MakesTxn i t site result)
    (ho : o.possible = true) (hf : o.fails t.cmd t.len = true) :
    ∃ u, Machine.step s = .next u ∧ CallEnded s₀ 6 rest (result (.err .noResponse)) u := by
  obtain ⟨hop, hb, -, -⟩ := h.awaiting
  refine ⟨_, (h.step.trans (answer_exhausts (s := s.withOutcomes rest) hop hb ho hf h.attempt.ge)).trans (m.returns _ _),
    rfl, s.complete_busy o, h.attempt, rfl, ?_, h.frame⟩
  rw [← h.host]
  rfl

theorem CallAwaits.step_acked {data : List Byte} (h : CallAwaits t site s₀ k (.reply 0 data :: rest) s)
    (m : MakesTxn i t site result) (h16 : data.length ≤ 16) (hl : t.cmd.isRead = true → t.len ≤ data.length) :
    ∃ u, Machine.step s = .next u ∧ CallEnded s₀ k rest (result (.ok (txnResult t data))) u := by
  have sp := accepted_spec t (.reply 0 data) (s.withOutcomes rest)
  have ha := replyAck_delivers (s := s.withOutcomes rest) h.awaiting h16 hl
  refine ⟨_, (h.step.trans ha).trans (m.returns _ _), rfl, ?_, ?_, congrArg Channel.outcomes sp.chan, ?_,
    h.frame.trans ⟨sp.port, sp.sb, sp.phy, sp.par, ?_⟩⟩
  · exact congrArg (·.ctl.busy) sp.aux
  · exact (congrArg Context.auxAttempt sp.ctx).trans h.attempt
  · rw [State.endOp_host, sp.host, ← h.host]; rfl
  · rw [State.endOp_ctx, sp.ctx]; rfl

/-- Failures through the sixth attempt end the operation with `NoResponse`, as its call returns it. -/
theorem CallAwaits.run_exhausted (m : MakesTxn i t site result) {failures : List AuxOutcome}
    (h : CallAwaits t site s₀ k (failures ++ rest) s)
    (hfail : ∀ o ∈ failures, o.possible = true ∧ o.fails t.cmd t.len = true) (hk : k ≤ 6)
    (hlen : k + failures.length = 7) :
    ∃ u, run failures.length s = .next u ∧ CallEnded s₀ 6 rest (result (.err .noResponse)) u := by
  induction failures generalizing k s with
  | nil => rw [List.length_nil] at hlen; omega
  | cons o failures ih =>
    rw [List.length_cons] at hlen ⊢
    obtain ⟨⟨ho, hf⟩, hfail⟩ := List.forall_mem_cons.mp hfail
    rcases Nat.lt_or_eq_of_le hk with hlt | rfl
    · obtain ⟨v, hv, h'⟩ := h.step_failed m.ok ho hf hlt
      obtain ⟨u, hu, e⟩ := ih h' hfail hlt (by omega)
      exact ⟨u, (run_succ hv).trans hu, e⟩
    · obtain rfl : failures = [] := List.eq_nil_of_length_eq_zero (by omega)
      obtain ⟨u, hu, e⟩ := h.step_exhausted m ho hf
      exact ⟨u, run_succ hu, e⟩

/-- Six failed attempts from Idle. -/
theorem MakesTxn.fails_six_times (m : MakesTxn i t site result) (hop : s.op = .idle) (hr : s.host.reset = false)
    (hb : s.aux.ctl.busy = false) {failures : List AuxOutcome} (hout : s.chan.outcomes = failures ++ rest)
    (hfail : ∀ o ∈ failures, o.possible = true ∧ o.fails t.cmd t.len = true) (h6 : failures.length = 6) :
    ∃ u v, exec i s = .next u ∧ run 6 u = .next v ∧ CallEnded s 6 rest (result (.err .noResponse)) v := by
  obtain ⟨u, hu, -, -, aw⟩ := m.exec_issues hop hr hb
  rw [hout] at aw
  obtain ⟨v, hv, e⟩ := aw.run_exhausted m hfail (by decide) (by omega)
  exact ⟨u, v, hu, h6 ▸ hv, e⟩

end

/-- Settles O24: each operation is a transaction of its command, and the call gives `NoResponse` its own form. -/
theorem dpcdFailurePropagatesOrReadsZero : Obligations.DpcdFailurePropagatesOrReadsZero := by
  intro s addr n value failures rest hop hr hb ha h1 h4 hv h6 hout ir hir hfail
  obtain ⟨t, site, result, m, hcmd, hlen, hres⟩ : ∃ t site result, MakesTxn ir.1 t site result ∧ t.cmd = ir.2.1
      ∧ t.len = n ∧ result (.err .noResponse) = ir.2.2 := by
    simp only [List.mem_cons, List.not_mem_nil, or_false] at hir
    rcases hir with rfl | rfl | rfl
    · exact ⟨_, _, _, dpcdRead_makesTxn ha h1 h4, rfl, rfl, rfl⟩
    · exact ⟨_, _, _, dpcdReadProbe_makesTxn ha h1 h4, rfl, rfl, rfl⟩
    · exact ⟨_, _, _, dpcdWrite_makesTxn ha h1 h4 hv, rfl, rfl, rfl⟩
  rw [← hcmd, ← hlen] at hfail
  obtain ⟨u, v, hu, hrun, e⟩ := m.fails_six_times hop hr hb hout hfail h6
  exact ⟨u, v, hu, hrun, e.op, by rw [e.host, hres], e.attempt, e.outcomes, e.frame⟩

/-! ## The value of a read (R192) -/

theorem leNat_lt (bytes : List Byte) : leNat bytes < 2 ^ (8 * bytes.length) := by
  induction bytes with
  | nil => decide
  | cons b bytes ih =>
    have hb : b.toNat < 256 := b.isLt
    rw [leNat, List.length_cons, Nat.mul_succ, Nat.pow_add]
    omega

theorem leValue_toNat_lt (bytes : List Byte) : (leValue bytes).toNat < 2 ^ (8 * bytes.length) :=
  (Nat.mod_le _ _).trans_lt (leNat_lt bytes)

theorem leValue_byte (bytes : List Byte) {k : Nat} (hk : k < 4) : (leValue bytes).extractLsb' (8 * k) 8 = bytes.getD k 0 := by
  ext i hi
  rw [BitVec.getElem_extractLsb', leValue_getLsbD bytes hk hi, BitVec.getLsbD_eq_getElem hi]

theorem getD_take_of_lt {l : List Byte} {k n : Nat} (h : k < n) : (l.take n).getD k 0 = l.getD k 0 := by
  rw [List.getD_eq_getElem?_getD, List.getElem?_take_of_lt h, ← List.getD_eq_getElem?_getD]

/-- Settles O23: the ACK's first `n` bytes are the value, byte by byte. -/
theorem dpcdReadAssemblesReply : Obligations.DpcdReadAssemblesReply := by
  intro s addr n bytes rest hop hr hb ha h1 h4 hn h16 hout ip hip
  obtain ⟨result, m, hres⟩ : ∃ result, MakesTxn ip.1 (readTxn (BitVec.ofNat 20 addr) n) ip.2 result
      ∧ ∀ b, result (.ok b) = .value (.ok (leValue b)) := by
    simp only [List.mem_cons, List.not_mem_nil, or_false] at hip
    rcases hip with rfl | rfl
    · exact ⟨_, dpcdRead_makesTxn ha h1 h4, fun _ => rfl⟩
    · exact ⟨_, dpcdReadProbe_makesTxn ha h1 h4, fun _ => rfl⟩
  obtain ⟨t, ht, hfl, hin, aw⟩ := m.exec_issues hop hr hb
  rw [hout] at aw
  obtain ⟨u, hu, e⟩ := aw.step_acked m h16 fun _ => hn
  have hlen : (bytes.take n).length = n := List.length_take_of_le hn
  refine ⟨t, u, leValue (bytes.take n), ht, hfl, aw.frame, hin, run_succ hu, e.op, ?_, ?_, fun k hk => ?_, e.frame, e.attempt⟩
  · rw [e.host, hres]; rfl
  · exact (leValue_toNat_lt _).trans_eq (by rw [hlen])
  · rw [leValue_byte _ (by omega), getD_take_of_lt hk]

/-! ## The bytes of a write (R195) -/

theorem leBytes_getD {n k : Nat} (v : Word) (hk : k < n) : (leBytes n v).getD k 0 = v.extractLsb' (8 * k) 8 := by
  simp [leBytes, List.getD_eq_getElem?_getD, hk]

/-- Settles O25: the payload is the value's low bytes, and the ACK ends the operation. -/
theorem dpcdWriteSendsLowBytes : Obligations.DpcdWriteSendsLowBytes := by
  intro s addr n value data rest hop hr hb ha h1 h4 hv h16 hout
  have m := dpcdWrite_makesTxn ha h1 h4 hv
  obtain ⟨t, ht, hfl, hin, aw⟩ := m.exec_issues hop hr hb
  rw [hout] at aw
  obtain ⟨u, hu, e⟩ := aw.step_acked m h16 nofun
  refine ⟨t, u, _, ht, hfl, leBytes_length n _, fun k hk => ?_, aw.frame, hin, run_succ hu, e.op, e.host, e.frame⟩
  rw [leBytes_getD _ hk, BitVec.extractLsb'_toNat, BitVec.toNat_ofNat, Nat.mod_eq_of_lt hv, Nat.shiftRight_eq_div_pow]

/-! ## The store sink (R198) -/

/-- The sink gives back what it has just stored. -/
theorem sinkByte_sinkStore (m : SinkMem) (bytes : List Byte) (a : Nat) {k : Nat} (hk : k < bytes.length) :
    sinkByte (sinkStore m a bytes) (a + k) = bytes.getD k 0 := by
  induction bytes generalizing a k with
  | nil => exact absurd hk (Nat.not_lt_zero k)
  | cons b bytes ih =>
    cases k with
    | zero => exact if_pos rfl
    | succ k =>
      rw [sinkStore, sinkByte, if_neg (by omega), show a + (k + 1) = a + 1 + k by omega, ih _ (Nat.lt_of_succ_lt_succ hk),
        List.getD_cons_succ]

theorem sinkBytes_sinkStore (m : SinkMem) (bytes : List Byte) (a : Nat) :
    ((List.range bytes.length).map fun k => sinkByte (sinkStore m a bytes) (a + k)) = bytes := by
  refine List.ext_getElem (by simp) fun k _ hk => ?_
  rw [List.getElem_map, List.getElem_range, sinkByte_sinkStore m bytes a hk, List.getD_eq_getElem]

/-- Reading back the low bytes of a value gives its low bits. -/
theorem leValue_leBytes (n value : Nat) :
    leValue (leBytes n (BitVec.ofNat 32 value)) = BitVec.ofNat 32 (value % 2 ^ (8 * n)) := by
  ext j hj
  obtain ⟨k, i, hi, rfl⟩ : ∃ k i, i < 8 ∧ j = 8 * k + i := ⟨j / 8, j % 8, by omega, by omega⟩
  rw [← BitVec.getLsbD_eq_getElem, ← BitVec.getLsbD_eq_getElem, leValue_getLsbD _ (by omega) hi,
    BitVec.getLsbD_ofNat, Nat.testBit_mod_two_pow, decide_eq_true hj, Bool.true_and]
  rcases Nat.lt_or_ge k n with hk | hk
  · rw [leBytes_getD _ hk, BitVec.getLsbD_extractLsb', decide_eq_true hi, decide_eq_true (by omega), BitVec.getLsbD_ofNat,
      decide_eq_true hj, Bool.true_and]
  · rw [List.getD_eq_default _ _ (by rwa [leBytes_length]), decide_eq_false (by omega)]
    simp

/-- The sink ACKs a write and stores its bytes. -/
theorem storeSink_write (m : SinkMem) (a : Addr) (n : Nat) (p : List Byte) :
    storeSinkAnswer m ⟨Txn.word ⟨.nativeWrite, a, n, p⟩, p⟩ = .reply 0 []
      ∧ storeSinkAfter m ⟨Txn.word ⟨.nativeWrite, a, n, p⟩, p⟩ = sinkStore m a.toNat p := by
  simp [storeSinkAnswer, storeSinkAfter, Txn.word]

/-- The sink ACKs a read with the `n` bytes it holds from the address on. -/
theorem storeSinkAnswer_read (m : SinkMem) (a : Addr) {n : Nat} (ok : (readTxn a n).Ok) :
    storeSinkAnswer m ⟨(readTxn a n).word, []⟩ = .reply 0 ((List.range n).map fun k => sinkByte m (a.toNat + k)) := by
  have hcmd : Word.cmd (readTxn a n).word = AuxCmd.nativeRead.nibble := cmd_commandWord ..
  have haddr : Word.addr (readTxn a n).word = a := addr_commandWord ..
  have hlen : (Word.lm1 (readTxn a n).word).toNat + 1 = n := lm1_word_of_ok ok
  rw [storeSinkAnswer, hcmd, haddr, hlen, if_neg (by decide), if_pos rfl]

/-- With the sink behind the AUX channel, the sink's ACK ends the operation as a listed one does. -/
theorem CallAwaits.runWithSink_acked {i : Instr} {t : Txn} {site : AuxSite} {result : Result (List Byte) AuxError → OpResult}
    {k : Nat} {s₀ s : State} {mem : SinkMem} {data : List Byte} {outcomes : List AuxOutcome}
    (h : CallAwaits t site s₀ k outcomes s) (hfl : InFlight t site s) (m : MakesTxn i t site result)
    (hans : storeSinkAnswer mem ⟨t.word, t.payload⟩ = .reply 0 data) (h16 : data.length ≤ 16)
    (hl : t.cmd.isRead = true → t.len ≤ data.length) :
    ∃ u, runWithSink 1 mem s = (storeSinkAfter mem ⟨t.word, t.payload⟩, .next u)
      ∧ CallEnded s₀ k outcomes (result (.ok (txnResult t data))) u := by
  have h' : CallAwaits t site s₀ k (.reply 0 data :: s.chan.outcomes) (s.withOutcomes (.reply 0 data :: s.chan.outcomes)) :=
    ⟨h.reset, h.awaiting, h.attempt, rfl, h.host, h.frame⟩
  obtain ⟨u, hu, e⟩ := h'.step_acked m h16 hl
  obtain ⟨-, -, -, -, -, hcmd, hreq⟩ := hfl
  have hreq : s.aux.inFlight = some ⟨t.word, t.payload⟩ := hreq.trans (by rw [hcmd, Txn.word])
  have hstep : stepWithSink mem s = (storeSinkAfter mem ⟨t.word, t.payload⟩, .next u) := by
    rw [stepWithSink, hreq, ← hu, State.withOutcomes, ← hans]
  exact ⟨u, by simp only [runWithSink, hstep], h.outcomes ▸ e⟩

section
variable {addr n : Nat} {s : State} (mem : SinkMem) (hop : s.op = .idle) (hr : s.host.reset = false)
  (hb : s.aux.ctl.busy = false) (ha : addr < 2 ^ 20) (h1 : 1 ≤ n) (h4 : n ≤ 4)
include hop hr hb ha h1 h4

/-- DPCD_WRITE leaves the value's bytes in the sink. -/
theorem dpcdWrite_stores {value : Nat} (hv : value < 2 ^ 32) :
    ∃ t u, exec (.dpcdWrite addr n value) s = .next t
      ∧ runWithSink 1 mem t
        = (sinkStore mem (BitVec.ofNat 20 addr).toNat (leBytes n (BitVec.ofNat 32 value)), .next u)
      ∧ CallEnded s 1 s.chan.outcomes (.written (.ok ())) u := by
  have m := dpcdWrite_makesTxn ha h1 h4 hv
  obtain ⟨hack, hstored⟩ := storeSink_write mem (BitVec.ofNat 20 addr) n (leBytes n (BitVec.ofNat 32 value))
  obtain ⟨t, ht, hfl, -, aw⟩ := m.exec_issues hop hr hb
  obtain ⟨u, hu, e⟩ := aw.runWithSink_acked hfl m hack (by decide) nofun
  exact ⟨t, u, ht, hstored ▸ hu, e⟩

/-- DPCD_READ returns the `n` bytes the sink holds from the address on. -/
theorem dpcdRead_returns_sinkBytes :
    ∃ t u mem', exec (.dpcdRead addr n) s = .next t ∧ runWithSink 1 mem t = (mem', .next u)
      ∧ CallEnded s 1 s.chan.outcomes
        (.value (.ok (leValue ((List.range n).map fun k => sinkByte mem ((BitVec.ofNat 20 addr).toNat + k))))) u := by
  have m := dpcdRead_makesTxn ha h1 h4
  have hans := storeSinkAnswer_read mem (BitVec.ofNat 20 addr) m.ok
  generalize hbytes : ((List.range n).map fun k => sinkByte mem ((BitVec.ofNat 20 addr).toNat + k)) = bytes at hans ⊢
  have hlen : bytes.length = n := by simp [← hbytes]
  obtain ⟨t, ht, hfl, -, aw⟩ := m.exec_issues hop hr hb
  obtain ⟨u, hu, e⟩ := aw.runWithSink_acked hfl m hans (by omega) fun _ => hlen.ge
  have htxn : txnResult (readTxn (BitVec.ofNat 20 addr) n) bytes = bytes := List.take_of_length_le hlen.le
  rw [htxn] at e
  exact ⟨t, u, _, ht, hu, e⟩

end

/-- Settles O27: the write leaves its bytes in the sink, the read gets them, and they make the value's low bits. -/
theorem storeSinkRoundTrip : Obligations.StoreSinkRoundTrip := by
  intro s mem addr n value hop hr hb ha h1 h4 hv
  obtain ⟨t, u, ht, hu, ue⟩ := dpcdWrite_stores mem hop hr hb ha h1 h4 hv
  have hback := sinkBytes_sinkStore mem (leBytes n (BitVec.ofNat 32 value)) (BitVec.ofNat 20 addr).toNat
  rw [leBytes_length] at hback
  obtain ⟨v, w, mem', hv', hw, we⟩ := dpcdRead_returns_sinkBytes
    (sinkStore mem (BitVec.ofNat 20 addr).toNat (leBytes n (BitVec.ofNat 32 value)))
    ue.op (by rw [ue.host, hr]) ue.busy ha h1 h4
  rw [hback, leValue_leBytes] at we
  exact ⟨t, u, v, w, _, mem', ht, hu, congrArg HostPort.result ue.host, hv', hw, congrArg HostPort.result we.host, we.op⟩

end Sys2Proof.Machine

/-! PROOF. The statements about the Electrical Parameter Controller (43_electrical.md), and the lemmas they need. -/

namespace Sys2Proof.Machine

/-! ## The start of EPC_APPLY (R210, R211) -/

theorem levelBits_toNat {n : Nat} (h : n ≤ 3) : (BitVec.ofNat 2 n).toNat = n :=
  (BitVec.toNat_ofNat ..).trans (Nat.mod_eq_of_lt (Nat.lt_succ_of_le h))

/-- From Idle the operation is `Apply` at the level of its operands. -/
theorem exec_epcApply (l : Level) (m : LaneCount) {s : State} (hop : s.op = .idle) :
    exec (.epcApply l.swing.toNat l.pre.toNat m.toNat) s
      = applyLevel l m .host (s.log (.opStart (.epcApply l.swing.toNat l.pre.toNat m.toNat))) := by
  have hw : (Instr.epcApply l.swing.toNat l.pre.toNat m.toNat).wellFormed = true := by
    simp [Instr.wellFormed, l.swing.isLt, l.pre.isLt]
  rw [exec, execEpcApply, hostOp_idle _ hw hop]
  simp only [LaneCount.ofNat_toNat, BitVec.ofNat_toNat, BitVec.setWidth_eq]

theorem legal_iff (l : Level) : l.legal = true ↔ l.swing.toNat + l.pre.toNat ≤ 3 := decide_eq_true_iff

theorem applyLevel_legal {l : Level} (h : l.legal = true) (m : LaneCount) (site : ApplySite) (s : State) :
    applyLevel l m site s = .next (s.at (.sideband (tuningOf s.par l) l m site)) :=
  if_pos h

theorem applyLevel_host_illegal {l : Level} (h : l.legal ≠ true) (m : LaneCount) (s : State) :
    applyLevel l m .host s = .next (s.endOp (.applied (.err .invalidCombination))) :=
  if_neg h

/-- Settles O28: the legality check ends EPC_APPLY before anything but its start. -/
theorem illegalLevelChangesNothing : Obligations.IllegalLevelChangesNothing := by
  intro s swing pre m hop hs hp hsum
  obtain ⟨l, rfl, rfl⟩ : ∃ l : Level, l.swing.toNat = swing ∧ l.pre.toNat = pre :=
    ⟨⟨BitVec.ofNat 2 swing, BitVec.ofNat 2 pre⟩, levelBits_toNat hs, levelBits_toNat hp⟩
  have hill : l.legal ≠ true := fun h => Nat.not_le.mpr hsum ((legal_iff l).mp h)
  exact (exec_epcApply l m hop).trans (applyLevel_host_illegal hill m _)

/-! ## The TRAINING_LANE_SET write fails (R218) -/

/-- Settles O30: the sixth failure is delivered to the host, and the delivery leaves the context alone. -/
theorem epcWriteErrorKeepsLevel : Obligations.EpcWriteErrorKeepsLevel := by
  rintro s t o ⟨hop, hb, -, -⟩ hn ho hf
  exact ⟨_, answerGives (answer_exhausts hop hb ho hf hn.ge), rfl, rfl, rfl, rfl, rfl, rfl⟩

/-! ## The level requested by the sink (R219 to R221) -/

theorem le_maxOver (m : Nat) (f : Nat → Nat) : ∀ l < m, f l ≤ maxOver m f := by
  induction m with
  | zero => exact fun l hl => absurd hl (Nat.not_lt_zero l)
  | succ m ih =>
    intro l hl
    rcases Nat.lt_succ_iff_lt_or_eq.mp hl with hlt | rfl
    · exact (ih l hlt).trans (Nat.le_max_left ..)
    · exact Nat.le_max_right ..

theorem maxOver_attained {m : Nat} (f : Nat → Nat) (hm : 0 < m) : ∃ l < m, f l = maxOver m f := by
  induction m with
  | zero => exact absurd hm (Nat.lt_irrefl 0)
  | succ m ih =>
    rcases Nat.le_total (maxOver m f) (f m) with h | h
    · exact ⟨m, Nat.lt_succ_self m, (Nat.max_eq_right h).symm⟩
    · rcases Nat.eq_zero_or_pos m with rfl | hpos
      · exact ⟨0, Nat.one_pos, (Nat.zero_max _).symm⟩
      · obtain ⟨l, hl, e⟩ := ih hpos
        exact ⟨l, Nat.lt_succ_of_lt hl, e.trans (Nat.max_eq_left h).symm⟩

/-- The maximum of 2-bit values over the active lanes is a 2-bit value. -/
theorem ofNat_maxOver_toNat (m : LaneCount) (f : Nat → BitVec 2) :
    (BitVec.ofNat 2 (maxOver m.toNat fun l => (f l).toNat)).toNat = maxOver m.toNat fun l => (f l).toNat := by
  obtain ⟨l, -, e⟩ := maxOver_attained (fun l => (f l).toNat) m.toNat_bounds.1
  rw [← e, BitVec.toNat_ofNat, Nat.mod_eq_of_lt (f l).isLt]

theorem requestedLevel_swing (v : Word) (m : LaneCount) :
    (requestedLevel v m).swing.toNat = maxOver m.toNat fun l => (requestOf v l).swing.toNat :=
  ofNat_maxOver_toNat m fun l => (requestOf v l).swing

theorem clamp_pre (l : Level) : (clamp l).pre.toNat = min l.pre.toNat (3 - l.swing.toNat) :=
  levelBits_toNat ((Nat.min_le_left ..).trans (Nat.le_of_lt_succ l.pre.isLt))

theorem requestedLevel_pre (v : Word) (m : LaneCount) :
    (requestedLevel v m).pre.toNat
      = min (maxOver m.toNat fun l => (requestOf v l).pre.toNat) (3 - (requestedLevel v m).swing.toNat) := by
  rw [requestedLevel, clamp_pre, ← ofNat_maxOver_toNat m fun l => (requestOf v l).pre]
  rfl

/-- A lane's request is two 2-bit fields of its nibble (R219). -/
theorem requestOf_swing (v : Word) (l : Nat) :
    (requestOf v l).swing.toNat = v.toNat / 2 ^ (8 * (l / 2) + 4 * (l % 2)) % 4 := by
  rw [requestOf, BitVec.extractLsb'_toNat, Nat.shiftRight_eq_div_pow, laneNibbleAt]

theorem requestOf_pre (v : Word) (l : Nat) :
    (requestOf v l).pre.toNat = v.toNat / 2 ^ (8 * (l / 2) + 4 * (l % 2) + 2) % 4 := by
  rw [requestOf, BitVec.extractLsb'_toNat, Nat.shiftRight_eq_div_pow, laneNibbleAt]

/-- Settles O32: the swing is the active lanes' maximum, and the clamp cuts their maximum pre-emphasis alone. -/
theorem requestedLevelIsLegalMaximum : Obligations.RequestedLevelIsLegalMaximum := by
  intro v m swing pre hswing hpre
  obtain rfl : swing = fun l => (requestOf v l).swing.toNat := funext fun l => (hswing l).trans (requestOf_swing v l).symm
  obtain rfl : pre = fun l => (requestOf v l).pre.toNat := funext fun l => (hpre l).trans (requestOf_pre v l).symm
  have hm := m.toNat_bounds.1
  refine ⟨requestedLevel_legal v m, ?_, ?_, maxOver m.toNat fun l => (requestOf v l).pre.toNat,
    le_maxOver _ _, maxOver_attained _ hm, requestedLevel_pre v m⟩ <;> rw [requestedLevel_swing]
  · exact le_maxOver _ _
  · exact maxOver_attained _ hm

/-! ## One sideband write (R42, R50, R213) -/

/-- `s` after the three register writes of a sideband write. -/
def State.sbWritten (w : SbWrite) (s : State) : State :=
  { s with
    sb := ⟨w.addr % 2 ^ s.par.sbAddrWidth, w.data % 2 ^ s.par.sbDataWidth, s.par.sbWriteOpcode, true⟩
    events := .sbOpcodeWrite s.par.sbWriteOpcode :: .sbDataWrite (w.data % 2 ^ s.par.sbDataWidth)
      :: .sbAddrWrite (w.addr % 2 ^ s.par.sbAddrWidth) :: s.events }

theorem sidebandWrite_eq (w : SbWrite) {s : State} (hb : s.sb.busy = false) : sidebandWrite w s = .next (s.sbWritten w) := by
  simp [sidebandWrite, hb, State.sbWritten]

section
variable {s : State} {w : SbWrite} {todo : List SbWrite} {l : Level} {m : LaneCount} {site : ApplySite}

/-- At the head of the loop the engine makes the next write and awaits it. -/
theorem step_sideband (hr : s.host.reset = false) (hop : s.op = .busy (.sideband (w :: todo) l m site))
    (hb : s.sb.busy = false) : step s = .next ((s.at (.awaitSb todo l m site)).sbWritten w) :=
  (step_of_busy hr hop).trans (sidebandWrite_eq w (s := s.at _) hb)

/-- The PHY completes the write, and the engine is back at the head of the loop. -/
theorem step_awaitSb (hr : s.host.reset = false) (hop : s.op = .busy (.awaitSb todo l m site)) (hb : s.sb.busy = true) :
    step s = .next (s.phyComplete.at (.sideband todo l m site)) := by
  rw [step_of_busy hr hop, busyStep, sidebandAwait, if_pos hb]

end

/-! ## The writes of a level's tuning (R101, R210, R213) -/

/-- The PHY's registers after these writes, in list order. -/
def phyAfter (par : Params) (ws : List SbWrite) (phy : Memory) : Memory :=
  ws.foldl (fun p e => Memory.write par.sbDataWidth (e.addr % 2 ^ par.sbAddrWidth) (e.data % 2 ^ par.sbDataWidth) p) phy

/-- The engine has made these writes and stands at the head of its loop with none left; nothing but the sideband, the PHY,
`op_state` and the event record differs. -/
structure TuningDone (ws : List SbWrite) (l : Level) (m : LaneCount) (site : ApplySite) (s u : State) : Prop where
  op : u.op = .busy (.sideband [] l m site)
  sb : u.sb.busy = false
  phy : u.phy = phyAfter s.par ws s.phy
  aux : u.aux = s.aux
  port : u.port = s.port
  ctx : u.ctx = s.ctx
  inputs : SameInputs s u

/-- Two steps a write, whatever the run goes on with. -/
theorem run_tuning {ws : List SbWrite} {l : Level} {m : LaneCount} {site : ApplySite} {s : State}
    (hr : s.host.reset = false) (hop : s.op = .busy (.sideband ws l m site)) (hb : s.sb.busy = false) :
    ∃ u, TuningDone ws l m site s u ∧ ∀ n, run (2 * ws.length + n) s = run n u := by
  induction ws generalizing s with
  | nil => exact ⟨s, ⟨hop, hb, rfl, rfl, rfl, rfl, rfl, rfl⟩, fun n => by rw [List.length_nil, Nat.mul_zero, Nat.zero_add]⟩
  | cons w ws ih =>
    have hwrite := step_sideband hr hop hb
    have hdone := step_awaitSb (s := (s.at (.awaitSb ws l m site)).sbWritten w) hr rfl rfl
    obtain ⟨u, d, hrun⟩ := ih
      (s := ((s.at (.awaitSb ws l m site)).sbWritten w).phyComplete.at (.sideband ws l m site)) hr rfl rfl
    refine ⟨u, ⟨d.op, d.sb, d.phy, d.aux, d.port, d.ctx, d.inputs⟩, fun n => ?_⟩
    rw [List.length_cons, show 2 * (ws.length + 1) + n = 2 * ws.length + n + 1 + 1 by omega, run_succ hwrite,
      run_succ hdone, hrun]

/-! ## The TRAINING_LANE_SET write is issued (R140, R214 to R217) -/

theorem laneSetByte_toNat (l : Level) :
    (laneSetByte l (maxSwing l) (maxPre l)).toNat
      = l.swing.toNat + (if 3 ≤ l.swing.toNat then 4 else 0) + 8 * l.pre.toNat + (if 3 ≤ l.pre.toNat then 32 else 0) := by
  obtain ⟨swing, pre⟩ := l
  revert swing pre
  decide

/-- A write of the value of at most four bytes sends those bytes. -/
theorem leBytes_leValue {bytes : List Byte} (h : bytes.length ≤ 4) : leBytes bytes.length (leValue bytes) = bytes := by
  refine List.ext_getElem (leBytes_length ..) fun k hk hk' => ?_
  rw [← List.getD_eq_getElem _ 0 hk, leBytes_getD _ hk', leValue_byte _ (by omega), List.getD_eq_getElem]

/-- The transaction of an `Apply`'s TRAINING_LANE_SET write. -/
def laneSetTxn (l : Level) (m : LaneCount) : Txn :=
  ⟨.nativeWrite, 0x103, m.toNat, List.replicate m.toNat (laneSetByte l (maxSwing l) (maxPre l))⟩

/-- The write carries the level's byte for each active lane. -/
theorem laneSetTxn_of_byte {l : Level} {b : Byte} (m : LaneCount)
    (hb : b.toNat = l.swing.toNat + (if 3 ≤ l.swing.toNat then 4 else 0)
      + 8 * l.pre.toNat + (if 3 ≤ l.pre.toNat then 32 else 0)) :
    laneSetTxn l m = ⟨.nativeWrite, 0x103, m.toNat, List.replicate m.toNat b⟩ := by
  rw [laneSetTxn, BitVec.eq_of_toNat_eq (hb.trans (laneSetByte_toNat l).symm)]

/-- The lanes and the max flags are the level's, and the TRAINING_LANE_SET write's first attempt is in flight. -/
structure LaneSetIssued (l : Level) (m : LaneCount) (site : ApplySite) (s u : State) : Prop where
  inFlight : InFlight (laneSetTxn l m) (.laneSet site) u
  lanes : ∀ k : Fin 4, u.ctx.lane[k] = if k.val < m.toNat then l else s.ctx.lane[k]
  ctx : u.ctx = { s.ctx with
    lc := { s.ctx.lc with
      maxVswingReached := decide (3 ≤ l.swing.toNat)
      maxPreemphasisReached := decide (3 ≤ l.pre.toNat) }
    lane := u.ctx.lane
    auxAttempt := 1 }
  phy : u.phy = s.phy
  sb : u.sb = s.sb
  port : u.port = s.port
  inputs : SameInputs s u
  events : ∃ issue, u.events = issue ++ s.events ∧ cmdWrites issue = 1

theorem laneSetWrite_issued (l : Level) (m : LaneCount) (site : ApplySite) {s : State} (hb : s.aux.ctl.busy = false) :
    ∃ u, laneSetWrite l m site s = .next u ∧ LaneSetIssued l m site s u := by
  obtain ⟨h1, h4⟩ := m.toNat_bounds
  obtain ⟨u, hu, b⟩ := memWrite_begun (a := 0x103) (s := (s.setMaxFlags l).setLaneLevels l m)
    (v := replicateByte (laneSetByte l (maxSwing l) (maxPre l)) m.toNat) (.laneSet site) h1 (h4.trans (by decide)) hb
  have hbytes : leBytes m.toNat (replicateByte (laneSetByte l (maxSwing l) (maxPre l)) m.toNat)
      = List.replicate m.toNat (laneSetByte l (maxSwing l) (maxPre l)) := by
    have h := leBytes_leValue (bytes := List.replicate m.toNat (laneSetByte l (maxSwing l) (maxPre l)))
      (by rwa [List.length_replicate])
    rwa [List.length_replicate] at h
  have hfl := b.inFlight
  rw [hbytes] at hfl
  obtain ⟨new, hev, hnew, -, -⟩ := b.events
  refine ⟨u, hu, hfl, fun k => ?_, ?_, b.phy, b.sb, b.port, ⟨b.host, b.chan⟩, .auxCmdWrite _ :: new, hev, ?_⟩
  · rw [b.ctx]
    exact setLanes_get l s.ctx.lane m k
  · rw [b.ctx]
    rfl
  · rw [cmdWrites, hnew]

/-- With no sideband write left the next step issues the write. -/
theorem step_sideband_nil {s : State} {l : Level} {m : LaneCount} {site : ApplySite} (hr : s.host.reset = false)
    (hop : s.op = .busy (.sideband [] l m site)) (hb : s.aux.ctl.busy = false) :
    ∃ u, step s = .next u ∧ LaneSetIssued l m site s u := by
  rw [step_of_busy hr hop]
  exact laneSetWrite_issued l m site hb

/-- Settles O31: the loop's two steps for a write, and the step that issues the TRAINING_LANE_SET write. -/
theorem sidebandWriteReachesPhy : Obligations.SidebandWriteReachesPhy := by
  refine ⟨fun s w todo l m site hr hop hb => ?_, fun s l m site b hr hop hb hbyte => ?_⟩
  · exact ⟨_, _, step_sideband hr hop hb, rfl, rfl, rfl, rfl, step_awaitSb hr rfl rfl, rfl, Memory.read_write_same ..,
      fun a ha => Memory.read_write_other _ _ _ ha, rfl, rfl, rfl, rfl⟩
  · obtain ⟨t, ht, i⟩ := step_sideband_nil hr hop hb
    obtain ⟨issue, hev, hwrites⟩ := i.events
    exact ⟨t, issue, ht, laneSetTxn_of_byte m hbyte ▸ i.inFlight, i.lanes, i.ctx, i.phy, i.sb, i.port, i.inputs, hev, hwrites⟩

/-! ## EPC_APPLY completes (R210) -/

/-- The ACK of the host's TRAINING_LANE_SET write ends EPC_APPLY with `Ok(())`. -/
theorem step_laneSet_acked {s : State} {l : Level} {m : LaneCount} {data : List Byte} {rest : List AuxOutcome}
    (hr : s.host.reset = false) (hfl : InFlight (laneSetTxn l m) (.laneSet .host) s) (h16 : data.length ≤ 16)
    (hout : s.chan.outcomes = .reply 0 data :: rest) :
    ∃ v, step s = .next v ∧ v.op = .idle ∧ v.host = { s.host with result := some (.applied (.ok ())) } ∧ v.ctx = s.ctx
      ∧ v.phy = s.phy ∧ v.port = s.port := by
  have aw := Awaiting.of_inFlight hfl
  obtain ⟨hop, hb, -⟩ := hfl
  have sp := accepted_spec (laneSetTxn l m) (.reply 0 data) (s.withOutcomes rest)
  have ha := replyAck_delivers (s := s.withOutcomes rest) aw h16 nofun
  refine ⟨_, (step_of_listed hr hop hb hout).trans ha, rfl, ?_, sp.ctx, sp.phy, sp.port⟩
  exact congrArg (fun host : HostPort => { host with result := some (.applied (.ok ())) }) sp.host

/-- Settles O29: the tuning's writes, then the TRAINING_LANE_SET write, then its ACK. -/
theorem epcApplyCompletes : Obligations.EpcApplyCompletes := by
  intro s swing pre m data rest hop hr haux hsb hsum h16 hout l b w hl hw hbyte
  obtain rfl : l.swing.toNat = swing := by rw [hl]; exact levelBits_toNat (by omega)
  obtain rfl : l.pre.toNat = pre := by rw [hl]; exact levelBits_toNat (by omega)
  subst hw
  have hexec := (exec_epcApply l m hop).trans (applyLevel_legal ((legal_iff l).mpr hsum) m .host _)
  obtain ⟨t, d, hrun⟩ := run_tuning (ws := tuningOf s.par l) (l := l) (m := m) (site := .host)
    (s := (s.log (.opStart (.epcApply l.swing.toNat l.pre.toNat m.toNat))).at (.sideband (tuningOf s.par l) l m .host)) hr rfl hsb
  obtain ⟨dhost, dchan⟩ := d.inputs
  obtain ⟨u, hu, i⟩ := step_sideband_nil ((congrArg HostPort.reset dhost).trans hr) d.op
    ((congrArg (·.ctl.busy) d.aux).trans haux)
  obtain ⟨ihost, ichan⟩ := i.inputs
  have hhost : u.host = s.host := ihost.trans dhost
  have hchan : u.chan = s.chan := ichan.trans dchan
  have hport : u.port = s.port := i.port.trans d.port
  have hctx : t.ctx = s.ctx := d.ctx
  obtain ⟨v, hv, vop, vhost, vctx, vphy, vport⟩ :=
    step_laneSet_acked (by rw [hhost, hr]) i.inFlight h16 (by rw [hchan, hout])
  refine ⟨_, u, v, hexec, (hrun 1).trans (run_succ hu), laneSetTxn_of_byte m hbyte ▸ i.inFlight, ?_, i.phy.trans d.phy,
    hctx ▸ i.lanes, hctx ▸ i.ctx, hport, ⟨hhost, hchan⟩, run_succ hv, vop, by rw [vhost, hhost], vctx, vphy, vport.trans hport⟩
  rw [i.sb, d.sb]

end Sys2Proof.Machine

/-! PROOF. The statements about link training (44_link_training.md), and the lemmas they need. -/

namespace Sys2Proof.Machine

/-! ## What an awaited transaction's end leaves alone (R44, R167 to R169) -/

/-- A write's result is delivered in the state in which `AUX_CTL` has been read. -/
theorem accepted_of_write {t : Txn} (ht : t.cmd.isRead = false) (o : AuxOutcome) (s : State) :
    s.accepted t o = s.answered o := by
  simp [State.accepted, State.answered, ht]

/-- The ACK of a write goes to the call that began it. -/
theorem ackedWrite_delivers {s : State} {t : Txn} {site : AuxSite} {data : List Byte} (aw : Awaiting t site s)
    (ht : t.cmd.isRead = false) (h16 : data.length ≤ 16) :
    exec (.replyAck data) s = deliver site (.ok []) (s.answered (.reply 0 data)) := by
  rw [replyAck_delivers aw h16 (fun h => absurd (ht.symm.trans h) Bool.false_ne_true), accepted_of_write ht, txnResult, ht]
  rfl

/-- The sixth failure goes to the call that began the transaction. -/
theorem exhausted_delivers {s : State} {t : Txn} {site : AuxSite} {o : AuxOutcome} (aw : Awaiting t site s)
    (h6 : s.ctx.auxAttempt = 6) (ho : o.possible = true) (hf : o.fails t.cmd t.len = true) :
    answer o s = deliver site (.err .noResponse) (s.answered o) := by
  obtain ⟨hop, hb, -, -⟩ := aw
  exact answer_exhausts hop hb ho hf h6.ge

/-- An outcome and the register reads after it write no port register. -/
theorem portWrites_accepted (t : Txn) (o : AuxOutcome) (s : State) :
    (s.accepted t o).events.filter Event.isPortWrite = s.events.filter Event.isPortWrite := by
  have hreads (l : List Nat) : (l.map Event.auxDataRead).filter Event.isPortWrite = [] := by
    simp [List.filter_map, Event.isPortWrite, Function.comp_def]
  unfold State.accepted
  split
  · rw [State.logReplyReads_events, List.filter_append, ← List.map_reverse, hreads]; rfl
  · rfl

/-- Beginning a transaction writes no port register. -/
theorem Begun.portWrites {t : Txn} {site : AuxSite} {s u : State} (b : Begun t site s u) :
    ∃ later, u.events = later ++ s.events ∧ later.filter Event.isPortWrite = [] := by
  obtain ⟨new, hev, -, hport, -⟩ := b.events
  exact ⟨.auxCmdWrite t.word :: new, hev, hport⟩

/-! ## Setup (R241 to R249) -/

/-- From Idle LINK_TRAIN is the start of setup with the context initialised (R241, R243). -/
theorem exec_linkTrain (m : LaneCount) (rate : LinkRate) (ef : Bool) {s : State} (hop : s.op = .idle) :
    exec (.linkTrain m.toNat rate ef) s
      = setupBegin ((s.log (.opStart (.linkTrain m.toNat rate ef))).initContext m rate ef) := by
  have hw : (Instr.linkTrain m.toNat rate ef).wellFormed = true := by simp [Instr.wellFormed]
  rw [exec, execLinkTrain, hostOp_idle _ hw hop]
  simp only [LaneCount.ofNat_toNat]

/-- The state in which LINK_TRAIN begins its probe. -/
def State.trainingBegun (m : LaneCount) (rate : LinkRate) (ef : Bool) (s : State) : State :=
  let s := (s.log (.opStart (.linkTrain m.toNat rate ef))).initContext m rate ef
  { s with ctx := { s.ctx with ltsmState := .clockRecovery } }

theorem linkTrain_begun (m : LaneCount) (rate : LinkRate) (ef : Bool) {s : State} (hop : s.op = .idle)
    (hb : s.aux.ctl.busy = false) :
    ∃ t, exec (.linkTrain m.toNat rate ef) s = .next t
      ∧ Begun (readTxn 0x00E 1) .rdInterval (s.trainingBegun m rate ef) t := by
  obtain ⟨t, ht, b⟩ := memRead_begun (a := 0x00E) (s := s.trainingBegun m rate ef) .rdInterval (le_refl 1) (by decide) hb
  exact ⟨t, (exec_linkTrain m rate ef hop).trans ht, b⟩

/-- Settles O33: LINK_TRAIN from Idle is the probe's read, begun with the context initialised. -/
theorem linkTrainBeginsWithProbe : Obligations.LinkTrainBeginsWithProbe := by
  intro s m rate ef hop hb
  obtain ⟨t, ht, b⟩ := linkTrain_begun m rate ef hop hb
  have hcmd : t.aux.cmd = 0x90000E00 := by
    obtain ⟨-, -, -, -, -, hcmd, -⟩ := b.inFlight
    exact hcmd
  refine ⟨t, ht, b.inFlight, hcmd, ?_⟩
  rw [b.ctx]
  refine ⟨rfl, rfl, fun l => ?_, rfl, rfl, rfl, rfl, rfl, rfl, rfl, b.port, b.sb, b.phy, b.par, b.host, b.chan⟩
  exact Vector.getElem_replicate l.isLt

/-- The value of a one-byte read is its byte. -/
theorem leValue_one (v : Byte) : (leValue [v]).setWidth 8 = v := by
  simp [leValue, leNat]

/-- The probe's result goes on to the port's setup: the byte of an ACK, and 0 after a sixth failure (R243). -/
theorem probe_delivers {s : State} {o : AuxOutcome} {v : Byte} (aw : Awaiting (readTxn 0x00E 1) .rdInterval s)
    (ho : o.possible = true)
    (h : (∃ data, o = .reply 0 data ∧ data.head? = some v) ∨ (o.fails .nativeRead 1 = true ∧ s.ctx.auxAttempt = 6 ∧ v = 0)) :
    ∃ r d, answer o s = setupInterval r d ∧ (probeValue r).setWidth 8 = v ∧ AcceptedSpec o s d
      ∧ d.events.filter Event.isPortWrite = s.events.filter Event.isPortWrite := by
  rcases h with ⟨data, rfl, hv⟩ | ⟨hf, h6, rfl⟩
  · obtain ⟨rest, rfl⟩ := List.head?_eq_some_iff.mp hv
    exact ⟨_, _, replyAck_delivers aw (of_decide_eq_true ho) (fun _ => Nat.le_add_left 1 _), leValue_one v,
      accepted_spec .., portWrites_accepted ..⟩
  · exact ⟨_, _, exhausted_delivers aw h6 ho hf, rfl, ⟨rfl, rfl, rfl, rfl, rfl, rfl, rfl, rfl, rfl⟩, rfl⟩

/-- `s` with the interval code the probe has read. -/
def State.probed (v : Byte) (s : State) : State := { s with ctx := { s.ctx with rdInterval := v } }

theorem setupInterval_of_ne_four {r : Result (List Byte) AuxError} {v : Byte} {s : State}
    (hv : (probeValue r).setWidth 8 = v) (hm : s.ctx.lc.laneCount ≠ .four) : setupInterval r s = setupPort (s.probed v) := by
  subst hv
  unfold setupInterval
  dsimp only
  split
  case h_1 h => exact absurd h hm
  case h_2 => rfl

/-- With four lanes the idle pattern's settle delay comes first (R244). -/
theorem setupInterval_of_four {r : Result (List Byte) AuxError} {v : Byte} {s : State}
    (hv : (probeValue r).setWidth 8 = v) (hm : s.ctx.lc.laneCount = .four) :
    setupInterval r s
      = .next (((s.probed v).portWrite { tpSel := some .idle }).startWait s.par.settle4LaneUs .idlePulse) := by
  subst hv
  simp only [setupInterval, hm]
  rfl

/-- `s` after the port's three writes (R245). -/
def State.portReconfigured (s : State) : State :=
  ((s.portWrite { enable := some false }).portWrite
      { laneCount := some s.ctx.lc.laneCount, enhancedFraming := some s.ctx.lc.enhancedFraming,
        linkRate := some s.ctx.lc.linkRate }).portWrite
    { tpSel := some .none, enable := some true }

/-- The record of those writes, newest first. -/
def portReconfigurations (lc : LinkConfig) : List Event :=
  [.portWrite { tpSel := some .none, enable := some true },
    .portWrite
      { laneCount := some lc.laneCount, enhancedFraming := some lc.enhancedFraming, linkRate := some lc.linkRate },
    .portWrite { enable := some false }]

theorem laneCountSetByte_toNat (m : LaneCount) (ef : Bool) :
    (laneCountSetByte m ef).toNat = m.toNat + (if ef then 128 else 0) := by
  cases m <;> cases ef <;> rfl

/-- The port is reconfigured, and LANE_COUNT_SET begins with its byte. -/
theorem setupPort_begun {s : State} {b : Byte} (hb : s.aux.ctl.busy = false)
    (hbyte : b.toNat = s.ctx.lc.laneCount.toNat + (if s.ctx.lc.enhancedFraming then 128 else 0)) :
    ∃ u, setupPort s = .next u ∧ Begun (byteWriteTxn 0x101 b) .laneCountSet s.portReconfigured u := by
  obtain rfl : b = laneCountSetByte s.ctx.lc.laneCount s.ctx.lc.enhancedFraming :=
    BitVec.eq_of_toNat_eq (hbyte.trans (laneCountSetByte_toNat ..).symm)
  exact byteWrite_begun (s := s.portReconfigured) _ .laneCountSet hb

/-- Settles O34: with the probe's byte known, the port's reconfiguration follows at once. -/
theorem setupReconfiguresPort : Obligations.SetupReconfiguresPort := by
  intro s o v b aw ho hm hprobe hbyte
  obtain ⟨r, d, ha, hv, sp, hport⟩ := probe_delivers aw ho hprobe
  rw [← sp.ctx] at hm hbyte ⊢
  obtain ⟨u, hu, bg⟩ := setupPort_begun (s := d.probed v) (congrArg (·.ctl.busy) sp.aux |>.trans (s.complete_busy o)) hbyte
  obtain ⟨later, hev, hlater⟩ := bg.portWrites
  refine ⟨u, answerGives (ha.trans ((setupInterval_of_ne_four hv hm).trans hu)), bg.ctx, ?_, bg.inFlight, ?_,
    bg.sb.trans sp.sb, bg.phy.trans sp.phy, bg.host.trans sp.host, bg.chan.trans sp.chan⟩
  · rw [bg.port, ← sp.port]; rfl
  · rw [hev, List.filter_append, hlater, ← hport]; rfl

/-- Settles O35: the idle pulse's delay begins after the probe, and the timer's step at its end reconfigures the port. -/
theorem fourLaneIdlePulse : Obligations.FourLaneIdlePulse := by
  refine ⟨fun s o v aw ho hm hprobe => ?_, fun s us b hr hb hop hbyte => ?_⟩
  · obtain ⟨r, d, ha, hv, sp, hport⟩ := probe_delivers aw ho hprobe
    rw [← sp.ctx] at hm ⊢
    rw [← sp.par, ← sp.port, ← sp.sb, ← sp.phy]
    exact ⟨_, answerGives (ha.trans (setupInterval_of_four hv hm)), rfl, rfl, rfl, rfl, rfl, d.events, rfl, hport⟩
  · obtain ⟨u, hu, bg⟩ := setupPort_begun (s := s.log .waitEnd) hb hbyte
    obtain ⟨later, hev, hlater⟩ := bg.portWrites
    refine ⟨u, later ++ portReconfigurations s.ctx.lc, (step_of_busy hr hop).trans hu, bg.port, ?_, ?_, bg.inFlight, bg.sb,
      bg.phy, bg.ctx⟩
    · rw [hev, List.append_assoc]; rfl
    · rw [List.filter_append, hlater]; rfl

/-- `IntervalUs` of Clock Recovery (R259). -/
theorem intervalUs_clockRecovery (v : Byte) :
    intervalUs .clockRecovery v = if v = 0 then 100 else if v.toNat ≤ 4 then 4000 * v.toNat else 16000 := by
  have hz : v.toNat = 0 ↔ v = 0 := BitVec.toNat_eq (x := v) (y := 0) |>.symm
  simp only [intervalUs, hz, Config.crFloorUs]

theorem crWait_op (s : State) :
    (crWait s).op = .busy (.waiting
      (if s.ctx.rdInterval = 0 then 100
        else if s.ctx.rdInterval.toNat ≤ 4 then 4000 * s.ctx.rdInterval.toNat else 16000) .crPoll) := by
  rw [crWait, State.startWait_op, intervalUs_clockRecovery]

/-- After TRAINING_PATTERN_SET the level (0, 0) is applied (R248). -/
theorem pattern1_applies (bytes : List Byte) (s : State) :
    deliver .pattern1 (.ok bytes) s
      = .next (s.at (.sideband (tuningOf s.par ⟨0, 0⟩) ⟨0, 0⟩ s.ctx.lc.laneCount .setup)) := by
  rw [deliver, setupLevel, applyLevel_legal (by decide)]

/-- Settles O36: each ACK is delivered to its call, which begins the next part. -/
theorem setupProgramsSinkInOrder : Obligations.SetupProgramsSinkInOrder := by
  intro s t data ht h16
  have hb : (s.answered (.reply 0 data)).aux.ctl.busy = false := s.complete_busy _
  refine ⟨fun aw => ?_, fun aw => ?_, fun aw => ?_, fun aw => ?_⟩ <;> rw [ackedWrite_delivers aw ht h16]
  · obtain ⟨u, hu, b⟩ := byteWrite_begun (a := 0x100) (bwCode s.ctx.lc.linkRate) .linkBwSet hb
    refine ⟨u, hu, ?_, b.port, b.sb, b.phy, b.ctx⟩
    convert b.inFlight using 2
    cases s.ctx.lc.linkRate <;> rfl
  · obtain ⟨u, hu, b⟩ := byteWrite_begun (a := 0x102)
      (s := (s.answered (.reply 0 data)).portWrite { tpSel := some .pat1, inTraining := some true }) patternSet1 .pattern1 hb
    exact ⟨u, hu, b.inFlight, b.port, b.sb, b.phy, b.ctx⟩
  · exact ⟨_, pattern1_applies .., rfl, rfl, rfl, rfl, rfl⟩
  · exact ⟨_, rfl, crWait_op _, rfl, rfl, rfl, rfl⟩

/-! ## Exit actions (R258, R266 to R271, R288) -/

theorem exitTraining_begun (err : Option TrainingError) (s : State) : ExitBegun err s (exitTraining err s) :=
  ⟨rfl, rfl, rfl, rfl, s.events, rfl⟩

/-- Settles O37: `NoResponse` is delivered to the call, and each call of a training answers it with the exit actions. -/
theorem auxErrorEndsTraining : Obligations.AuxErrorEndsTraining := by
  intro s t site o aw h6 ho hf
  have hd := exhausted_delivers aw h6 ho hf
  have hexit (err : Option TrainingError) : ExitBegun err s (exitTraining err (s.answered o)) := exitTraining_begun err _
  refine ⟨fun new hsite => ?_, fun new hsite => ?_⟩ <;>
    simp only [List.mem_cons, List.not_mem_nil, or_false] at hsite
  · refine ⟨_, answerGives (hd.trans ?_), hexit _, rfl⟩
    rcases hsite with rfl | rfl | rfl | rfl | rfl | rfl | rfl <;> rfl
  · refine ⟨_, answerGives (hd.trans ?_), hexit _, rfl⟩
    rcases hsite with rfl | rfl | rfl | rfl | rfl <;> rfl

/-- The settle delay's end clears `IN_TRAINING` and begins the sink's write (R268). -/
theorem step_exitWait {s : State} {us : Nat} {err : Option TrainingError} (hr : s.host.reset = false)
    (hb : s.aux.ctl.busy = false) (hop : s.op = .busy (.waiting us (.exit err))) :
    ∃ u, step s = .next u ∧ Begun (byteWriteTxn 0x102 0x00) (.exitPattern err)
      ((s.log .waitEnd).portWrite { inTraining := some false }) u := by
  rw [step_of_busy hr hop]
  exact byteWrite_begun (s := (s.log .waitEnd).portWrite { inTraining := some false }) patternSetNone (.exitPattern err) hb

/-- Settles O45: the exit's first write and its delay, then the step at the delay's end. -/
theorem exitIsTwoWritesWithDelayBetween : Obligations.ExitIsTwoWritesWithDelayBetween := by
  intro s err hr hb
  obtain ⟨u, hu, b⟩ := step_exitWait (s := exitTraining err s) hr hb rfl
  obtain ⟨later, hev, hlater⟩ := b.portWrites
  exact ⟨u, later, exitTraining_begun err s, hu, b.port, hev, hlater⟩

/-- Settles O46: the step at the delay's end. -/
theorem exitStepTwoFollowsSettleDelay : Obligations.ExitStepTwoFollowsSettleDelay := by
  intro s us err hr hb hop
  obtain ⟨u, hu, b⟩ := step_exitWait hr hb hop
  obtain ⟨later, hev, -⟩ := b.portWrites
  obtain ⟨-, -, -, -, -, hcmd, -⟩ := b.inFlight
  exact ⟨u, hu, b.inFlight, hcmd, b.port, b.ctx, b.sb, b.phy, later, hev⟩

/-- The context at the end of the exit actions (R265, R270). -/
theorem exitDone_ctx (err : Option TrainingError) (r : Result (List Byte) AuxError) (s : State) :
    (exitDone err r s).ctx = { s.ctx with
      ltsmState := (if exitError err r = none then .done else .failed)
      lastResult := some (exitError err r, s.ctx.lc) } := by
  simp [exitDone]

theorem exitError_ok (err : Option TrainingError) (bytes : List Byte) : exitError err (.ok bytes) = err := by
  cases err <;> rfl

/-- An error of the exit write counts on a `Done` exit alone (R269, R310). -/
theorem exitError_err (err : Option TrainingError) (e : AuxError) :
    exitError err (.err e) = if err = none then some (.equalizationFailed (.aux e)) else err := by
  cases err <;> rfl

/-- Settles O47: the exit write's result is delivered to the exit actions, which return. -/
theorem exitReturnsResult : Obligations.ExitReturnsResult := by
  intro s t o err final aw ht ho h
  obtain ⟨r, ha, rfl⟩ : ∃ r, answer o s = .next (exitDone err r (s.answered o)) ∧ exitError err r = final := by
    rcases h with ⟨⟨data, rfl⟩, rfl⟩ | ⟨hf, h6, rfl⟩
    · exact ⟨_, ackedWrite_delivers aw ht (of_decide_eq_true ho), exitError_ok ..⟩
    · exact ⟨_, exhausted_delivers aw h6 ho hf, exitError_err ..⟩
  exact ⟨_, answerGives ha, rfl, exitDone_ctx .., rfl, rfl, rfl, rfl⟩

/-! ## Clock Recovery (R250 to R258) -/

theorem allLanes_iff {m : Nat} {f : Nat → Bool} : allLanes m f = true ↔ ∀ l < m, f l = true := by
  refine ⟨allLanes_eq_true, fun h => ?_⟩
  induction m with
  | zero => rfl
  | succ m ih => exact Bool.and_eq_true_iff.mpr ⟨ih fun l hl => h l (by omega), h m (by omega)⟩

/-- `clock_recovery_done` of a lane is bit 0 of its nibble, two lanes a byte (R144). -/
theorem crDone_leValue (b0 b1 : Byte) {l : Nat} (hl : l < 4) :
    crDone (leValue [b0, b1]) l = if l < 2 then b0.getLsbD (4 * l) else b1.getLsbD (4 * (l - 2)) := by
  rw [crDone, laneNibbleAt, leValue_getLsbD _ (by omega) (by omega)]
  interval_cases l <;> rfl

theorem allCrDone_iff (b0 b1 : Byte) (m : LaneCount) :
    allCrDone (leValue [b0, b1]) m = true
      ↔ ∀ l < m.toNat, (if l < 2 then b0.getLsbD (4 * l) else b1.getLsbD (4 * (l - 2))) = true := by
  have hm := m.toNat_bounds
  rw [allCrDone, allLanes_iff]
  refine forall₂_congr fun l hl => ?_
  rw [crDone_leValue b0 b1 (by omega)]

/-- A two-byte read's ACK delivers its first two bytes. -/
theorem ackedPair_delivers {s : State} {a : Addr} {site : AuxSite} {b0 b1 : Byte} {extra : List Byte}
    (aw : Awaiting (readTxn a 2) site s) (h14 : extra.length ≤ 14) :
    exec (.replyAck (b0 :: b1 :: extra)) s
      = deliver site (.ok [b0, b1]) (s.accepted (readTxn a 2) (.reply 0 (b0 :: b1 :: extra))) :=
  replyAck_delivers aw (Nat.add_le_add_right h14 2) (fun _ => Nat.le_add_left 2 _)

/-- The state in which Equalization begins its pattern 2 write (R281). -/
def State.equalizing (s : State) : State :=
  { s with ctx := { s.ctx with ltsmState := .equalization } }.portWrite { tpSel := some .pat2 }

/-- With the bit of every active lane the gate opens (R252, R281). -/
theorem crStatus_done {bytes : List Byte} {s : State} (hb : s.aux.ctl.busy = false)
    (h : allCrDone (leValue bytes) s.ctx.lc.laneCount = true) :
    ∃ u, deliver .crStatus (.ok bytes) s = .next u ∧ Begun (byteWriteTxn 0x102 0x22) .pattern2 s.equalizing u := by
  rw [deliver, crCheck, if_pos h]
  exact byteWrite_begun (s := s.equalizing) patternSet2 .pattern2 hb

/-- Without it the adjust registers are read (R253). -/
theorem crStatus_notDone {bytes : List Byte} {s : State} (hb : s.aux.ctl.busy = false)
    (h : allCrDone (leValue bytes) s.ctx.lc.laneCount = false) :
    ∃ u, deliver .crStatus (.ok bytes) s = .next u ∧ Begun (readTxn 0x206 2) .crAdjust s u := by
  rw [deliver, crCheck, if_neg (by rw [h]; exact Bool.false_ne_true)]
  exact memRead_begun .crAdjust (by decide) (by decide) hb

/-- Settles O39: the status is delivered to the gate, which tests the bit of each active lane. -/
theorem clockRecoveryGate : Obligations.ClockRecoveryGate := by
  intro s b0 b1 extra aw h14 done hdone
  rw [← allCrDone_iff, ← Bool.eq_iff_iff] at hdone
  rw [ackedPair_delivers aw h14]
  have hb : (s.accepted (readTxn 0x202 2) (.reply 0 (b0 :: b1 :: extra))).aux.ctl.busy = false := s.complete_busy _
  refine ⟨fun h => ?_, fun h => ?_⟩ <;> rw [h] at hdone
  · obtain ⟨u, hu, b⟩ := crStatus_done hb hdone.symm
    exact ⟨u, hu, b.inFlight, b.ctx, b.port, b.sb, b.phy⟩
  · obtain ⟨u, hu, b⟩ := crStatus_notDone hb hdone.symm
    exact ⟨u, hu, b.inFlight, b.ctx, b.port, b.sb, b.phy⟩

/-- After the adjust read the clamped coalesced level, which is legal, is applied (R254, R255). -/
theorem crAdjust_applies {bytes : List Byte} {new : Level} {s : State}
    (h : new = requestedLevel (leValue bytes) s.ctx.lc.laneCount) :
    deliver .crAdjust (.ok bytes) s
      = .next (s.at (.sideband (tuningOf s.par new) new s.ctx.lc.laneCount (.crAdjust new))) := by
  subst h
  exact applyLevel_legal (requestedLevel_legal ..) _ (.crAdjust _) s

/-- Equalization applies it in the same way (R287). -/
theorem eqAdjust_applies {bytes : List Byte} {new : Level} {s : State}
    (h : new = requestedLevel (leValue bytes) s.ctx.lc.laneCount) :
    deliver .eqAdjust (.ok bytes) s
      = .next (s.at (.sideband (tuningOf s.par new) new s.ctx.lc.laneCount (.eqAdjust new))) := by
  subst h
  exact applyLevel_legal (requestedLevel_legal ..) _ (.eqAdjust _) s

/-- Settles O40: the read is delivered to an `Apply` in either phase. -/
theorem adjustReadAppliesRequestedLevel : Obligations.AdjustReadAppliesRequestedLevel := by
  intro s b0 b1 extra new h14 hnew ss hss aw
  have hnew : new = requestedLevel (leValue [b0, b1]) s.ctx.lc.laneCount := hnew
  rw [ackedPair_delivers aw h14]
  simp only [List.mem_cons, List.not_mem_nil, or_false] at hss
  rcases hss with rfl | rfl
  · exact ⟨_, crAdjust_applies hnew, rfl, rfl, rfl, rfl, rfl⟩
  · exact ⟨_, eqAdjust_applies hnew, rfl, rfl, rfl, rfl, rfl⟩

/-- The loop's overall cap is reached when there is one and as many polls have been made (R257). -/
theorem overallCapReached_iff {cap : Option Nat} {polls : Nat} :
    overallCapReached cap polls = true ↔ ∃ n, cap = some n ∧ n ≤ polls := by
  cases cap <;> simp [overallCapReached]

/-- `s` with a re-applied level and the same-level counter it leaves (R255, R256). -/
def State.reapplied (new : Level) (s : State) : State :=
  { s with ctx := { s.ctx with applied := new, crRepeat := nextRepeat new s.ctx.applied s.ctx.crRepeat } }

/-- The same-level cap ends the loop first (R256, R309). -/
theorem crAdjusted_sameLevelCap {new : Level} {s : State} (bytes : List Byte)
    (h5 : nextRepeat new s.ctx.applied s.ctx.crRepeat = 5) :
    deliver (.laneSet (.crAdjust new)) (.ok bytes) s
      = .next (exitTraining (some (.clockRecoveryFailed .sameLevelCap)) (s.reapplied new)) :=
  congrArg Host.Outcome.next (if_pos h5)

/-- Then the overall cap does (R257). -/
theorem crAdjusted_overallCap {new : Level} {s : State} (bytes : List Byte)
    (h5 : nextRepeat new s.ctx.applied s.ctx.crRepeat ≠ 5)
    (hcap : overallCapReached s.par.crOverallCap s.ctx.crPolls = true) :
    deliver (.laneSet (.crAdjust new)) (.ok bytes) s
      = .next (exitTraining (some (.clockRecoveryFailed .overallCap)) (s.reapplied new)) :=
  congrArg Host.Outcome.next ((if_neg h5).trans (if_pos hcap))

/-- Else the next poll's `Wait` begins (R250). -/
theorem crAdjusted_waits {new : Level} {s : State} (bytes : List Byte)
    (h5 : nextRepeat new s.ctx.applied s.ctx.crRepeat ≠ 5)
    (hcap : ¬overallCapReached s.par.crOverallCap s.ctx.crPolls = true) :
    deliver (.laneSet (.crAdjust new)) (.ok bytes) s = .next (crWait (s.reapplied new)) :=
  congrArg Host.Outcome.next ((if_neg h5).trans (if_neg hcap))

/-- Settles O41: the ACK is delivered to the end of the re-apply, whose tests come in this order. -/
theorem sameLevelCounterAndCaps : Obligations.SameLevelCounterAndCaps := by
  intro s t new data count aw ht h16 hcount
  obtain rfl : count = nextRepeat new s.ctx.applied s.ctx.crRepeat := hcount
  simp only [ackedWrite_delivers aw ht h16, ← overallCapReached_iff]
  by_cases h5 : nextRepeat new s.ctx.applied s.ctx.crRepeat = 5
  · simp only [if_pos h5]
    exact ⟨_, crAdjusted_sameLevelCap [] h5, rfl, exitTraining_begun _ _⟩
  by_cases hcap : overallCapReached s.par.crOverallCap s.ctx.crPolls = true
  · simp only [if_neg h5, if_pos hcap]
    exact ⟨_, crAdjusted_overallCap [] h5 hcap, rfl, exitTraining_begun _ _⟩
  · simp only [if_neg h5, if_neg hcap]
    exact ⟨_, crAdjusted_waits [] h5 hcap, rfl, crWait_op _, rfl, rfl, rfl⟩

/-! ## What the host's operations leave alone (R180, R210, R271) -/

theorem attempt_sameButAux {t : Txn} {site : AuxSite} {s u : State} (h : attempt t site s = .next u) : SameButAux s u := by
  obtain ⟨hk, hport, hsb, hctx, -⟩ := keeps_attempt h
  exact ⟨hport, hsb, hk.phy, hk.par, by rw [hctx]⟩

theorem beginTxn_sameButAux {t : Txn} {site : AuxSite} {s u : State} (h : beginTxn t site s = .next u) : SameButAux s u := by
  obtain ⟨hk, hport, hsb, hctx, -⟩ := keeps_begin h
  exact ⟨hport, hsb, hk.phy, hk.par, by rw [hctx]⟩

theorem endOp_sameButAux (r : OpResult) (s : State) : SameButAux s (s.endOp r) := ⟨rfl, rfl, rfl, rfl, rfl⟩

theorem auxTransaction_sameButAux {cmd : AuxCmd} {addr : Addr} {len : Nat} {payload : List Byte} {s u : State}
    (h : auxTransaction cmd addr len payload s = .next u) : SameButAux s u := by
  unfold auxTransaction at h
  split at h
  · obtain rfl := Host.Outcome.next.inj h; exact endOp_sameButAux _ s
  · exact beginTxn_sameButAux h

theorem applyLevel_sameButAux {l : Level} {lanes : LaneCount} {site : ApplySite} {s u : State}
    (h : applyLevel l lanes site s = .next u) : SameButAux s u := by
  unfold applyLevel at h
  split at h
  · obtain rfl := Host.Outcome.next.inj h; exact ⟨rfl, rfl, rfl, rfl, rfl⟩
  · split at h
    · obtain rfl := Host.Outcome.next.inj h; exact endOp_sameButAux _ s
    · nomatch h

/-- The calls of the host's operations other than LINK_TRAIN. -/
def AuxSite.isHost (site : AuxSite) : Prop := site ∈ [.auxExecute, .dpcdRead, .dpcdReadProbe, .dpcdWrite, .laneSet .host]

/-- The result of such a call ends the operation. -/
theorem deliver_isHost {site : AuxSite} (hsite : site.isHost) (r : Result (List Byte) AuxError) (s : State) :
    ∃ res, deliver site r s = .next (s.endOp res) := by
  simp only [AuxSite.isHost, List.mem_cons, List.not_mem_nil, or_false] at hsite
  rcases hsite with rfl | rfl | rfl | rfl | rfl <;> exact ⟨_, rfl⟩

theorem deliver_sameButAux {site : AuxSite} (hsite : site.isHost) {r : Result (List Byte) AuxError} {s u : State}
    (h : deliver site r s = .next u) : SameButAux s u := by
  obtain ⟨res, hres⟩ := deliver_isHost hsite r s
  obtain rfl := Host.Outcome.next.inj (hres.symm.trans h)
  exact endOp_sameButAux res s

theorem verdict_sameButAux {t : Txn} {site : AuxSite} (hsite : site.isHost) {s u : State}
    (h : verdict t site s = .next u) : SameButAux s u := by
  have hlog (e : Event) : SameButAux s (s.log e) := ⟨rfl, rfl, rfl, rfl, rfl⟩
  have hreads (e : Event) (n : Nat) : SameButAux s ((s.log e).logReplyReads n) := ⟨rfl, rfl, rfl, rfl, rfl⟩
  simp only [verdict] at h
  split at h
  · split at h
    · split at h
      · nomatch h
      · exact (hreads _ _).trans (deliver_sameButAux hsite h)
    · exact (hlog _).trans (deliver_sameButAux hsite h)
  · split at h
    · exact (hlog _).trans (attempt_sameButAux h)
    · exact (hlog _).trans (deliver_sameButAux hsite h)

/-- The AUX channel's answer to such a call, or to none. -/
theorem answer_sameButAux {o : AuxOutcome} {s u : State}
    (hsite : ∀ t site, s.op = .busy (.awaitAux t site) → site.isHost) (h : answer o s = .next u) : SameButAux s u := by
  have hcomplete : SameButAux s (s.complete o) := ⟨rfl, rfl, rfl, rfl, rfl⟩
  unfold answer resume at h
  rw [State.complete_op] at h
  split at h
  · nomatch h
  · split at h
    · split at h
      case h_1 t site hop => exact hcomplete.trans (verdict_sameButAux (hsite t site hop) h)
      case h_2 => obtain rfl := Host.Outcome.next.inj h; exact hcomplete
    · nomatch h

/-- Starting a host operation other than LINK_TRAIN touches nothing outside R180's registers. -/
theorem exec_sameButAux {i : Instr} {s u : State} (hi : i.format ≠ .auxReply) (hl : ∀ m rate ef, i ≠ .linkTrain m rate ef)
    (h : exec i s = .next u) : SameButAux s u := by
  have hlog (e : Event) : SameButAux s (s.log e) := ⟨rfl, rfl, rfl, rfl, rfl⟩
  cases i with
  | replyAck | replyNack | replyDefer => exact absurd rfl hi
  | linkTrain m rate ef => exact absurd rfl (hl m rate ef)
  | nativeWrite | nativeRead | i2cWrite | i2cRead | i2cWriteMot | i2cReadMot =>
    simp only [exec, execNativeWrite, execNativeRead, execI2cWrite, execI2cRead, execI2cWriteMot, execI2cReadMot] at h
    obtain ⟨-, -, hb⟩ := hostOp_next h
    exact (hlog _).trans (auxTransaction_sameButAux hb)
  | auxExecute =>
    simp only [exec, execAuxExecute] at h
    obtain ⟨-, -, hb⟩ := hostOp_next h
    split at hb
    · nomatch hb
    · exact (hlog _).trans (auxTransaction_sameButAux hb)
  | dpcdRead | dpcdReadProbe | dpcdWrite =>
    simp only [exec, execDpcdRead, execDpcdReadProbe, execDpcdWrite] at h
    obtain ⟨-, -, hb⟩ := hostOp_next h
    split at hb
    · obtain rfl := Host.Outcome.next.inj hb; exact (hlog _).trans (endOp_sameButAux _ _)
    · exact (hlog _).trans (beginTxn_sameButAux hb)
  | epcApply =>
    simp only [exec, execEpcApply] at h
    obtain ⟨-, -, hb⟩ := hostOp_next h
    split at hb
    · nomatch hb
    · exact (hlog _).trans (applyLevel_sameButAux hb)

/-- Settles O59: a host operation's start and the answers to its transaction touch R180's registers alone. -/
theorem onlyTrainingTouchesTrainingState : Obligations.OnlyTrainingTouchesTrainingState := by
  intro i s t h hl hsite
  obtain ⟨hport, hsb, hphy, -, hctx⟩ : SameButAux s t := by
    by_cases hi : i.format = .auxReply
    · cases i with
      | replyAck | replyNack | replyDefer => exact answer_sameButAux (hsite hi) h
      | _ => exact Format.noConfusion hi
    · exact exec_sameButAux hi hl h
  exact ⟨hport, hctx, hsb, hphy⟩

/-! ## The LTSM's transitions (R242, R265) -/

theorem SameButAux.ltsmState {s u : State} (h : SameButAux s u) : u.ctx.ltsmState = s.ctx.ltsmState := by
  obtain ⟨-, -, -, -, hctx⟩ := h
  rw [hctx]

theorem applyDone_ltsmState (site : ApplySite) (r : Result (List Byte) AuxError) (s : State) :
    (applyDone site r s).ctx.ltsmState = s.ctx.ltsmState := by
  cases site with
  | crAdjust new =>
    cases r with
    | err e => rfl
    | ok bytes =>
      simp only [applyDone, crAdjusted]
      split
      · rfl
      · split <;> rfl
  | _ => cases r <;> rfl

/-- A transaction's result changes the LTSM state at the gate to Equalization and at the end of the exit actions alone. -/
theorem deliver_ltsmState {site : AuxSite} {r : Result (List Byte) AuxError} {s u : State} (h : deliver site r s = .next u) :
    u.ctx.ltsmState = s.ctx.ltsmState
      ∨ (site = .crStatus ∧ u.ctx.ltsmState = .equalization)
      ∨ ∃ err, site = .exitPattern err ∧ u = exitDone err r s := by
  cases site with
  | auxExecute | dpcdRead | dpcdReadProbe | dpcdWrite => obtain rfl := Host.Outcome.next.inj h; exact .inl rfl
  | laneSet site => obtain rfl := Host.Outcome.next.inj h; exact .inl (applyDone_ltsmState site r s)
  | exitPattern err => exact .inr (.inr ⟨err, rfl, (Host.Outcome.next.inj h).symm⟩)
  | rdInterval =>
    refine .inl ?_
    simp only [deliver, setupInterval] at h
    split at h
    · obtain rfl := Host.Outcome.next.inj h; rfl
    · exact (beginTxn_sameButAux h).ltsmState
  | crStatus =>
    cases r with
    | err e => obtain rfl := Host.Outcome.next.inj h; exact .inl rfl
    | ok bytes =>
      simp only [deliver, crCheck] at h
      split at h
      · exact .inr (.inl ⟨rfl, (beginTxn_sameButAux h).ltsmState⟩)
      · exact .inl (beginTxn_sameButAux h).ltsmState
  | laneCountSet | linkBwSet =>
    cases r with
    | err e => obtain rfl := Host.Outcome.next.inj h; exact .inl rfl
    | ok bytes =>
      simp only [deliver, setupBandwidth, setupPattern] at h
      exact .inl (beginTxn_sameButAux h).ltsmState
  | pattern1 | crAdjust | pattern2 | eqAdjust =>
    cases r with
    | err e => obtain rfl := Host.Outcome.next.inj h; exact .inl rfl
    | ok bytes =>
      simp only [deliver, setupLevel, crAdjust, eqReapply, eqAdjust] at h
      exact .inl (applyLevel_sameButAux h).ltsmState
  | eqStatus =>
    cases r with
    | err e => obtain rfl := Host.Outcome.next.inj h; exact .inl rfl
    | ok bytes =>
      refine .inl ?_
      simp only [deliver, eqCheck] at h
      split_ifs at h
      · obtain rfl := Host.Outcome.next.inj h; rfl
      · obtain rfl := Host.Outcome.next.inj h; rfl
      · obtain rfl := Host.Outcome.next.inj h; rfl
      · exact (beginTxn_sameButAux h).ltsmState

/-- The terminal state an exit reaches from the phase it ends (R265, R269). -/
theorem exitDone_transition {err : Option TrainingError} {s : State} (h : s.ctx.ltsmState = exitFrom err)
    (r : Result (List Byte) AuxError) :
    (s.ctx.ltsmState = .clockRecovery ∧ (exitDone err r s).ctx.ltsmState = .failed)
      ∨ (s.ctx.ltsmState = .equalization
        ∧ ((exitDone err r s).ctx.ltsmState = .done ∨ (exitDone err r s).ctx.ltsmState = .failed)) := by
  cases err with
  | none =>
    cases r with
    | ok bytes => exact .inr ⟨h, .inl rfl⟩
    | err e => exact .inr ⟨h, .inr rfl⟩
  | some e =>
    cases e with
    | clockRecoveryFailed cause => exact .inl ⟨h, rfl⟩
    | equalizationFailed cause => exact .inr ⟨h, .inr rfl⟩

/-- The step of a running operation between two awaits of the AUX channel keeps the LTSM state. -/
theorem busyStep_ltsmState {pos : Position} {s u : State} (hp : ∀ t site, pos ≠ .awaitAux t site)
    (h : busyStep pos s = .next u) : u.ctx.ltsmState = s.ctx.ltsmState := by
  cases pos with
  | awaitAux t site => exact absurd rfl (hp t site)
  | sideband todo l lanes site =>
    cases todo with
    | nil =>
      simp only [busyStep, sidebandHead, laneSetWrite] at h
      exact (beginTxn_sameButAux h).ltsmState
    | cons w rest =>
      simp only [busyStep, sidebandHead, sidebandWrite] at h
      split at h
      · nomatch h
      · obtain rfl := Host.Outcome.next.inj h; rfl
  | awaitSb todo l lanes site => rcases awaitSb_cases h with ⟨-, rfl⟩ | ⟨-, rfl⟩ <;> rfl
  | waiting us site =>
    cases site <;> simp only [busyStep, timerStep] at h <;> exact (beginTxn_sameButAux h).ltsmState

theorem linkTrain_ltsmState {m : Nat} {rate : LinkRate} {ef : Bool} {s u : State}
    (h : exec (.linkTrain m rate ef) s = .next u) : u.ctx.ltsmState = .clockRecovery := by
  simp only [exec, execLinkTrain] at h
  obtain ⟨-, -, hb⟩ := hostOp_next h
  split at hb
  · nomatch hb
  · exact (beginTxn_sameButAux hb).ltsmState

/-- The host's step keeps the LTSM state or is LINK_TRAIN's. -/
theorem hostStep_ltsmState {s t : State} (hb : s.aux.ctl.busy = false) (h : hostStep s = .next t) :
    t.ctx.ltsmState = s.ctx.ltsmState ∨ t.ctx.ltsmState = .clockRecovery := by
  rcases hostStep_cases h with ⟨-, rfl⟩ | ⟨r, rest, i, -, -, hx⟩
  · exact .inl rfl
  · by_cases hl : ∃ m rate ef, i = .linkTrain m rate ef
    · obtain ⟨m, rate, ef, rfl⟩ := hl
      exact .inr (linkTrain_ltsmState hx)
    by_cases hi : i.format = .auxReply
    · cases i with
      | replyAck | replyNack | replyDefer => exact absurd hx (answer_ne_next hb)
      | _ => exact Format.noConfusion hi
    · exact .inl (exec_sameButAux hi (fun m rate ef e => hl ⟨m, rate, ef, e⟩) hx).ltsmState

/-- The AUX channel's answer keeps the LTSM state, opens the gate to Equalization, or ends the exit actions. -/
theorem answer_ltsmState {t : Txn} {site : AuxSite} {s u : State} {o : AuxOutcome} (aw : Awaiting t site s) (ok : t.Ok)
    (h : answer o s = .next u) :
    u.ctx.ltsmState = s.ctx.ltsmState
      ∨ (site = .crStatus ∧ u.ctx.ltsmState = .equalization)
      ∨ ∃ err r d, site = .exitPattern err ∧ d.ctx = s.ctx ∧ u = exitDone err r d := by
  obtain ⟨r, d, hd, hctx⟩ | hkept :
      (∃ r d, deliver site r d = .next u ∧ d.ctx = s.ctx) ∨ u.ctx.ltsmState = s.ctx.ltsmState := by
    rcases answer_cases aw ok (answer_possible h) with ⟨-, ha⟩ | ⟨-, ha⟩ | ⟨_, _, -, -, ha⟩
    · obtain rfl := Host.Outcome.next.inj (ha.symm.trans h)
      exact .inr (issued_sameButAux ..).ltsmState
    · exact .inl ⟨_, _, ha.symm.trans h, rfl⟩
    · exact .inl ⟨_, _, ha.symm.trans h, (accepted_spec t o s).ctx⟩
  · rw [← hctx]
    rcases deliver_ltsmState hd with hl | hl | ⟨err, hsite, hu⟩
    · exact .inl hl
    · exact .inr (.inl hl)
    · exact .inr (.inr ⟨err, r, d, hsite, rfl, hu⟩)
  · exact .inl hkept

/-- Settles O53: LINK_TRAIN's start, the gate and the end of the exit actions change the LTSM state, and the invariant says
from which phase each does. -/
theorem ltsmTransitions : Obligations.LtsmTransitions := by
  intro s t iv hr h hne
  have hpos := iv.position
  rcases step_cases h with ⟨hr', -⟩ | ⟨-, hop, hs⟩ | ⟨-, pos, hop, hs⟩
  · exact absurd (hr.symm.trans hr') Bool.false_ne_true
  · rw [hop] at hpos
    obtain ⟨⟨hb, -⟩, -, hsettled, -⟩ := hpos
    exact .inl ⟨hsettled, hop, (hostStep_ltsmState hb hs).resolve_left hne⟩
  · by_cases hp : ∃ x site, pos = .awaitAux x site
    · obtain ⟨x, site, rfl⟩ := hp
      rw [hop] at hpos
      obtain ⟨ok, ⟨-, hb, -, hto, hre, -⟩, -, -, hsite, -⟩ := hpos
      rw [step_awaitAux hr hop hb] at h
      have hctx : s.nextOutcome.2.ctx = s.ctx := by rw [nextOutcome_state]
      rcases answer_ltsmState (awaiting_nextOutcome ⟨hop, hb, hto, hre⟩) ok h with
        hkept | ⟨rfl, heq⟩ | ⟨err, r, d, rfl, hd, rfl⟩
      · exact absurd (hkept.trans (congrArg Context.ltsmState hctx)) hne
      · obtain ⟨hcr, -⟩ := hsite
        exact .inr (.inl ⟨hcr, heq⟩)
      · obtain ⟨⟨hexit, -⟩, -⟩ := hsite
        rw [← hctx, ← hd] at hexit ⊢
        exact .inr (.inr ⟨⟨x, err, hop⟩, rfl, exitDone_transition hexit r⟩)
    · exact absurd (busyStep_ltsmState (fun x site e => hp ⟨x, site, e⟩) hs) hne

/-! ## Runs -/

/-- Some number of steps leads from `s` to `u`. -/
def Reaches (s u : State) : Prop := ∃ n, run n s = .next u

theorem run_append {a : Nat} {s t : State} (b : Nat) (h : run a s = .next t) : run (a + b) s = run b t := by
  induction a generalizing s with
  | zero =>
    obtain rfl := Host.Outcome.next.inj h
    rw [Nat.zero_add]
  | succ a ih =>
    cases hs : step s with
    | next v =>
      rw [run_succ hs] at h
      rw [Nat.add_right_comm, run_succ hs, ih h]
    | fault f => simp [run, hs] at h
    | refused r => simp [run, hs] at h

theorem Reaches.of_step {s u : State} (h : step s = .next u) : Reaches s u := ⟨1, run_succ h⟩

theorem Reaches.trans {s t u : State} (h : Reaches s t) (g : Reaches t u) : Reaches s u := by
  obtain ⟨a, ha⟩ := h
  obtain ⟨b, hb⟩ := g
  exact ⟨a + b, (run_append b ha).trans hb⟩

theorem Reaches.par {s u : State} (h : Reaches s u) : u.par = s.par := by
  obtain ⟨n, hn⟩ := h
  induction n generalizing s with
  | zero => rw [Host.Outcome.next.inj hn]
  | succ n ih =>
    cases hs : step s with
    | next v =>
      rw [run_succ hs] at hn
      exact (ih hn).trans (parametersAndPastEventsKept s v hs).1
    | fault f => simp [run, hs] at hn
    | refused r => simp [run, hs] at hn

/-! ## What a run of a training keeps track of -/

/-- The `AUX_CMD` writes made so far, the sink's answers to come, the context and the port; no reset is asked for and no
sideband write is in flight. -/
structure Snapshot (w : Nat) (os : List AuxOutcome) (c : Context) (p : PortCtl) (s : State) : Prop where
  reset : s.host.reset = false
  sb : s.sb.busy = false
  writes : cmdWrites s.events = w
  outcomes : s.chan.outcomes = os
  ctx : s.ctx = c
  port : s.port = p

/-- The engine awaits an attempt of this call. -/
structure AwaitsCall (t : Txn) (site : AuxSite) (w : Nat) (os : List AuxOutcome) (c : Context) (p : PortCtl) (s : State) :
    Prop extends Snapshot w os c p s where
  awaiting : Awaiting t site s

/-- The engine stands at this place, with no attempt in flight. -/
structure StandsAt (pos : Position) (w : Nat) (os : List AuxOutcome) (c : Context) (p : PortCtl) (s : State) :
    Prop extends Snapshot w os c p s where
  op : s.op = .busy pos
  busy : s.aux.ctl.busy = false

section
variable {t : Txn} {site : AuxSite} {w : Nat} {os : List AuxOutcome} {c : Context} {p : PortCtl} {s d u : State}

/-- A transaction begun is one `AUX_CMD` write more. -/
theorem Begun.awaitsCall (b : Begun t site d u) (h : Snapshot w os c p d) :
    AwaitsCall t site (w + 1) os { c with auxAttempt := 1 } p u where
  reset := (congrArg HostPort.reset b.host).trans h.reset
  sb := (congrArg Sideband.busy b.sb).trans h.sb
  writes := by
    obtain ⟨new, hev, hnew, -⟩ := b.events
    rw [hev, cmdWrites, cmdWrites_append, hnew, Nat.zero_add, h.writes]
  outcomes := (congrArg Channel.outcomes b.chan).trans h.outcomes
  ctx := by rw [b.ctx, h.ctx]
  port := b.port.trans h.port
  awaiting := .of_inFlight b.inFlight

/-- The sink's ACK is delivered to the call. -/
theorem AwaitsCall.acked {data : List Byte} (h : AwaitsCall t site w (.reply 0 data :: os) c p s) (h16 : data.length ≤ 16)
    (hl : t.cmd.isRead = true → t.len ≤ data.length) :
    ∃ d, step s = deliver site (.ok (txnResult t data)) d ∧ Snapshot w os c p d ∧ d.aux.ctl.busy = false
      ∧ d.par = s.par := by
  obtain ⟨hop, hb, -, -⟩ := h.awaiting
  have sp := accepted_spec t (.reply 0 data) (s.withOutcomes os)
  refine ⟨_, (step_of_listed h.reset hop hb h.outcomes).trans
    (replyAck_delivers (s := s.withOutcomes os) h.awaiting h16 hl), ⟨?_, ?_, ?_, ?_, ?_, ?_⟩, ?_, sp.par⟩
  · exact (congrArg HostPort.reset sp.host).trans h.reset
  · exact (congrArg Sideband.busy sp.sb).trans h.sb
  · exact (cmdWrites_accepted ..).trans h.writes
  · exact congrArg Channel.outcomes sp.chan
  · exact sp.ctx.trans h.ctx
  · exact sp.port.trans h.port
  · exact (congrArg (·.ctl.busy) sp.aux).trans (State.complete_busy _ _)

theorem Snapshot.portWrite (h : Snapshot w os c p s) (pw : PortWrite) : Snapshot w os c (p.write pw) (s.portWrite pw) :=
  ⟨h.reset, h.sb, h.writes, h.outcomes, h.ctx, congrArg (PortCtl.write pw) h.port⟩

theorem Snapshot.withCtx (h : Snapshot w os c p s) (f : Context → Context) :
    Snapshot w os (f c) p { s with ctx := f s.ctx } :=
  ⟨h.reset, h.sb, h.writes, h.outcomes, congrArg f h.ctx, h.port⟩

theorem Snapshot.waitEnd (h : Snapshot w os c p s) : Snapshot w os c p (s.log .waitEnd) :=
  ⟨h.reset, h.sb, h.writes, h.outcomes, h.ctx, h.port⟩

theorem Snapshot.standsAt (h : Snapshot w os c p s) (hb : s.aux.ctl.busy = false) (pos : Position) :
    StandsAt pos w os c p (s.at pos) :=
  ⟨⟨h.reset, h.sb, h.writes, h.outcomes, h.ctx, h.port⟩, rfl, hb⟩

theorem Snapshot.startWait (h : Snapshot w os c p s) (hb : s.aux.ctl.busy = false) (us : Nat) (wait : WaitSite) :
    StandsAt (.waiting us wait) w os c p (s.startWait us wait) :=
  ⟨⟨h.reset, h.sb, h.writes, h.outcomes, h.ctx, h.port⟩, rfl, hb⟩

/-- The context after an `Apply` has set its level and issued its write (R214 to R217). -/
def Context.applying (l : Level) (m : LaneCount) (c : Context) : Context :=
  { c with
    lc := { c.lc with maxVswingReached := maxSwing l, maxPreemphasisReached := maxPre l }
    lane := setLanes m.toNat l c.lane
    auxAttempt := 1 }

/-- The tuning's writes are made one after another (R210, R213). -/
theorem StandsAt.tuned {ws : List SbWrite} {l : Level} {m : LaneCount} {call : ApplySite}
    (h : StandsAt (.sideband ws l m call) w os c p s) :
    ∃ u, Reaches s u ∧ StandsAt (.sideband [] l m call) w os c p u := by
  induction ws generalizing s with
  | nil => exact ⟨s, ⟨0, rfl⟩, h⟩
  | cons e ws ih =>
    have hwrite := step_sideband h.reset h.op h.sb
    have hdone := step_awaitSb (s := (s.at (.awaitSb ws l m call)).sbWritten e) h.reset rfl rfl
    obtain ⟨u, hu, g⟩ := ih (s := ((s.at (.awaitSb ws l m call)).sbWritten e).phyComplete.at (.sideband ws l m call))
      ⟨⟨h.reset, rfl, h.writes, h.outcomes, h.ctx, h.port⟩, rfl, h.busy⟩
    exact ⟨u, (Reaches.of_step hwrite).trans ((Reaches.of_step hdone).trans hu), g⟩

/-- An `Apply` makes its level's writes and then awaits its TRAINING_LANE_SET write. -/
theorem StandsAt.applies {ws : List SbWrite} {l : Level} {m : LaneCount} {call : ApplySite}
    (h : StandsAt (.sideband ws l m call) w os c p s) :
    ∃ u, Reaches s u ∧ AwaitsCall (laneSetTxn l m) (.laneSet call) (w + 1) os (c.applying l m) p u := by
  obtain ⟨v, hv, g⟩ := h.tuned
  obtain ⟨u, hu, i⟩ := step_sideband_nil g.reset g.op g.busy
  obtain ⟨ihost, ichan⟩ := i.inputs
  obtain ⟨issue, hev, hissue⟩ := i.events
  have hlane : u.ctx.lane = setLanes m.toNat l v.ctx.lane :=
    Vector.ext fun k hk => (i.lanes ⟨k, hk⟩).trans (setLanes_get l v.ctx.lane m ⟨k, hk⟩).symm
  refine ⟨u, hv.trans (.of_step hu), ⟨?_, ?_, ?_, ?_, ?_, i.port.trans g.port⟩, .of_inFlight i.inFlight⟩
  · exact (congrArg HostPort.reset ihost).trans g.reset
  · exact (congrArg Sideband.busy i.sb).trans g.sb
  · rw [hev, cmdWrites_append, hissue, g.writes, Nat.add_comm]
  · exact (congrArg Channel.outcomes ichan).trans g.outcomes
  · rw [i.ctx, hlane, g.ctx]
    rfl

/-- The delivery of an ACK that puts the engine at the head of an `Apply`'s loop. -/
theorem AwaitsCall.acked_applies {data : List Byte} {l : Level} {call : ApplySite}
    (h : AwaitsCall t site w (.reply 0 data :: os) c p s) (h16 : data.length ≤ 16)
    (hl : t.cmd.isRead = true → t.len ≤ data.length)
    (happ : ∀ d : State, d.ctx = c → deliver site (.ok (txnResult t data)) d
      = .next (d.at (.sideband (tuningOf d.par l) l d.ctx.lc.laneCount call))) :
    ∃ u, Reaches s u
      ∧ AwaitsCall (laneSetTxn l c.lc.laneCount) (.laneSet call) (w + 1) os (c.applying l c.lc.laneCount) p u := by
  obtain ⟨d, hd, g, hb, -⟩ := h.acked h16 hl
  obtain ⟨u, hu, a⟩ := (g.standsAt hb (.sideband (tuningOf d.par l) l d.ctx.lc.laneCount call)).applies
  rw [g.ctx] at a
  exact ⟨u, (Reaches.of_step (hd.trans (happ d g.ctx))).trans hu, a⟩

/-! ## The parts of a training: setup (R243 to R250) -/

/-- The port's reconfiguration, at any place of the engine, is followed by LANE_COUNT_SET (R245, R246). -/
theorem Snapshot.setupPort (h : Snapshot w os c p s) (hb : s.aux.ctl.busy = false) :
    ∃ u, Machine.setupPort s = .next u
      ∧ AwaitsCall (byteWriteTxn 0x101 (laneCountSetByte c.lc.laneCount c.lc.enhancedFraming)) .laneCountSet (w + 1) os
        { c with auxAttempt := 1 } ⟨true, c.lc.laneCount, c.lc.enhancedFraming, c.lc.linkRate, .none, p.inTraining⟩ u := by
  obtain ⟨u, hu, b⟩ := setupPort_begun hb (laneCountSetByte_toNat s.ctx.lc.laneCount s.ctx.lc.enhancedFraming)
  have a := b.awaitsCall (((h.portWrite _).portWrite _).portWrite _)
  rw [h.ctx] at a
  exact ⟨u, hu, a⟩

/-- The probe's ACK is followed by the port's reconfiguration, after the idle pulse with four lanes (R243, R244). -/
theorem AwaitsCall.probe_acked {v : Byte} (h : AwaitsCall (readTxn 0x00E 1) .rdInterval w (.reply 0 [v] :: os) c p s) :
    ∃ u, Reaches s u
      ∧ AwaitsCall (byteWriteTxn 0x101 (laneCountSetByte c.lc.laneCount c.lc.enhancedFraming)) .laneCountSet (w + 1) os
        { c with rdInterval := v, auxAttempt := 1 }
        ⟨true, c.lc.laneCount, c.lc.enhancedFraming, c.lc.linkRate, .none, p.inTraining⟩ u := by
  obtain ⟨d, hd, g, hb, -⟩ := h.acked (Nat.le_add_left 1 15) (fun _ => le_refl 1)
  have hv : (probeValue (.ok (txnResult (readTxn 0x00E 1) [v]))).setWidth 8 = v := leValue_one v
  have gv : Snapshot w os { c with rdInterval := v } p (d.probed v) := g.withCtx ({ · with rdInterval := v })
  by_cases hm : d.ctx.lc.laneCount = .four
  · have gw := (gv.portWrite { tpSel := some .idle }).startWait hb d.par.settle4LaneUs .idlePulse
    obtain ⟨u, hu, a⟩ := gw.waitEnd.setupPort gw.busy
    exact ⟨u, (Reaches.of_step (hd.trans (setupInterval_of_four hv hm))).trans
      (.of_step ((step_of_busy gw.reset gw.op).trans hu)), a⟩
  · obtain ⟨u, hu, a⟩ := gv.setupPort hb
    exact ⟨u, .of_step (hd.trans ((setupInterval_of_ne_four hv hm).trans hu)), a⟩

/-- The ACK of LANE_COUNT_SET is followed by LINK_BW_SET (R246). -/
theorem AwaitsCall.laneCountSet_acked {b : Byte}
    (h : AwaitsCall (byteWriteTxn 0x101 b) .laneCountSet w (.reply 0 [] :: os) c p s) :
    ∃ u, Reaches s u ∧ AwaitsCall (byteWriteTxn 0x100 (bwCode c.lc.linkRate)) .linkBwSet (w + 1) os
      { c with auxAttempt := 1 } p u := by
  obtain ⟨d, hd, g, hb, -⟩ := h.acked (Nat.zero_le 16) nofun
  obtain ⟨u, hu, bg⟩ := byteWrite_begun (a := 0x100) (bwCode d.ctx.lc.linkRate) .linkBwSet hb
  rw [g.ctx] at bg
  exact ⟨u, .of_step (hd.trans hu), bg.awaitsCall g⟩

/-- The ACK of LINK_BW_SET is followed by pattern 1 (R247). -/
theorem AwaitsCall.linkBwSet_acked {b : Byte} (h : AwaitsCall (byteWriteTxn 0x100 b) .linkBwSet w (.reply 0 [] :: os) c p s) :
    ∃ u, Reaches s u ∧ AwaitsCall (byteWriteTxn 0x102 0x21) .pattern1 (w + 1) os
      { c with auxAttempt := 1 } { p with tpSel := .pat1, inTraining := true } u := by
  obtain ⟨d, hd, g, hb, -⟩ := h.acked (Nat.zero_le 16) nofun
  obtain ⟨u, hu, bg⟩ := byteWrite_begun (a := 0x102)
    (s := d.portWrite { tpSel := some .pat1, inTraining := some true }) patternSet1 .pattern1 hb
  exact ⟨u, .of_step (hd.trans hu), bg.awaitsCall (g.portWrite { tpSel := some .pat1, inTraining := some true })⟩

/-- The ACK of pattern 1 is followed by the level (0, 0) (R248). -/
theorem AwaitsCall.pattern1_acked (h : AwaitsCall (byteWriteTxn 0x102 0x21) .pattern1 w (.reply 0 [] :: os) c p s) :
    ∃ u, Reaches s u ∧ AwaitsCall (laneSetTxn ⟨0, 0⟩ c.lc.laneCount) (.laneSet .setup) (w + 1) os
      (c.applying ⟨0, 0⟩ c.lc.laneCount) p u :=
  h.acked_applies (Nat.zero_le 16) nofun fun d _ => pattern1_applies [] d

/-- The ACK of the level's write is followed by the first poll's `Wait` (R250). -/
theorem AwaitsCall.setup_acked {l : Level} {m : LaneCount}
    (h : AwaitsCall (laneSetTxn l m) (.laneSet .setup) w (.reply 0 [] :: os) c p s) :
    ∃ us u, Reaches s u ∧ StandsAt (.waiting us .crPoll) w os { c with applied := ⟨0, 0⟩ } p u := by
  obtain ⟨d, hd, g, hb, -⟩ := h.acked (Nat.zero_le 16) nofun
  exact ⟨_, _, .of_step hd, (g.withCtx ({ · with applied := ⟨0, 0⟩ })).startWait hb _ .crPoll⟩

/-! ## The parts of a training: Clock Recovery (R250 to R257) -/

/-- The end of a poll's `Wait` is followed by its status read (R250, R251). -/
theorem StandsAt.crPoll_ended {us : Nat} (h : StandsAt (.waiting us .crPoll) w os c p s) :
    ∃ u, Reaches s u ∧ AwaitsCall (readTxn 0x202 2) .crStatus (w + 1) os
      { c with crPolls := c.crPolls + 1, auxAttempt := 1 } p u := by
  have g := h.waitEnd.withCtx fun c => { c with crPolls := c.crPolls + 1 }
  obtain ⟨u, hu, b⟩ := memRead_begun (a := 0x202) (n := 2)
    (s := { s.log .waitEnd with ctx := { s.ctx with crPolls := s.ctx.crPolls + 1 } }) .crStatus (by decide) (by decide) h.busy
  exact ⟨u, .of_step ((step_of_busy h.reset h.op).trans hu), b.awaitsCall g⟩

/-- A status with every active lane's bit opens the gate (R252, R281). -/
theorem AwaitsCall.crStatus_done {b0 b1 : Byte} (h : AwaitsCall (readTxn 0x202 2) .crStatus w (.reply 0 [b0, b1] :: os) c p s)
    (hdone : allCrDone (leValue [b0, b1]) c.lc.laneCount = true) :
    ∃ u, Reaches s u ∧ AwaitsCall (byteWriteTxn 0x102 0x22) .pattern2 (w + 1) os
      { c with ltsmState := .equalization, auxAttempt := 1 } { p with tpSel := .pat2 } u := by
  obtain ⟨d, hd, g, hb, -⟩ := h.acked (Nat.le_add_left 2 14) (fun _ => le_refl 2)
  rw [← g.ctx] at hdone
  obtain ⟨u, hu, bg⟩ := Machine.crStatus_done hb hdone
  exact ⟨u, .of_step (hd.trans hu), bg.awaitsCall ((g.withCtx ({ · with ltsmState := .equalization })).portWrite _)⟩

/-- Another status is followed by the adjust read (R253). -/
theorem AwaitsCall.crStatus_notDone {b0 b1 : Byte}
    (h : AwaitsCall (readTxn 0x202 2) .crStatus w (.reply 0 [b0, b1] :: os) c p s)
    (hdone : allCrDone (leValue [b0, b1]) c.lc.laneCount = false) :
    ∃ u, Reaches s u ∧ AwaitsCall (readTxn 0x206 2) .crAdjust (w + 1) os { c with auxAttempt := 1 } p u := by
  obtain ⟨d, hd, g, hb, -⟩ := h.acked (Nat.le_add_left 2 14) (fun _ => le_refl 2)
  rw [← g.ctx] at hdone
  obtain ⟨u, hu, bg⟩ := Machine.crStatus_notDone hb hdone
  exact ⟨u, .of_step (hd.trans hu), bg.awaitsCall g⟩

/-- The adjust read's ACK is followed by the requested level (R254, R255). -/
theorem AwaitsCall.crAdjust_acked {b0 b1 : Byte} {new : Level}
    (h : AwaitsCall (readTxn 0x206 2) .crAdjust w (.reply 0 [b0, b1] :: os) c p s)
    (hnew : new = requestedLevel (leValue [b0, b1]) c.lc.laneCount) :
    ∃ u, Reaches s u ∧ AwaitsCall (laneSetTxn new c.lc.laneCount) (.laneSet (.crAdjust new)) (w + 1) os
      (c.applying new c.lc.laneCount) p u :=
  h.acked_applies (Nat.le_add_left 2 14) (fun _ => le_refl 2) fun _ hd => crAdjust_applies (hd ▸ hnew)

/-- With neither cap reached the ACK of the re-apply is followed by the next poll's `Wait` (R256, R257). -/
theorem AwaitsCall.readjust_acked {new : Level} {m : LaneCount}
    (h : AwaitsCall (laneSetTxn new m) (.laneSet (.crAdjust new)) w (.reply 0 [] :: os) c p s)
    (h5 : nextRepeat new c.applied c.crRepeat ≠ 5) (hcap : s.par.crOverallCap = none) :
    ∃ u, Reaches s u ∧ StandsAt (.waiting (intervalUs .clockRecovery c.rdInterval) .crPoll) w os
      { c with applied := new, crRepeat := nextRepeat new c.applied c.crRepeat } p u := by
  obtain ⟨d, hd, g, hb, hpar⟩ := h.acked (Nat.zero_le 16) nofun
  have gr := g.withCtx fun c => { c with applied := new, crRepeat := nextRepeat new c.applied c.crRepeat }
  have gw : StandsAt (.waiting (intervalUs .clockRecovery d.ctx.rdInterval) .crPoll) w os _ p (crWait (d.reapplied new)) :=
    gr.startWait hb _ .crPoll
  rw [← hpar] at hcap
  rw [← g.ctx] at h5
  have hx := crAdjusted_waits [] h5 (by rw [hcap]; exact Bool.false_ne_true)
  rw [g.ctx] at gw
  exact ⟨_, .of_step (hd.trans hx), gw⟩

/-! ## The parts of a training: Equalization and exit (R265 to R271, R281 to R286) -/

theorem pattern2_applies (bytes : List Byte) (hl : s.ctx.applied.legal = true) :
    deliver .pattern2 (.ok bytes) s
      = .next (s.at (.sideband (tuningOf s.par s.ctx.applied) s.ctx.applied s.ctx.lc.laneCount .eqStart)) :=
  applyLevel_legal hl s.ctx.lc.laneCount .eqStart s

/-- The ACK of pattern 2 is followed by the level applied in Clock Recovery (R282). -/
theorem AwaitsCall.pattern2_acked (h : AwaitsCall (byteWriteTxn 0x102 0x22) .pattern2 w (.reply 0 [] :: os) c p s)
    (hl : c.applied.legal = true) :
    ∃ u, Reaches s u ∧ AwaitsCall (laneSetTxn c.applied c.lc.laneCount) (.laneSet .eqStart) (w + 1) os
      (c.applying c.applied c.lc.laneCount) p u := by
  refine h.acked_applies (Nat.zero_le 16) nofun fun d hd => ?_
  rw [← hd] at hl ⊢
  exact pattern2_applies [] hl

/-- The ACK of the level's write is followed by the first Equalization poll's `Wait` (R283, R290). -/
theorem AwaitsCall.eqStart_acked {l : Level} {m : LaneCount}
    (h : AwaitsCall (laneSetTxn l m) (.laneSet .eqStart) w (.reply 0 [] :: os) c p s) :
    ∃ us u, Reaches s u ∧ StandsAt (.waiting us .eqPoll) w os { c with eqIter := 0 } p u := by
  obtain ⟨d, hd, g, hb, -⟩ := h.acked (Nat.zero_le 16) nofun
  exact ⟨_, _, .of_step hd, (g.withCtx ({ · with eqIter := 0 })).startWait hb _ .eqPoll⟩

/-- The end of a poll's `Wait` is followed by its status read (R283). -/
theorem StandsAt.eqPoll_ended {us : Nat} (h : StandsAt (.waiting us .eqPoll) w os c p s) :
    ∃ u, Reaches s u ∧ AwaitsCall (readTxn 0x202 3) .eqStatus (w + 1) os
      { c with eqIter := c.eqIter + 1, auxAttempt := 1 } p u := by
  have g := h.waitEnd.withCtx fun c => { c with eqIter := c.eqIter + 1 }
  obtain ⟨u, hu, b⟩ := memRead_begun (a := 0x202) (n := 3)
    (s := { s.log .waitEnd with ctx := { s.ctx with eqIter := s.ctx.eqIter + 1 } }) .eqStatus (by decide) (by decide) h.busy
  exact ⟨u, .of_step ((step_of_busy h.reset h.op).trans hu), b.awaitsCall g⟩

/-- A status of success is followed by the exit actions (R285, R286). -/
theorem AwaitsCall.eqStatus_done {b0 b1 b2 : Byte}
    (h : AwaitsCall (readTxn 0x202 3) .eqStatus w (.reply 0 [b0, b1, b2] :: os) c p s)
    (hcr : allCrDone (leValue [b0, b1, b2]) c.lc.laneCount = true)
    (heq : (allEqDone (leValue [b0, b1, b2]) c.lc.laneCount && alignDone (leValue [b0, b1, b2])) = true) :
    ∃ us u, Reaches s u ∧ StandsAt (.waiting us (.exit none)) w os c { p with tpSel := .none } u := by
  obtain ⟨d, hd, g, hb, -⟩ := h.acked (Nat.le_add_left 3 13) (fun _ => le_refl 3)
  have hx : deliver .eqStatus (.ok [b0, b1, b2]) d = .next (exitTraining none d) := by
    rw [deliver, eqCheck, g.ctx, if_neg (by rw [hcr]; nofun), if_pos heq]
  exact ⟨_, _, .of_step (hd.trans hx), (g.portWrite { tpSel := some .none }).startWait hb _ (.exit none)⟩

/-- The end of the settle delay is followed by the exit's sink write (R267, R268). -/
theorem StandsAt.exit_ended {us : Nat} {err : Option TrainingError} (h : StandsAt (.waiting us (.exit err)) w os c p s) :
    ∃ u, Reaches s u ∧ AwaitsCall (byteWriteTxn 0x102 0x00) (.exitPattern err) (w + 1) os
      { c with auxAttempt := 1 } { p with inTraining := false } u := by
  obtain ⟨u, hu, b⟩ := step_exitWait h.reset h.busy h.op
  exact ⟨u, .of_step hu, b.awaitsCall (h.waitEnd.portWrite { inTraining := some false })⟩

/-- The ACK of that write ends LINK_TRAIN (R269, R270). -/
theorem AwaitsCall.exit_acked {err : Option TrainingError}
    (h : AwaitsCall (byteWriteTxn 0x102 0x00) (.exitPattern err) w (.reply 0 [] :: os) c p s) :
    ∃ u, Reaches s u ∧ u.op = .idle ∧ u.host.result = some (.trained (trainingResult err) c.lc)
      ∧ Snapshot w os
        { c with ltsmState := (if err = none then .done else .failed), lastResult := some (err, c.lc) } p u := by
  obtain ⟨d, hd, g, -⟩ := h.acked (Nat.zero_le 16) nofun
  have hres : (exitDone err (.ok []) d).host.result
      = some (.trained (trainingResult (exitError err (.ok []))) d.ctx.lc) := rfl
  have hctx := exitDone_ctx err (.ok []) d
  rw [exitError_ok, g.ctx] at hres hctx
  exact ⟨_, .of_step hd, rfl, hres, g.reset, g.sb, g.writes, g.outcomes, hctx, g.port⟩

end

/-! ## LINK_TRAIN completes at the level (0, 0) (R242) -/


/-- The status 0x11, 0x11 has every lane's `clock_recovery_done` (R144). -/
theorem allCrDone_0x11 (m : LaneCount) : allCrDone (leValue [0x11, 0x11]) m = true := by
  cases m <;> decide

/-- The status 0x77, 0x77, 0x01 has every bit of R144 and R145. -/
theorem eqSuccess_0x77 (m : LaneCount) :
    allCrDone (leValue [0x77, 0x77, 0x01]) m = true
      ∧ (allEqDone (leValue [0x77, 0x77, 0x01]) m && alignDone (leValue [0x77, 0x77, 0x01])) = true := by
  cases m <;> decide

/-- The context of a training at the level (0, 0), with its phase, its interval code, and the polls made in each phase. -/
def Context.atZero (phase : LtsmState) (m : LaneCount) (rate : LinkRate) (ef : Bool) (v : Byte) (polls iters : Nat)
    (last : Option (Option TrainingError × LinkConfig)) : Context :=
  ⟨phase, ⟨m, rate, ef, false, false⟩, Vector.replicate 4 ⟨0, 0⟩, ⟨0, 0⟩, 0, polls, iters, v, 1, last⟩

section
variable {phase : LtsmState} {m : LaneCount} {rate : LinkRate} {ef : Bool} {v v₀ : Byte} {polls iters us w : Nat}
  {last : Option (Option TrainingError × LinkConfig)} {os : List AuxOutcome} {p : PortCtl} {s : State}

/-- Applying the level (0, 0) again changes nothing. -/
theorem Context.atZero_applying :
    (Context.atZero phase m rate ef v polls iters last).applying ⟨0, 0⟩ m = .atZero phase m rate ef v polls iters last := by
  cases m <;> rfl

/-- Five ACKs bring setup to the first poll's `Wait`. -/
theorem AwaitsCall.setup_completes
    (h : AwaitsCall (readTxn 0x00E 1) .rdInterval w
      (.reply 0 [v] :: .reply 0 [] :: .reply 0 [] :: .reply 0 [] :: .reply 0 [] :: os)
      (.atZero .clockRecovery m rate ef v₀ 0 0 last) p s) :
    ∃ us u, Reaches s u ∧ StandsAt (.waiting us .crPoll) (w + 4) os (.atZero .clockRecovery m rate ef v 0 0 last)
      ⟨true, m, ef, rate, .pat1, true⟩ u := by
  obtain ⟨s1, r1, laneCount⟩ := h.probe_acked
  obtain ⟨s2, r2, bandwidth⟩ := laneCount.laneCountSet_acked
  obtain ⟨s3, r3, pattern1⟩ := bandwidth.linkBwSet_acked
  obtain ⟨s4, r4, level⟩ := pattern1.pattern1_acked
  have level : AwaitsCall (laneSetTxn ⟨0, 0⟩ m) _ (w + 4) _
      ((Context.atZero .clockRecovery m rate ef v 0 0 last).applying ⟨0, 0⟩ m) _ s4 := level
  rw [Context.atZero_applying] at level
  obtain ⟨us, u, r5, wait⟩ := level.setup_acked
  exact ⟨us, u, r1.trans (r2.trans (r3.trans (r4.trans r5))), wait⟩

/-- A first status with every lane's bit brings Clock Recovery to Equalization. -/
theorem StandsAt.clockRecovery_completes
    (h : StandsAt (.waiting us .crPoll) w (.reply 0 [0x11, 0x11] :: os) (.atZero .clockRecovery m rate ef v 0 0 last) p s) :
    ∃ u, Reaches s u ∧ AwaitsCall (byteWriteTxn 0x102 0x22) .pattern2 (w + 2) os
      (.atZero .equalization m rate ef v 1 0 last) { p with tpSel := .pat2 } u := by
  obtain ⟨s1, r1, status⟩ := h.crPoll_ended
  obtain ⟨u, r2, pattern2⟩ := status.crStatus_done (allCrDone_0x11 m)
  exact ⟨u, r1.trans r2, pattern2⟩

/-- A first status of success brings Equalization to the exit actions. -/
theorem AwaitsCall.equalization_completes
    (h : AwaitsCall (byteWriteTxn 0x102 0x22) .pattern2 w (.reply 0 [] :: .reply 0 [] :: .reply 0 [0x77, 0x77, 0x01] :: os)
      (.atZero .equalization m rate ef v polls 0 last) p s) :
    ∃ us u, Reaches s u ∧ StandsAt (.waiting us (.exit none)) (w + 2) os
      (.atZero .equalization m rate ef v polls 1 last) { p with tpSel := .none } u := by
  obtain ⟨s1, r1, level⟩ := h.pattern2_acked (show Level.legal ⟨0, 0⟩ = true by decide)
  have level : AwaitsCall (laneSetTxn ⟨0, 0⟩ m) _ (w + 1) _
      ((Context.atZero .equalization m rate ef v polls 0 last).applying ⟨0, 0⟩ m) _ s1 := level
  rw [Context.atZero_applying] at level
  obtain ⟨us, s2, r2, wait⟩ := level.eqStart_acked
  obtain ⟨s3, r3, status⟩ := wait.eqPoll_ended
  obtain ⟨hcr, heq⟩ := eqSuccess_0x77 m
  obtain ⟨us', u, r4, exitWait⟩ := status.eqStatus_done hcr heq
  exact ⟨us', u, r1.trans (r2.trans (r3.trans r4)), exitWait⟩

end

/-- Settles O48: setup, each phase's first poll and the exit actions, one after another. -/
theorem linkTrainCompletes : Obligations.LinkTrainCompletes := by
  intro s m rate ef v rest hop hr hb hsb hout
  obtain ⟨t, ht, b⟩ := linkTrain_begun m rate ef hop hb
  have probe : AwaitsCall _ _ _ _ (.atZero .clockRecovery m rate ef s.ctx.rdInterval 0 0 s.ctx.lastResult) _ t :=
    b.awaitsCall ⟨hr, hsb, rfl, hout, rfl, rfl⟩
  obtain ⟨us, s1, r1, crWait⟩ := probe.setup_completes
  obtain ⟨s2, r2, pattern2⟩ := crWait.clockRecovery_completes
  obtain ⟨us', s3, r3, exitWait⟩ := pattern2.equalization_completes
  obtain ⟨s4, r4, exitWrite⟩ := exitWait.exit_ended
  obtain ⟨u, r5, hidle, hres, final⟩ := exitWrite.exit_acked
  obtain ⟨n, hn⟩ := r1.trans (r2.trans (r3.trans (r4.trans r5)))
  refine ⟨t, n, u, ht, hn, hidle, hres, ?_⟩
  rw [final.ctx]
  exact ⟨rfl, rfl, fun l => Vector.getElem_replicate l.isLt, rfl, rfl, rfl, final.port, final.outcomes, final.writes⟩

/-! ## Clock Recovery has no bound (R256, R257) -/

/-- The status 0x00, 0x00 has no lane's `clock_recovery_done`. -/
theorem allCrDone_zero (m : LaneCount) : allCrDone (leValue [0, 0]) m = false := by
  cases m <;> decide

/-- A poll with no clock recovery, whose re-apply reaches neither cap, leads to the next poll's `Wait`. -/
theorem StandsAt.crPoll_readjusts {us w : Nat} {b0 b1 : Byte} {new : Level} {os : List AuxOutcome} {c : Context} {p : PortCtl}
    {s : State}
    (h : StandsAt (.waiting us .crPoll) w (.reply 0 [0, 0] :: .reply 0 [b0, b1] :: .reply 0 [] :: os) c p s)
    (hnew : new = requestedLevel (leValue [b0, b1]) c.lc.laneCount) (h5 : nextRepeat new c.applied c.crRepeat ≠ 5)
    (hcap : s.par.crOverallCap = none) :
    ∃ u, Reaches s u ∧ StandsAt (.waiting (intervalUs .clockRecovery c.rdInterval) .crPoll) (w + 3) os
      { c.applying new c.lc.laneCount with
        applied := new, crRepeat := nextRepeat new c.applied c.crRepeat, crPolls := c.crPolls + 1 } p u := by
  obtain ⟨s1, r1, status⟩ := h.crPoll_ended
  obtain ⟨s2, r2, adjust⟩ := status.crStatus_notDone (allCrDone_zero _)
  obtain ⟨s3, r3, level⟩ := adjust.crAdjust_acked hnew
  have r := r1.trans (r2.trans r3)
  obtain ⟨u, r4, wait⟩ := level.readjust_acked h5 (by rw [r.par, hcap])
  exact ⟨u, r.trans r4, wait⟩

/-- The two levels a sink without a steady wish asks for in turn. -/
def toggleLevel (up : Bool) : Level := ⟨if up then 1 else 0, 0⟩

/-- That sink's answers in `n` polls: no clock recovery, the level other than the last, and the ACK of its write. -/
def togglingSink : Bool → Nat → List AuxOutcome
  | _, 0 => []
  | up, n + 1 => .reply 0 [0, 0] :: .reply 0 [if up then 1 else 0, 0] :: .reply 0 [] :: togglingSink (!up) n

theorem requestedLevel_toggle (up : Bool) : toggleLevel up = requestedLevel (leValue [if up then 1 else 0, 0]) .one := by
  cases up <;> decide

/-- The loop waits for its next poll, `polls` made and `n` to come, each with the level other than the one applied. -/
structure Toggling (up : Bool) (polls n : Nat) (s : State) : Prop where
  stands : StandsAt (.waiting 100 .crPoll) (cmdWrites s.events) (togglingSink up n) s.ctx s.port s
  uncapped : s.par.crOverallCap = none
  lanes : s.ctx.lc.laneCount = .one
  interval : s.ctx.rdInterval = 0
  applied : s.ctx.applied = toggleLevel (!up)
  made : s.ctx.crPolls = polls

theorem Toggling.poll {up : Bool} {polls n : Nat} {s : State} (h : Toggling up polls (n + 1) s) :
    ∃ u, Reaches s u ∧ Toggling (!up) (polls + 1) n u := by
  have hne : toggleLevel up ≠ s.ctx.applied := by
    rw [h.applied]
    cases up <;> decide
  have h5 : nextRepeat (toggleLevel up) s.ctx.applied s.ctx.crRepeat ≠ 5 := by
    rw [nextRepeat, if_neg hne]
    decide
  obtain ⟨u, r, wait⟩ := h.stands.crPoll_readjusts (by rw [h.lanes]; exact requestedLevel_toggle up) h5 h.uncapped
  rw [h.interval] at wait
  refine ⟨u, r, ⟨⟨wait.reset, wait.sb, rfl, wait.outcomes, rfl, rfl⟩, wait.op, wait.busy⟩, ?_, ?_, ?_, ?_, ?_⟩
  · rw [r.par, h.uncapped]
  all_goals rw [wait.ctx]
  · exact h.lanes
  · exact h.interval
  · rw [Bool.not_not]
  · exact congrArg (· + 1) h.made

theorem Toggling.polls_all {up : Bool} {polls n : Nat} {s : State} (h : Toggling up polls n s) :
    ∃ u, Reaches s u ∧ u.ctx.crPolls = polls + n ∧ u.op = .busy (.waiting 100 .crPoll) := by
  induction n generalizing up polls s with
  | zero => exact ⟨s, ⟨0, rfl⟩, h.made, h.stands.op⟩
  | succ n ih =>
    obtain ⟨v, r, g⟩ := h.poll
    obtain ⟨u, r', hpolls, hop⟩ := ih g
    exact ⟨u, r.trans r', by rw [hpolls]; omega, hop⟩

/-- Reset's registers, but for an enabled port and the LTSM in Clock Recovery, with these answers of the sink to come. -/
def State.recovering (os : List AuxOutcome) : State :=
  { State.reset with
    ctx := { State.reset.ctx with ltsmState := .clockRecovery }
    port := { State.reset.port with enable := true }
    chan := ⟨os, 0⟩ }

theorem quiet_recovering (os : List AuxOutcome) : Quiet (State.recovering os) where
  base := ⟨Memory.wf_nil _, show LevelsLegal State.reset.ctx from ⟨by decide, by decide⟩, Nat.zero_le 5, Nat.zero_le 5,
    show FlagsExclusive State.reset.ctx.lc from fun hm => Bool.noConfusion hm.1⟩
  att := Nat.zero_le 6
  aux := ⟨rfl, rfl⟩
  sb := rfl

/-- Settles O42: the toggling sink never lets the same-level counter rise, so `n` of its polls are made whatever `n` is. -/
theorem clockRecoveryHasNoBound : Obligations.ClockRecoveryHasNoBound := by
  intro n
  have hphase : CrPhase (.recovering (togglingSink true n)) :=
    ⟨rfl, fun i j _ _ => (Vector.getElem_replicate i.isLt).trans (Vector.getElem_replicate j.isLt).symm, rfl, Nat.succ_pos 4⟩
  have start : Toggling true 0 n (crWait (.recovering (togglingSink true n))) :=
    ⟨⟨⟨rfl, rfl, rfl, rfl, rfl, rfl⟩, rfl, rfl⟩, rfl, rfl, rfl, rfl, rfl⟩
  obtain ⟨u, ⟨k, hk⟩, hpolls, hop⟩ := start.polls_all
  exact ⟨_, k, u, inv_crWait (quiet_recovering _) hphase, rfl, rfl, rfl, hk, hpolls.trans (Nat.zero_add n), hop⟩

end Sys2Proof.Machine

/-! PROOF. The statements about the Equalization Sub-loop (45_equalization.md), and the lemmas they need. -/

namespace Sys2Proof.Machine

/-! ## From the applied level to the first poll (R259, R282, R283, R287, R290) -/

/-- `IntervalUs` of Equalization (R259). -/
theorem intervalUs_equalization (v : Byte) :
    intervalUs .equalization v = if v = 0 then 400 else if v.toNat ≤ 4 then 4000 * v.toNat else 16000 := by
  have hz : v.toNat = 0 ↔ v = 0 := BitVec.toNat_eq (x := v) (y := 0) |>.symm
  simp only [intervalUs, hz, Config.eqFloorUs]

theorem eqWait_op (s : State) :
    (eqWait s).op = .busy (.waiting
      (if s.ctx.rdInterval = 0 then 400
        else if s.ctx.rdInterval.toNat ≤ 4 then 4000 * s.ctx.rdInterval.toNat else 16000) .eqPoll) := by
  rw [eqWait, State.startWait_op, intervalUs_equalization]

/-- Settles O43: each ACK is delivered to its call, which applies the level or begins the next poll's `Wait`. -/
theorem equalizationStartsFromAppliedLevel : Obligations.EqualizationStartsFromAppliedLevel := by
  intro s t data ht h16
  refine ⟨fun aw hl => ?_, fun aw => ?_, fun new aw => ?_⟩ <;> rw [ackedWrite_delivers aw ht h16]
  · exact ⟨_, pattern2_applies [] hl, rfl, rfl, rfl, rfl, rfl⟩
  · exact ⟨_, rfl, eqWait_op _, rfl, rfl, rfl, rfl⟩
  · exact ⟨_, rfl, eqWait_op _, rfl, rfl, rfl, rfl⟩

/-! ## The status of a poll (R144, R145, R285) -/

/-- Bit `k` of a lane's nibble in a three-byte status, two lanes a byte (R144). -/
theorem laneBit_leValue (b0 b1 b2 : Byte) {l k : Nat} (hl : l < 4) (hk : k < 4) :
    (leValue [b0, b1, b2]).getLsbD (laneNibbleAt l + k)
      = if l < 2 then b0.getLsbD (4 * l + k) else b1.getLsbD (4 * (l - 2) + k) := by
  rw [laneNibbleAt, Nat.add_assoc, leValue_getLsbD _ (by omega) (by omega)]
  interval_cases l <;> rfl

/-- The alignment bit is bit 0 of the third byte (R145). -/
theorem alignDone_leValue (b0 b1 b2 : Byte) : alignDone (leValue [b0, b1, b2]) = b2.getLsbD 0 :=
  leValue_getLsbD [b0, b1, b2] (k := 2) (i := 0) (by decide) (by decide)

section
variable {b0 b1 b2 : Byte} {bit : Nat → Nat → Bool}
  (hbit : ∀ l k, bit l k = if l < 2 then b0.getLsbD (4 * l + k) else b1.getLsbD (4 * (l - 2) + k))
include hbit

theorem activeLaneBit {m : LaneCount} {l k : Nat} (hl : l < m.toNat) (hk : k < 4) :
    (leValue [b0, b1, b2]).getLsbD (laneNibbleAt l + k) = bit l k := by
  rw [hbit, laneBit_leValue b0 b1 b2 (hl.trans_le m.toNat_bounds.2) hk]

/-- Clock Recovery is lost when an active lane's bit 0 is clear (R284). -/
theorem clockRecoveryLost_iff (m : LaneCount) :
    allCrDone (leValue [b0, b1, b2]) m = false ↔ ∃ l < m.toNat, bit l 0 = false := by
  have hall : allCrDone (leValue [b0, b1, b2]) m = true ↔ ∀ l < m.toNat, bit l 0 = true := by
    rw [allCrDone, allLanes_iff]
    exact forall₂_congr fun l hl => by rw [crDone, ← activeLaneBit hbit hl (by decide), Nat.add_zero]
  simp only [← Bool.not_eq_true, hall, not_forall, exists_prop]

/-- Equalization has succeeded when bits 1 and 2 of every active lane and the alignment bit are set (R285, R286). -/
theorem equalizationDone_iff (m : LaneCount) :
    (allEqDone (leValue [b0, b1, b2]) m && alignDone (leValue [b0, b1, b2])) = true
      ↔ (∀ l < m.toNat, bit l 1 = true ∧ bit l 2 = true) ∧ b2.getLsbD 0 = true := by
  rw [Bool.and_eq_true, alignDone_leValue, allEqDone, allLanes_iff]
  refine and_congr_left' (forall₂_congr fun l hl => ?_)
  rw [Bool.and_eq_true, eqDone, symbolLocked, activeLaneBit hbit hl (by decide), activeLaneBit hbit hl (by decide)]

end

/-! ## One poll (R284 to R287, R309) -/

/-- A lost Clock Recovery ends the loop first (R284). -/
theorem eqStatus_clockRecoveryLost {bytes : List Byte} {s : State}
    (hcr : allCrDone (leValue bytes) s.ctx.lc.laneCount = false) :
    deliver .eqStatus (.ok bytes) s = .next (exitTraining (some (.equalizationFailed .clockRecoveryLost)) s) :=
  if_pos hcr

section
variable {bytes : List Byte} {s : State} (hcr : ¬allCrDone (leValue bytes) s.ctx.lc.laneCount = false)
include hcr

/-- Then success does (R285, R286). -/
theorem eqStatus_succeeds (heq : (allEqDone (leValue bytes) s.ctx.lc.laneCount && alignDone (leValue bytes)) = true) :
    deliver .eqStatus (.ok bytes) s = .next (exitTraining none s) :=
  (if_neg hcr).trans (if_pos heq)

variable (heq : ¬(allEqDone (leValue bytes) s.ctx.lc.laneCount && alignDone (leValue bytes)) = true)
include heq

/-- Then the cap does (R287, R309). -/
theorem eqStatus_iterationCap (h5 : s.ctx.eqIter = 5) :
    deliver .eqStatus (.ok bytes) s = .next (exitTraining (some (.equalizationFailed .iterationCap)) s) :=
  (if_neg hcr).trans ((if_neg heq).trans (if_pos h5))

/-- Else the adjust registers are read (R287). -/
theorem eqStatus_readsAdjust (h5 : s.ctx.eqIter ≠ 5) (hb : s.aux.ctl.busy = false) :
    ∃ u, deliver .eqStatus (.ok bytes) s = .next u ∧ Begun (readTxn 0x206 2) .eqAdjust s u := by
  obtain ⟨u, hu, b⟩ := memRead_begun (a := 0x206) (n := 2) .eqAdjust (by decide) (by decide) hb
  exact ⟨u, (if_neg hcr).trans ((if_neg heq).trans ((if_neg h5).trans hu)), b⟩

end

/-- A three-byte read's ACK delivers its first three bytes. -/
theorem ackedTriple_delivers {s : State} {a : Addr} {site : AuxSite} {b0 b1 b2 : Byte} {extra : List Byte}
    (aw : Awaiting (readTxn a 3) site s) (h13 : extra.length ≤ 13) :
    exec (.replyAck (b0 :: b1 :: b2 :: extra)) s
      = deliver site (.ok [b0, b1, b2]) (s.accepted (readTxn a 3) (.reply 0 (b0 :: b1 :: b2 :: extra))) :=
  replyAck_delivers aw (Nat.add_le_add_right h13 3) (fun _ => Nat.le_add_left 3 _)

/-- Settles O44: the status is delivered to the poll's check, whose tests come in this order. -/
theorem equalizationPollChecksInOrder : Obligations.EqualizationPollChecksInOrder := by
  intro s b0 b1 b2 extra bit aw h13 hbit
  simp only [ackedTriple_delivers aw h13, ← clockRecoveryLost_iff (b2 := b2) hbit, ← equalizationDone_iff hbit]
  by_cases hcr : allCrDone (leValue [b0, b1, b2]) s.ctx.lc.laneCount = false
  · simp only [if_pos hcr]
    exact ⟨_, eqStatus_clockRecoveryLost hcr, exitTraining_begun _ _, rfl⟩
  by_cases heq : (allEqDone (leValue [b0, b1, b2]) s.ctx.lc.laneCount && alignDone (leValue [b0, b1, b2])) = true
  · simp only [if_neg hcr, if_pos heq]
    exact ⟨_, eqStatus_succeeds hcr heq, exitTraining_begun _ _, rfl⟩
  by_cases h5 : s.ctx.eqIter = 5
  · simp only [if_neg hcr, if_neg heq, if_pos h5]
    exact ⟨_, eqStatus_iterationCap hcr heq h5, exitTraining_begun _ _, rfl⟩
  · simp only [if_neg hcr, if_neg heq, if_neg h5]
    obtain ⟨u, hu, b⟩ := eqStatus_readsAdjust
      (s := s.accepted (readTxn 0x202 3) (.reply 0 (b0 :: b1 :: b2 :: extra))) hcr heq h5 (s.complete_busy _)
    exact ⟨u, hu, b.inFlight, b.ctx, b.port, b.sb, b.phy⟩

end Sys2Proof.Machine

/-! PROOF. The statement about the model's faults (60_exceptions.md), and the lemmas it needs. -/

namespace Sys2Proof.Machine

/-! ## When a part of a step can fault (R314, R346) -/

/-- What of the state lets a part of a step raise the fault: a busy bit for the two issues, an illegal applied level for an
`Apply` of the LTSM's, and nothing for the read of an unwritten byte (R40). -/
def Fault.PossibleIn (s : State) : Fault → Prop
  | .auxIssueWhileBusy => s.aux.ctl.busy = true
  | .unwrittenAuxData => False
  | .internalIllegalLevel => s.ctx.applied.legal = false
  | .sidebandIssueWhileBusy => s.sb.busy = true

/-- Between two accesses, with the applied level legal, no fault is possible. -/
theorem Fault.not_possibleIn {s : State} (hb : s.aux.ctl.busy = false) (hs : s.sb.busy = false)
    (hl : s.ctx.applied.legal = true) (f : Fault) : ¬f.PossibleIn s := by
  cases f <;> simp [Fault.PossibleIn, hb, hs, hl]

/-- The completion of an attempt makes no fault possible that was not. -/
theorem Fault.PossibleIn.of_complete {o : AuxOutcome} {s : State} {f : Fault} (h : f.PossibleIn (s.complete o)) :
    f.PossibleIn s := by
  cases f with
  | auxIssueWhileBusy => exact absurd ((s.complete_busy o).symm.trans h) Bool.false_ne_true
  | unwrittenAuxData | internalIllegalLevel | sidebandIssueWhileBusy => exact h

/-! ## Transactions and levels (R38, R40, R303)

A part of a step is often run on a state that differs from the one at hand in registers `Fault.PossibleIn` does not read; `( :)`
has its lemma speak of that state before the two are compared. -/

theorem attempt_of_busy (t : Txn) (site : AuxSite) {s : State} (hb : s.aux.ctl.busy = true) :
    attempt t site s = .fault .auxIssueWhileBusy := by
  have hbusy : (s.prepareAttempt t).aux.ctl.busy = true := by rw [(prepareAttempt_spec t s).ctl]; exact hb
  simp [attempt, issue, hbusy]

/-- An attempt of well-formed operands finds its payload in the buffer, so that only a busy controller stops it. -/
theorem attempt_fault {t : Txn} {site : AuxSite} {s : State} {f : Fault} (ok : t.Ok) (h : attempt t site s = .fault f) :
    f.PossibleIn s := by
  cases hb : s.aux.ctl.busy with
  | true =>
    obtain rfl := Host.Outcome.fault.inj ((attempt_of_busy t site hb).symm.trans h)
    exact hb
  | false => nomatch (attempt_eq site ok hb).symm.trans h

theorem beginTxn_fault {t : Txn} {site : AuxSite} {s : State} {f : Fault} (ok : t.Ok)
    (h : beginTxn t site s = .fault f) : f.PossibleIn s :=
  (attempt_fault ok h :)

theorem memRead_fault {a : Addr} {n : Nat} {site : AuxSite} {s : State} {f : Fault} (h1 : 1 ≤ n) (h4 : n ≤ 4)
    (h : memRead a n site s = .fault f) : f.PossibleIn s :=
  beginTxn_fault (t := readTxn a n) ⟨h1, h4.trans (by decide), rfl⟩ h

theorem memWrite_fault {a : Addr} {n : Nat} {v : Word} {site : AuxSite} {s : State} {f : Fault} (h1 : 1 ≤ n) (h4 : n ≤ 4)
    (h : memWrite a n v site s = .fault f) : f.PossibleIn s :=
  beginTxn_fault (t := ⟨.nativeWrite, a, n, leBytes n v⟩) ⟨h1, h4.trans (by decide), leBytes_length n v⟩ h

theorem auxTransaction_fault {c : AuxCmd} {addr : Addr} {len : Nat} {payload : List Byte} {s : State} {f : Fault}
    (h : auxTransaction c addr len payload s = .fault f)
    (hp : if c.isRead then payload = [] else payload.length = len) : f.PossibleIn s := by
  unfold auxTransaction at h
  split at h
  · nomatch h
  case isFalse hlen =>
    simp only [not_or, Nat.not_lt] at hlen
    obtain ⟨h1, h16⟩ := hlen
    exact beginTxn_fault (t := ⟨c, addr, len, payload⟩) ⟨h1, h16, hp⟩ h

/-- An `Apply` faults at an illegal level alone. -/
theorem applyLevel_fault {l : Level} {m : LaneCount} {site : ApplySite} {s : State} {f : Fault}
    (h : applyLevel l m site s = .fault f) : f = .internalIllegalLevel ∧ l.legal = false ∧ site ≠ .host := by
  unfold applyLevel at h
  split at h
  · nomatch h
  case isFalse hl =>
    split at h
    · nomatch h
    case h_2 hsite => exact ⟨(Host.Outcome.fault.inj h).symm, Bool.of_not_eq_true hl, hsite⟩

theorem applyLevel_ne_fault {l : Level} {m : LaneCount} {site : ApplySite} {s : State} {f : Fault} (hl : l.legal = true) :
    applyLevel l m site s ≠ .fault f := by
  rw [applyLevel_legal hl]
  nofun

theorem setupPort_fault {s : State} {f : Fault} (h : setupPort s = .fault f) : f.PossibleIn s :=
  (memWrite_fault (by decide) (by decide) h :)

/-! ## The AUX channel's answer (R40, R44, R168) -/

/-- Whatever a transaction's result makes the engine do: it begins a transaction, or an `Apply` at the initial, a clamped
or the applied level. -/
theorem deliver_fault {site : AuxSite} {r : Result (List Byte) AuxError} {s : State} {f : Fault}
    (h : deliver site r s = .fault f) : f.PossibleIn s := by
  cases site with
  | auxExecute | dpcdRead | dpcdReadProbe | dpcdWrite | laneSet | exitPattern => nomatch h
  | rdInterval =>
    simp only [deliver, setupInterval] at h
    split at h
    · nomatch h
    · exact (setupPort_fault h :)
  | laneCountSet | linkBwSet =>
    cases r with
    | err e => nomatch h
    | ok bytes => exact (memWrite_fault (by decide) (by decide) h :)
  | pattern1 =>
    cases r with
    | err e => nomatch h
    | ok bytes =>
      simp only [deliver, setupLevel] at h
      exact absurd h (applyLevel_ne_fault (by decide))
  | crAdjust | eqAdjust =>
    cases r with
    | err e => nomatch h
    | ok bytes =>
      simp only [deliver, crAdjust, eqAdjust] at h
      exact absurd h (applyLevel_ne_fault (requestedLevel_legal _ _))
  | pattern2 =>
    cases r with
    | err e => nomatch h
    | ok bytes =>
      simp only [deliver, eqReapply] at h
      obtain ⟨rfl, hl, -⟩ := applyLevel_fault h
      exact hl
  | crStatus =>
    cases r with
    | err e => nomatch h
    | ok bytes =>
      simp only [deliver, crCheck] at h
      split at h
      · exact (memWrite_fault (by decide) (by decide) h :)
      · exact (memRead_fault (by decide) (by decide) h :)
  | eqStatus =>
    cases r with
    | err e => nomatch h
    | ok bytes =>
      simp only [deliver, eqCheck] at h
      split_ifs at h
      exact (memRead_fault (by decide) (by decide) h :)

/-- A successful attempt of a read has stored the bytes the engine reads. -/
theorem replyBytes_of_attemptOk {o : AuxOutcome} {s : State} {cmd : AuxCmd} {len : Nat} (ho : o.possible = true)
    (hr : cmd.isRead = true) (hok : attemptOk (s.complete o).aux.ctl cmd len = true) :
    ∃ bytes, (s.complete o).replyBytes len = some bytes := by
  have hf : o.fails cmd len = false := by
    by_contra hne
    exact Bool.false_ne_true ((attemptOk_fails s.aux.ctl ho (Bool.of_not_eq_false hne)).symm.trans hok)
  cases o with
  | timeout | receiveError => nomatch hf
  | reply status bytes =>
    simp only [AuxOutcome.fails, hr, Bool.true_and, Bool.or_eq_false_iff, decide_eq_false_iff_not, Nat.not_lt] at hf
    obtain ⟨-, hl⟩ := hf
    exact ⟨_, replyBytes_complete status bytes len s hl (of_decide_eq_true ho)⟩

theorem verdict_fault {o : AuxOutcome} {t : Txn} {site : AuxSite} {s : State} {f : Fault} (ho : o.possible = true)
    (ok : t.Ok) (h : verdict t site (s.complete o) = .fault f) : f.PossibleIn (s.complete o) := by
  simp only [verdict] at h
  split at h
  case isTrue hok =>
    split at h
    case isTrue hr =>
      obtain ⟨bytes, hbytes⟩ := replyBytes_of_attemptOk ho hr hok
      split at h
      case h_1 hnone => nomatch hbytes.symm.trans hnone
      case h_2 => exact (deliver_fault h :)
    case isFalse => exact (deliver_fault h :)
  case isFalse =>
    split at h
    · exact (attempt_fault ok h :)
    · exact (deliver_fault h :)

/-- The answer's faults are possible in the state the completion leaves, where `BUSY = 0`. -/
theorem answer_fault {o : AuxOutcome} {s : State} {f : Fault} (ok : ∀ t site, s.op = .busy (.awaitAux t site) → t.Ok)
    (h : answer o s = .fault f) : f.PossibleIn (s.complete o) := by
  unfold answer resume at h
  rw [State.complete_op] at h
  split at h
  · nomatch h
  case isFalse ho =>
    split at h
    · split at h
      case h_1 t site hop => exact verdict_fault (Bool.of_not_eq_false ho) (ok t site hop) h
      case h_2 => nomatch h
    · nomatch h

/-! ## Instructions (R47, R49) -/

theorem hostOp_fault {i : Instr} {s : State} {body : State → Out} {f : Fault} (h : hostOp i s body = .fault f) :
    i.wellFormed = true ∧ body (s.log (.opStart i)) = .fault f := by
  cases hw : i.wellFormed with
  | false => nomatch (hostOp_illFormed s body hw).symm.trans h
  | true =>
    cases hop : s.op with
    | idle => exact ⟨rfl, (hostOp_idle body hw hop).symm.trans h⟩
    | busy pos => nomatch (hostOp_busy body hw hop).symm.trans h

/-- With the operands of the transaction awaited, if any, well-formed, an instruction faults only where the state makes the
fault possible: the host interface's check makes the operands of the others well-formed. -/
theorem exec_fault {i : Instr} {s : State} {f : Fault} (ok : ∀ t site, s.op = .busy (.awaitAux t site) → t.Ok)
    (h : exec i s = .fault f) : f.PossibleIn s := by
  cases i with
  | replyAck | replyNack | replyDefer => exact (answer_fault ok h).of_complete
  | nativeRead | i2cRead | i2cReadMot =>
    simp only [exec, execNativeRead, execI2cRead, execI2cReadMot] at h
    exact (auxTransaction_fault (hostOp_fault h).2 rfl :)
  | nativeWrite | i2cWrite | i2cWriteMot =>
    simp only [exec, execNativeWrite, execI2cWrite, execI2cWriteMot] at h
    obtain ⟨hw, hb⟩ := hostOp_fault h
    exact (auxTransaction_fault hb (beq_iff_eq.mp hw) :)
  | auxExecute cmd addr len payload =>
    simp only [exec, execAuxExecute] at h
    obtain ⟨hw, hb⟩ := hostOp_fault h
    cases hc : AuxCmd.ofNibble? cmd with
    | none => simp [hc] at hb
    | some c =>
      simp only [hc] at hb
      simp only [Instr.wellFormed, hc, Bool.and_eq_true] at hw
      obtain ⟨-, hp⟩ := hw
      exact (auxTransaction_fault hb (by simpa using hp) :)
  | dpcdRead | dpcdReadProbe =>
    simp only [exec, execDpcdRead, execDpcdReadProbe] at h
    obtain ⟨-, hb⟩ := hostOp_fault h
    split at hb
    · nomatch hb
    case isFalse hn =>
      obtain ⟨h1, h4⟩ := badCount_false (Bool.of_not_eq_true hn)
      exact (memRead_fault h1 h4 hb :)
  | dpcdWrite =>
    simp only [exec, execDpcdWrite] at h
    obtain ⟨-, hb⟩ := hostOp_fault h
    split at hb
    · nomatch hb
    case isFalse hn =>
      obtain ⟨h1, h4⟩ := badCount_false (Bool.of_not_eq_true hn)
      exact (memWrite_fault h1 h4 hb :)
  | epcApply =>
    simp only [exec, execEpcApply] at h
    obtain ⟨-, hb⟩ := hostOp_fault h
    split at hb
    · nomatch hb
    · obtain ⟨-, -, hhost⟩ := applyLevel_fault hb
      exact absurd rfl hhost
  | linkTrain =>
    simp only [exec, execLinkTrain] at h
    obtain ⟨-, hb⟩ := hostOp_fault h
    split at hb
    · nomatch hb
    · -- the context LINK_TRAIN initialises holds a legal applied level
      have hf := memRead_fault (by decide) (by decide) hb
      cases f with
      | internalIllegalLevel => exact Bool.noConfusion hf
      | auxIssueWhileBusy | unwrittenAuxData | sidebandIssueWhileBusy => exact hf

/-! ## Steps (R51, R314) -/

theorem hostStep_fault {s : State} {f : Fault} (h : hostStep s = .fault f) :
    ∃ i rest, exec i (s.withProgram rest) = .fault f := by
  unfold hostStep at h
  split at h
  · nomatch h
  case h_2 r rest hp =>
    split at h
    · nomatch h
    case h_2 i hd => exact ⟨i, rest, h⟩

theorem sidebandHead_fault {todo : List SbWrite} {l : Level} {m : LaneCount} {site : ApplySite} {s : State} {f : Fault}
    (h : sidebandHead todo l m site s = .fault f) : f.PossibleIn s := by
  cases todo with
  | nil =>
    obtain ⟨h1, h4⟩ := m.toNat_bounds
    exact (memWrite_fault h1 h4 h :)
  | cons w rest =>
    simp only [sidebandHead, sidebandWrite] at h
    split at h
    case isTrue hs =>
      obtain rfl := Host.Outcome.fault.inj h
      exact hs
    case isFalse => nomatch h

theorem timerStep_fault {site : WaitSite} {s : State} {f : Fault} (h : timerStep site s = .fault f) : f.PossibleIn s := by
  cases site with
  | idlePulse => exact (setupPort_fault h :)
  | crPoll | eqPoll => exact (memRead_fault (by decide) (by decide) h :)
  | exit => exact (memWrite_fault (by decide) (by decide) h :)

/-- Where the engine stands, the invariant rules out what would let the agent that moves fault. -/
theorem step_ne_fault {s : State} (iv : Inv s) (f : Fault) : step s ≠ .fault f := by
  intro h
  have hpos := iv.position
  have hl : s.ctx.applied.legal = true := iv.levels.2
  cases hr : s.host.reset with
  | true => nomatch (step_of_reset hr).symm.trans h
  | false =>
    cases hop : s.op with
    | idle =>
      rw [hop] at hpos
      obtain ⟨⟨hb, -⟩, hs, -⟩ := hpos
      rw [step_of_idle hr hop] at h
      obtain ⟨i, rest, hx⟩ := hostStep_fault h
      have hidle : ∀ t site, (s.withProgram rest).op = .busy (.awaitAux t site) → t.Ok :=
        fun t site e => nomatch hop.symm.trans e
      exact Fault.not_possibleIn (s := s.withProgram rest) hb hs hl f (exec_fault hidle hx)
    | busy pos =>
      rw [hop] at hpos
      cases pos with
      | awaitAux t site =>
        obtain ⟨ok, ⟨-, hb, -⟩, hs, -⟩ := hpos
        rw [step_awaitAux hr hop hb, nextOutcome_state] at h
        have hok : ∀ t' site', s.op = .busy (.awaitAux t' site') → t'.Ok := by
          intro t' site' e
          obtain ⟨rfl, -⟩ := Position.awaitAux.inj (OpState.busy.inj (hop.symm.trans e))
          exact ok
        exact Fault.not_possibleIn (State.complete_busy _ _) hs hl f
          (answer_fault (s := { s with chan := s.nextOutcome.2.chan }) hok h)
      | sideband todo l m site =>
        obtain ⟨⟨hb, -⟩, hs, -⟩ := hpos
        rw [step_of_busy hr hop] at h
        exact Fault.not_possibleIn hb hs hl f (sidebandHead_fault h)
      | awaitSb todo l m site =>
        rw [step_of_busy hr hop] at h
        nomatch h
      | waiting us site =>
        obtain ⟨⟨hb, -⟩, hs, -⟩ := hpos
        rw [step_of_busy hr hop] at h
        exact Fault.not_possibleIn hb hs hl f (timerStep_fault h)

/-- Settles O51: no step faults from the invariant, and no state makes the read of an unwritten byte possible. -/
theorem noModelFaultFromInvariant : Obligations.NoModelFaultFromInvariant :=
  ⟨fun _ f iv => step_ne_fault iv f, fun _ _ ok h => exec_fault ok h⟩

end Sys2Proof.Machine

/-! PROOF. The statements about reset and about accesses while a busy bit is 1 (70_reset_and_hazards.md), and the lemmas they
need. -/

namespace Sys2Proof.Machine

/-! ## Reset (R340 to R343) -/

/-- Settles O9: the reset input's step is `State.afterReset`, which takes every register of the block from the reset state. -/
theorem resetInputRestoresResetValues : Obligations.ResetInputRestoresResetValues :=
  fun s hr => ⟨s.afterReset, step_of_reset hr, rfl, rfl, rfl, rfl, rfl, rfl, rfl, rfl, rfl, rfl, rfl, rfl⟩

/-- Settles O10: R340's values, read off the reset state. -/
theorem resetLeavesStatedValues : Obligations.ResetLeavesStatedValues :=
  ⟨rfl, rfl, rfl, rfl, fun _ => Vector.getElem_replicate .., rfl, rfl, rfl, rfl, rfl, fun _ => Vector.getElem_replicate .., rfl,
    rfl, rfl, rfl, rfl, rfl, rfl⟩

/-- Settles O49: the reset state is the one the reset input leaves where the PHY's list is empty. -/
theorem invariantHoldsAtReset : Obligations.InvariantHoldsAtReset := inv_afterReset (s := State.reset) (Memory.wf_nil _)

/-! ## The last access of a part of a step (R346)

Each part of a step either leaves a controller's busy bit as it was, or has the write that sets it as its last event. -/

/-- Neither busy bit differs but by the write that sets it, the last event of `u`. -/
def SetsBusyLast (s u : State) : Prop :=
  (u.aux.ctl.busy = s.aux.ctl.busy ∨ u.events.head? = some (.auxCmdWrite u.aux.cmd))
    ∧ (u.sb.busy = s.sb.busy ∨ u.events.head? = some (.sbOpcodeWrite u.sb.opcode))

/-- A part of a step that leaves both busy bits as they were. -/
theorem SetsBusyLast.of_next {s u v : State} (h : Host.Outcome.next v = (.next u : Out))
    (hb : v.aux.ctl.busy = s.aux.ctl.busy) (hs : v.sb.busy = s.sb.busy) : SetsBusyLast s u :=
  Host.Outcome.next.inj h ▸ ⟨.inl hb, .inl hs⟩

theorem issue_head {w : Word} {s u : State} (h : issue w s = .next u) : u.events.head? = some (.auxCmdWrite u.aux.cmd) := by
  unfold issue at h
  split at h
  · nomatch h
  · split at h
    · nomatch h
    · obtain rfl := Host.Outcome.next.inj h; rfl

theorem attempt_setsBusyLast {t : Txn} {site : AuxSite} {s u : State} (h : attempt t site s = .next u) : SetsBusyLast s u := by
  obtain ⟨-, -, hsb, -⟩ := keeps_attempt h
  exact ⟨.inr (issue_head h), .inl (congrArg Sideband.busy hsb)⟩

theorem beginTxn_setsBusyLast {t : Txn} {site : AuxSite} {s u : State} (h : beginTxn t site s = .next u) : SetsBusyLast s u :=
  (attempt_setsBusyLast h :)

theorem applyLevel_setsBusyLast {l : Level} {lanes : LaneCount} {site : ApplySite} {s u : State}
    (h : applyLevel l lanes site s = .next u) : SetsBusyLast s u := by
  unfold applyLevel at h
  split at h
  · exact .of_next h rfl rfl
  · split at h
    · exact .of_next h rfl rfl
    · nomatch h

/-- The end of an `Apply` makes no access to either controller: a `Wait` or the end of the operation comes first. -/
theorem applyDone_sameControllers (site : ApplySite) (r : Result (List Byte) AuxError) (s : State) :
    (applyDone site r s).aux = s.aux ∧ (applyDone site r s).sb = s.sb := by
  cases site with
  | crAdjust new =>
    cases r with
    | err e => exact ⟨rfl, rfl⟩
    | ok bytes =>
      simp only [applyDone, crAdjusted]
      split
      · exact ⟨rfl, rfl⟩
      · split <;> exact ⟨rfl, rfl⟩
  | _ => cases r <;> exact ⟨rfl, rfl⟩

/-- A transaction's result makes the engine begin at most one access, its last event. -/
theorem deliver_setsBusyLast {site : AuxSite} {r : Result (List Byte) AuxError} {s u : State}
    (h : deliver site r s = .next u) : SetsBusyLast s u := by
  cases site with
  | auxExecute | dpcdRead | dpcdReadProbe | dpcdWrite | exitPattern err => exact .of_next h rfl rfl
  | laneSet site =>
    obtain ⟨haux, hsb⟩ := applyDone_sameControllers site r s
    exact .of_next h (congrArg (·.ctl.busy) haux) (congrArg Sideband.busy hsb)
  | rdInterval =>
    simp only [deliver, setupInterval] at h
    split at h
    · exact .of_next h rfl rfl
    · exact (beginTxn_setsBusyLast h :)
  | laneCountSet | linkBwSet =>
    cases r with
    | err e => exact .of_next h rfl rfl
    | ok bytes => exact (beginTxn_setsBusyLast h :)
  | pattern1 | crAdjust | pattern2 | eqAdjust =>
    cases r with
    | err e => exact .of_next h rfl rfl
    | ok bytes =>
      simp only [deliver, setupLevel, crAdjust, eqReapply, eqAdjust] at h
      exact applyLevel_setsBusyLast h
  | crStatus =>
    cases r with
    | err e => exact .of_next h rfl rfl
    | ok bytes =>
      simp only [deliver, crCheck] at h
      split at h <;> exact (beginTxn_setsBusyLast h :)
  | eqStatus =>
    cases r with
    | err e => exact .of_next h rfl rfl
    | ok bytes =>
      simp only [deliver, eqCheck] at h
      split_ifs at h
      · exact .of_next h rfl rfl
      · exact .of_next h rfl rfl
      · exact .of_next h rfl rfl
      · exact beginTxn_setsBusyLast h

theorem verdict_setsBusyLast {t : Txn} {site : AuxSite} {s u : State} (h : verdict t site s = .next u) : SetsBusyLast s u := by
  simp only [verdict] at h
  split at h
  · split at h
    · split at h
      · nomatch h
      · exact (deliver_setsBusyLast h :)
    · exact (deliver_setsBusyLast h :)
  · split at h
    · exact (attempt_setsBusyLast h :)
    · exact (deliver_setsBusyLast h :)

theorem resume_setsBusyLast {s u : State} (h : resume s = .next u) : SetsBusyLast s u := by
  unfold resume at h
  split at h
  · exact verdict_setsBusyLast h
  · exact .of_next h rfl rfl

theorem auxTransaction_setsBusyLast {cmd : AuxCmd} {addr : Addr} {len : Nat} {payload : List Byte} {s u : State}
    (h : auxTransaction cmd addr len payload s = .next u) : SetsBusyLast s u := by
  unfold auxTransaction at h
  split at h
  · exact .of_next h rfl rfl
  · exact beginTxn_setsBusyLast h

/-- An instruction of the host's begins at most one transaction, whose issue is its last event. -/
theorem exec_setsBusyLast {i : Instr} {s u : State} (hi : i.format ≠ .auxReply) (h : exec i s = .next u) :
    SetsBusyLast s u := by
  cases i with
  | replyAck | replyNack | replyDefer => exact absurd rfl hi
  | nativeWrite | nativeRead | i2cWrite | i2cRead | i2cWriteMot | i2cReadMot =>
    simp only [exec, execNativeWrite, execNativeRead, execI2cWrite, execI2cRead, execI2cWriteMot, execI2cReadMot] at h
    obtain ⟨-, -, hb⟩ := hostOp_next h
    exact (auxTransaction_setsBusyLast hb :)
  | auxExecute =>
    simp only [exec, execAuxExecute] at h
    obtain ⟨-, -, hb⟩ := hostOp_next h
    split at hb
    · nomatch hb
    · exact (auxTransaction_setsBusyLast hb :)
  | dpcdRead | dpcdReadProbe | dpcdWrite =>
    simp only [exec, execDpcdRead, execDpcdReadProbe, execDpcdWrite] at h
    obtain ⟨-, -, hb⟩ := hostOp_next h
    split at hb
    · exact .of_next hb rfl rfl
    · exact (beginTxn_setsBusyLast hb :)
  | epcApply =>
    simp only [exec, execEpcApply] at h
    obtain ⟨-, -, hb⟩ := hostOp_next h
    split at hb
    · nomatch hb
    · exact (applyLevel_setsBusyLast hb :)
  | linkTrain =>
    simp only [exec, execLinkTrain] at h
    obtain ⟨-, -, hb⟩ := hostOp_next h
    split at hb
    · nomatch hb
    · exact (beginTxn_setsBusyLast hb :)

theorem hostStep_setsBusyLast {s t : State} (hb : s.aux.ctl.busy = false) (h : hostStep s = .next t) : SetsBusyLast s t := by
  rcases hostStep_cases h with ⟨-, rfl⟩ | ⟨r, rest, i, -, -, hx⟩
  · exact ⟨.inl rfl, .inl rfl⟩
  · by_cases hi : i.format = .auxReply
    · cases i with
      | replyAck | replyNack | replyDefer => exact absurd hx (answer_ne_next hb)
      | _ => exact Format.noConfusion hi
    · exact (exec_setsBusyLast hi hx :)

theorem sidebandHead_setsBusyLast {todo : List SbWrite} {l : Level} {lanes : LaneCount} {site : ApplySite} {s u : State}
    (h : sidebandHead todo l lanes site s = .next u) : SetsBusyLast s u := by
  cases todo with
  | nil => exact (beginTxn_setsBusyLast h :)
  | cons w rest =>
    simp only [sidebandHead, sidebandWrite] at h
    split at h
    · nomatch h
    · obtain rfl := Host.Outcome.next.inj h; exact ⟨.inl rfl, .inr rfl⟩

theorem timerStep_setsBusyLast {wait : WaitSite} {s u : State} (h : timerStep wait s = .next u) : SetsBusyLast s u := by
  cases wait with
  | idlePulse | crPoll | eqPoll | exit err => exact (beginTxn_setsBusyLast h :)

/-! ## No access while busy (R38, R346) -/

/-- A busy bit that is 1 was set by the last event. -/
def BusyBitsJustSet (u : State) : Prop :=
  (u.aux.ctl.busy = true → u.events.head? = some (.auxCmdWrite u.aux.cmd))
    ∧ (u.sb.busy = true → u.events.head? = some (.sbOpcodeWrite u.sb.opcode))

/-- A part of a step that starts with both busy bits 0 sets the one that is 1 at its end by its last event. -/
theorem SetsBusyLast.justSet {s u : State} (h : SetsBusyLast s u) (hb : s.aux.ctl.busy = false) (hs : s.sb.busy = false) :
    BusyBitsJustSet u := by
  obtain ⟨haux, hsb⟩ := h
  exact ⟨fun hu => haux.resolve_left fun e => Bool.noConfusion (hu.symm.trans (e.trans hb)),
    fun hu => hsb.resolve_left fun e => Bool.noConfusion (hu.symm.trans (e.trans hs))⟩

/-- The answer to an attempt is its completion, then the engine's reaction. -/
theorem answer_resumes {o : AuxOutcome} {s u : State} (h : answer o s = .next u) : resume (s.complete o) = .next u := by
  unfold answer at h
  split at h
  · nomatch h
  · split at h
    · exact h
    · nomatch h

/-- The completion that clears `BUSY` is the first event of an answer, and an access after it the last. -/
theorem answer_events {o : AuxOutcome} {s u : State} (h : answer o s = .next u) :
    ∃ later, u.events = later ++ .auxDone o :: s.events := by
  have hr := answer_resumes h
  unfold resume at hr
  split at hr
  · exact (keeps_verdict hr).ev
  · obtain rfl := Host.Outcome.next.inj hr; exact ⟨[], rfl⟩

/-- Settles O54: where both busy bits are 0 neither of the first two clauses speaks and the step's last write sets the bit;
at an await the step starts with the completion, after which both are 0. -/
theorem noAccessWhileBusy : Obligations.NoAccessWhileBusy := by
  intro s t iv hr h
  have hpos := iv.position
  have fromQuiet (hb : s.aux.ctl.busy = false) (hs : s.sb.busy = false) (hl : SetsBusyLast s t) :
      (s.aux.ctl.busy = true → ∃ o later, t.events = later ++ .auxDone o :: s.events)
        ∧ (s.sb.busy = true → t.events = .sbDone :: s.events ∧ t.sb.busy = false) ∧ BusyBitsJustSet t :=
    ⟨fun hb' => Bool.noConfusion (hb.symm.trans hb'), fun hs' => Bool.noConfusion (hs.symm.trans hs'), hl.justSet hb hs⟩
  cases hop : s.op with
  | idle =>
    rw [hop] at hpos
    obtain ⟨⟨hb, -⟩, hs, -⟩ := hpos
    rw [step_of_idle hr hop] at h
    exact fromQuiet hb hs (hostStep_setsBusyLast hb h)
  | busy pos =>
    rw [hop] at hpos
    cases pos with
    | awaitAux x site =>
      obtain ⟨-, ⟨-, hb, -⟩, hs, -⟩ := hpos
      rw [step_awaitAux hr hop hb, nextOutcome_state] at h
      obtain ⟨later, hev⟩ := answer_events h
      refine ⟨fun _ => ⟨_, later, hev⟩, fun hs' => Bool.noConfusion (hs.symm.trans hs'), ?_⟩
      exact (resume_setsBusyLast (answer_resumes h)).justSet (State.complete_busy _ _) hs
    | sideband todo l lanes site =>
      obtain ⟨⟨hb, -⟩, hs, -⟩ := hpos
      rw [step_of_busy hr hop] at h
      exact fromQuiet hb hs (sidebandHead_setsBusyLast h)
    | awaitSb todo l lanes site =>
      obtain ⟨⟨hb, -⟩, hs, -⟩ := hpos
      obtain rfl := Host.Outcome.next.inj ((step_awaitSb hr hop hs).symm.trans h)
      exact ⟨fun hb' => Bool.noConfusion (hb.symm.trans hb'), fun _ => ⟨rfl, rfl⟩,
        fun hb' => Bool.noConfusion (hb.symm.trans hb'), Bool.noConfusion⟩
    | waiting us wait =>
      obtain ⟨⟨hb, -⟩, hs, -⟩ := hpos
      rw [step_of_busy hr hop] at h
      exact fromQuiet hb hs (timerStep_setsBusyLast h)

end Sys2Proof.Machine
